-- ==== Sys2Proof/Word.lean ====
section
/-! DEFINITION. The word types of the engine: bytes of memory and of the token stream, the 32-bit registers
of the register block (10_state.md R30), the 33-bit cursors (R23, R24) and the 16-bit dictionary slots (R40). -/

namespace Sys2Proof

/-- A byte of memory or of the token stream. -/
abbrev Byte := BitVec 8

/-- A register of the register block (10_state.md R30), an address (ADDR_W = 32) or a length (LEN_W = 32). -/
abbrev Word := BitVec 32

/-- A cursor: LEN_W + 1 bits (10_state.md R23, R24). -/
abbrev Cursor := BitVec 33

/-- A dictionary slot: SLOT_W = 16 bits (10_state.md R40). -/
abbrev Slot := BitVec 16

end Sys2Proof
end

