-- ==== Sys2Proof/Config.lean ====
section
/-! DEFINITION. What an implementation fixes: the constants of 00_scope.md R7, the parameters of R9 at the values
this spec gives them, the model's own choices where the spec leaves a platform parameter open, and the free values
(opaque: no proof can see them). -/

namespace Sys2Proof.Config

/-- MATCH_MIN (00_scope.md R7). -/
def matchMin : Nat := 3
/-- MATCH_BITS (00_scope.md R7, R8). -/
def matchBits : Nat := 6
/-- MATCH_MAX = (1 << MATCH_BITS) + MATCH_MIN - 1 = 66 (00_scope.md R7). -/
def matchMax : Nat := (1 <<< matchBits) + matchMin - 1
/-- OFFSET_BITS = 16 - MATCH_BITS = 10 (00_scope.md R7). -/
def offsetBits : Nat := 16 - matchBits
/-- OFFSET_MASK = (1 << OFFSET_BITS) - 1 = 0x3FF (00_scope.md R7). -/
def offsetMask : Nat := (1 <<< offsetBits) - 1
/-- DICT_SLOTS (00_scope.md R7). -/
def dictSlots : Nat := 1024
/-- GROUP_TOKENS (00_scope.md R7). -/
def groupTokens : Nat := 8
/-- HASH_SHIFT_1 (00_scope.md R7). -/
def hashShift1 : Nat := 9
/-- HASH_SHIFT_2 (00_scope.md R7). -/
def hashShift2 : Nat := 5
/-- ADDR_W, the width of a host byte address (00_scope.md R9). -/
def addrW : Nat := 32
/-- CAP_MARGIN, the free-space reserve of the capacity check (00_scope.md R9). -/
def capMargin : Nat := 17
/-- SLOT_BASE, added to a source position before it is stored in a slot (00_scope.md R9). -/
def slotBase : Nat := 0

/-- What a byte of memory that nothing has written reads as. DESIGN CHOICE (log 6), unsafe: the spec gives no
contents of memory. -/
def unlistedByte : Byte := 0x00

/-- REG_BASE of the instances the state after reset holds, one entry per instance. DESIGN CHOICE (log 2), unsafe:
REG_BASE and N_ENGINES are platform parameters (00_scope.md R9). -/
def regBases : List Word := [0x00001000]
/-- REG_BASE of the instance that is in focus after reset. DESIGN CHOICE (log 2), unsafe. -/
def regBase0 : Word := 0x00000000
/-- The width of a block's address window. DESIGN CHOICE (log 2), unsafe: a platform parameter (10_state.md R39). -/
def window : Nat := 0x1000

/-- The n-th free word drawn: the value of a register the spec defines no value for (60_exceptions.md R254; log 10). -/
opaque freeWord : Nat → Word

/-- The n-th free byte drawn: a destination byte of an operation that a reset abandoned (70_reset_and_hazards.md
R282; log 9). -/
opaque freeByte : Nat → Byte

end Sys2Proof.Config
end

