-- ==== Sys2Proof/Syntax.lean ====
section
/-! DEFINITION. The instructions: one constructor per row of spec/opcode_table.json (30_encoding.md R112). The
first seven are host commands of the register block (40_commands.md), the last three are elements of the token
stream (30_encoding.md R92 to R95). -/

namespace Sys2Proof

/-- The eight registers of the block (10_state.md R30). -/
inductive Reg
  | ctrl | status | srcAddr | srcLen | dstAddr | dstSize | result | inConsumed
  deriving DecidableEq, Repr

/-- The rows of the opcode table. A field `ign` holds the ignored bits [31:3] of a CTRL write (10_state.md R31), kept
so that encoding a decoded word gives that word back. -/
inductive Instr
  /-- START_COMPRESS (40_commands.md R130). -/
  | startCompress (ign : BitVec 29)
  /-- START_DECOMPRESS (40_commands.md R131). -/
  | startDecompress (ign : BitVec 29)
  /-- START_BADOP_00 (40_commands.md R134). -/
  | startBadop00 (ign : BitVec 29)
  /-- START_BADOP_11 (40_commands.md R134). -/
  | startBadop11 (ign : BitVec 29)
  /-- SET_OP (40_commands.md R136). -/
  | setOp (op : BitVec 2) (ign : BitVec 29)
  /-- WRITE_REG (40_commands.md R140). -/
  | writeReg (r : Reg) (v : Word)
  /-- READ_REG (40_commands.md R141). -/
  | readReg (r : Reg)
  /-- CTL, a control byte (30_encoding.md R92). -/
  | ctl (k : Byte)
  /-- LIT, a literal token (30_encoding.md R94). -/
  | lit (b : Byte)
  /-- MATCH, a match token: the length field N = length - MATCH_MIN and the offset field (30_encoding.md R95). -/
  | matchTok (n : BitVec 6) (off : BitVec 10)
  deriving DecidableEq, Repr

end Sys2Proof
end

