-- ==== Sys2Proof/WellFormed.lean ====
section
/-! DEFINITION. Which terms of Instr stand for a row of the opcode table. The field widths are in the types; the one
check left is that WRITE_REG does not name CTRL, whose writes are the five CTRL rows (spec/opcode_table.json, row
WRITE_REG: "offset 0x00 is the CTRL rows above"). -/

namespace Sys2Proof

/-- A WRITE_REG of CTRL is written as one of the CTRL rows (40_commands.md R140). -/
def Instr.wellFormed : Instr → Bool
  | .startCompress _ => true
  | .startDecompress _ => true
  | .startBadop00 _ => true
  | .startBadop11 _ => true
  | .setOp _ _ => true
  | .writeReg r _ => decide (r ≠ .ctrl)
  | .readReg _ => true
  | .ctl _ => true
  | .lit _ => true
  | .matchTok _ _ => true

end Sys2Proof
end

