-- ==== Sys2Proof/Decode.lean ====
section
/-! DEFINITION. The decoder and the encoder. A host command is selected by the register offset and, for CTRL, by the
value written (30_encoding.md R107, R112); a stream element is selected by its position in the stream and its control
bit, never by its own bits (R98, R112). Both are total and refuse by name. -/

namespace Sys2Proof

/-- The byte offset of a register in its block (10_state.md R30). -/
def Reg.offset : Reg → Nat
  | .ctrl => 0x00
  | .status => 0x04
  | .srcAddr => 0x08
  | .srcLen => 0x0C
  | .dstAddr => 0x10
  | .dstSize => 0x14
  | .result => 0x18
  | .inConsumed => 0x1C

/-- The register at a byte offset of the block (10_state.md R30); none at a misaligned offset or one of 0x20 or
more. -/
def regAt : Nat → Option Reg
  | 0x00 => some .ctrl
  | 0x04 => some .status
  | 0x08 => some .srcAddr
  | 0x0C => some .srcLen
  | 0x10 => some .dstAddr
  | 0x14 => some .dstSize
  | 0x18 => some .result
  | 0x1C => some .inConsumed
  | _ => none

/-- One host access to a register block: the byte offset in the block's window, the width in bits, and the value
written (none: a read). -/
structure BusAccess where
  offset : Nat
  width : Nat
  data : Option Word
  deriving DecidableEq, Repr

/-- Where in the stream an element stands (30_encoding.md R98): at the start of a group, or described by a control
bit. -/
inductive Position
  | control
  | token (bit : Bool)
  deriving DecidableEq, Repr

/-- Why a decoder refuses. The first three are the register accesses 10_state.md R39 refuses; the last is a stream
with too few bytes (60_exceptions.md R254). -/
inductive DecodeError
  | badWidth
  | misaligned
  | offsetOutOfBlock
  | missingBytes
  deriving DecidableEq, Repr

/-- What there is to decode: a host access, or the bytes of the stream at a position. -/
inductive Code
  | access (a : BusAccess)
  | element (p : Position) (bytes : List Byte)
  deriving DecidableEq, Repr

/-- The CTRL word (10_state.md R31): bit 0 START, bits [2:1] OP, bits [31:3] ignored. -/
def ctrlWord (start : Bool) (op : BitVec 2) (ign : BitVec 29) : Word :=
  BitVec.ofNat 32 (8 * ign.toNat + 2 * op.toNat + start.toNat)

/-- A CTRL write (30_encoding.md R107). -/
def decodeCtrl (v : Word) : Instr :=
  let op := v.extractLsb' 1 2
  let ign := v.extractLsb' 3 29
  if v.getLsbD 0 then
    if op = 0b01#2 then .startCompress ign
    else if op = 0b10#2 then .startDecompress ign
    else if op = 0b00#2 then .startBadop00 ign
    else .startBadop11 ign
  else .setOp op ign

/-- A host access (30_encoding.md R107, R108; 10_state.md R39). -/
def decodeAccess (a : BusAccess) : Except DecodeError Instr :=
  if a.width ≠ 32 then .error .badWidth
  else if a.offset % 4 ≠ 0 then .error .misaligned
  else
    match regAt a.offset, a.data with
    | none, _ => .error .offsetOutOfBlock
    | some r, none => .ok (.readReg r)
    | some .ctrl, some v => .ok (decodeCtrl v)
    | some r, some v => .ok (.writeReg r v)

/-- How many bytes the element at a position has (30_encoding.md R98). -/
def Position.length : Position → Nat
  | .control => 1
  | .token false => 1
  | .token true => 2

/-- The length field N of a match token: byte0[7:2] (30_encoding.md R95, R96). -/
def matchN (b0 : Byte) : BitVec 6 := b0.extractLsb' 2 6

/-- The offset of a match token: byte0[1:0] above byte1[7:0] (30_encoding.md R95, R96; 43_decoder.md R216). -/
def matchOff (b0 b1 : Byte) : BitVec 10 :=
  BitVec.ofNat 10 (256 * (b0.extractLsb' 0 2).toNat + b1.toNat)

/-- byte0 of a match token (30_encoding.md R95, R97). -/
def matchByte0 (n : BitVec 6) (off : BitVec 10) : Byte :=
  BitVec.ofNat 8 (4 * n.toNat + (off.extractLsb' 8 2).toNat)

/-- byte1 of a match token (30_encoding.md R95, R97). -/
def matchByte1 (off : BitVec 10) : Byte := off.extractLsb' 0 8

/-- The element at a position of the stream and the bytes after it (30_encoding.md R92, R94, R96, R98). -/
def decodeElement : Position → List Byte → Except DecodeError (Instr × List Byte)
  | .control, k :: rest => .ok (.ctl k, rest)
  | .token false, b :: rest => .ok (.lit b, rest)
  | .token true, b0 :: b1 :: rest => .ok (.matchTok (matchN b0) (matchOff b0 b1), rest)
  | _, _ => .error .missingBytes

/-- The instruction a code stands for, and the stream bytes after it. -/
def decode : Code → Except DecodeError (Instr × List Byte)
  | .access a => (decodeAccess a).map (fun i => (i, []))
  | .element p bs => decodeElement p bs

/-- A host write of a register. -/
def encodeWrite (r : Reg) (v : Word) : Code := .access ⟨r.offset, 32, some v⟩

/-- The code of an instruction (30_encoding.md R92 to R97, R107). -/
def encode : Instr → Code
  | .startCompress ign => encodeWrite .ctrl (ctrlWord true 0b01#2 ign)
  | .startDecompress ign => encodeWrite .ctrl (ctrlWord true 0b10#2 ign)
  | .startBadop00 ign => encodeWrite .ctrl (ctrlWord true 0b00#2 ign)
  | .startBadop11 ign => encodeWrite .ctrl (ctrlWord true 0b11#2 ign)
  | .setOp op ign => encodeWrite .ctrl (ctrlWord false op ign)
  | .writeReg r v => encodeWrite r v
  | .readReg r => .access ⟨r.offset, 32, none⟩
  | .ctl k => .element .control [k]
  | .lit b => .element (.token false) [b]
  | .matchTok n off => .element (.token true) [matchByte0 n off, matchByte1 off]

/-- The code a word of spec/opcode_table.json stands for. DESIGN CHOICE (log 11): 8 bits are the stream's first
element, 16 bits are a match token (byte0 in bits [7:0], byte1 in bits [15:8]), and a wider word is a host access of
32 bits: bits [31:0] are the value, and the operand word above them, to which the table gives no bits, holds the
offset in bits [39:32] and the direction in bit 40 (0 write, 1 read). -/
def codeOfTableWord (nbits w : Nat) : Code :=
  if nbits ≤ 8 then .element .control [BitVec.ofNat 8 w]
  else if nbits ≤ 16 then .element (.token true) [BitVec.ofNat 8 w, BitVec.ofNat 8 (w / 2 ^ 8)]
  else .access
    ⟨w / 2 ^ 32 % 2 ^ 8, 32, if (w / 2 ^ 40) % 2 = 1 then none else some (BitVec.ofNat 32 w)⟩

/-- The instruction the decoder reads from a word of the opcode table. -/
def decodeTableWord (nbits w : Nat) : Option Instr :=
  match decode (codeOfTableWord nbits w) with
  | .ok (i, _) => some i
  | .error _ => none

end Sys2Proof
end

