-- ==== Sys2Proof/Machine/State.lean ====
section
/-! DEFINITION. The state of the machine as plain data: the engine instances (10_state.md R20), host memory, the
platform's parameters, what the outside still does, and the reasons a step can stop; and the state after reset
(10_state.md R50). -/

namespace Sys2Proof.Machine

/-- Memory and the dictionary as lists of (address, value) pairs in one canonical form: addresses strictly rising,
and no value equal to what an unlisted address reads as (Memory.wf and Dict.wf in Machine/Ops.lean). -/
abbrev Cells (w : Nat) := List (Nat × BitVec w)

/-- Host memory (10_state.md R45): a list of Host.Cell. -/
abbrev Memory := Cells 8

/-- The match dictionary (10_state.md R40): 1024 slots of 16 bits, addressed by a 10-bit index; an unlisted slot
reads 0. -/
abbrev Dict := Cells 16

/-- ENG_STATE (10_state.md R21). -/
inductive EngState
  | idle | busy
  deriving DecidableEq, Repr

/-- The operation latched at START, OPL (10_state.md R21). -/
inductive Operation
  | compress | decompress
  deriving DecidableEq, Repr

/-- The stored part of the register block (10_state.md R30 to R38). CTRL is its OP field and STATUS is DONE and
CODE; STATUS.BUSY is ENG_STATE = BUSY (R32) and is stored once, as ENG_STATE. -/
structure Regs where
  /-- CTRL.OP (R31) -/
  ctrlOp : BitVec 2
  /-- STATUS.DONE (R32) -/
  done : Bool
  /-- STATUS.CODE (R32) -/
  code : BitVec 4
  /-- SRC_ADDR (R33) -/
  srcAddr : Word
  /-- SRC_LEN (R34) -/
  srcLen : Word
  /-- DST_ADDR (R35) -/
  dstAddr : Word
  /-- DST_SIZE (R36) -/
  dstSize : Word
  /-- RESULT (R37) -/
  result : Word
  /-- IN_CONSUMED (R38) -/
  inConsumed : Word
  deriving DecidableEq, Repr

/-- The operands latched at acceptance (10_state.md R22). -/
structure Operands where
  srcBase : Word
  srcLen : Word
  dstBase : Word
  dstSize : Word
  deriving DecidableEq, Repr

/-- The working registers only COMPRESS has (10_state.md R23). -/
structure EncRegs where
  /-- POS -/
  pos : Cursor
  /-- OPOS -/
  opos : Cursor
  /-- CMAP -/
  cmap : Word
  /-- CBYTE -/
  cbyte : Byte
  /-- HIDX -/
  hidx : BitVec 10
  /-- CAND -/
  cand : Int
  /-- MLEN -/
  mlen : BitVec 7
  deriving DecidableEq, Repr

/-- The working registers only DECOMPRESS has (10_state.md R24). -/
structure DecRegs where
  /-- IP -/
  ip : Cursor
  /-- OP, the output cursor -/
  op : Cursor
  /-- CTL -/
  ctl : Byte
  /-- LEN -/
  len : BitVec 7
  /-- CPY -/
  cpy : Cursor
  deriving DecidableEq, Repr

/-- One engine instance (10_state.md R20). -/
structure Engine where
  /-- REG_BASE, the instance's only identifier (60_exceptions.md R265) -/
  regBase : Word
  /-- the register block (R30) -/
  regs : Regs
  /-- ENG_STATE (R21) -/
  engState : EngState
  /-- OPL (R21) -/
  opl : Operation
  /-- the latched operands (R22) -/
  lat : Operands
  /-- BITN, of both operations (R23, R24; log 13) -/
  bitn : BitVec 4
  /-- OFF, of both operations (R23, R24; log 13) -/
  off : BitVec 10
  /-- the other working registers of COMPRESS (R23) -/
  enc : EncRegs
  /-- the other working registers of DECOMPRESS (R24) -/
  dec : DecRegs
  /-- the match dictionary (R40) -/
  dict : Dict
  /-- the sticky mark `faulted` (60_exceptions.md R254) -/
  faulted : Bool
  /-- the model's record that an access of the operation reached a byte the platform does not back, so that the
  engine takes no further step (20_memory.md R70, 60_exceptions.md R250; log 8) -/
  stuck : Bool
  deriving DecidableEq, Repr

/-- What a range of addresses is (20_memory.md R67): ordinary memory, a device with read side effects, or memory
another agent changes. -/
inductive RegionKind
  | ordinary | device | shared
  deriving DecidableEq, Repr

/-- A range of the platform's address space. -/
structure Region where
  base : Nat
  size : Nat
  kind : RegionKind
  deriving DecidableEq, Repr

/-- The parameters of the platform: what is behind each address (20_memory.md R67, R70) and the width of a block's
address window (10_state.md R39). No step changes them. -/
structure Platform where
  map : List Region
  window : Nat
  deriving DecidableEq, Repr

/-- What the outside does next (log 3). A block is named by any address in its window. -/
inductive Input
  /-- a host access to the register block at an address (40_commands.md R140, R141): the width in bits, and the
  value written (none: a read) -/
  | access (addr : Nat) (width : Nat) (data : Option Word)
  /-- POLL of the block at an address (30_encoding.md R111) -/
  | poll (addr : Nat)
  /-- the host, or another agent, reads a byte of memory (40_commands.md R138) -/
  | load (addr : Nat)
  /-- the host, or another agent, writes a byte of memory (40_commands.md R138) -/
  | store (addr : Nat) (v : Byte)
  /-- the engine whose block is at an address takes its next step before the input after this one -/
  | turn (addr : Nat)
  /-- the platform's reset signal (70_reset_and_hazards.md R280) -/
  | reset
  deriving DecidableEq, Repr

/-- A value returned to the host (log 16). -/
inductive Response
  | reg (v : Word)
  | byte (v : Byte)
  deriving DecidableEq, Repr

/-- The reasons the machine stops with a fault. -/
inductive Fault
  /-- InputOverrun (60_exceptions.md R254). Answered by step when an instance carries the mark `faulted` and nothing
  else is left to move; ip and op are the cursors where the stream ended. Safe: the spec defines nothing there. -/
  | inputOverrun (ip op : Nat)
  deriving DecidableEq, Repr

/-- The reasons an action has no meaning (60_exceptions.md R255). The action sets the sticky mark `refused` with its
reason; the step of a state that carries the mark answers the reason, unless it is the reset (log 1). -/
inductive Refusal
  /-- an instruction without a meaning yet; answered by exec's arms only (none is left). Safe. -/
  | notModelled (mnemonic : String)
  /-- a START while BUSY; marked by the four START instructions and a write of CTRL (40_commands.md R132). Safe. -/
  | startWhileBusy
  /-- a START with a region past 2^ADDR_W; marked by START_COMPRESS and START_DECOMPRESS (R135). Safe. -/
  | bufferWrap
  /-- a START with intersecting regions; marked by START_COMPRESS and START_DECOMPRESS (R135). Safe. -/
  | bufferOverlap
  /-- an agent's access to a running operation's region; marked by the host's memory reads and writes (R138). Safe. -/
  | bufferAccessWhileBusy
  /-- a register access of a bad width, alignment or offset; marked by step's decoding of a host access (10_state.md
  R39). Safe. -/
  | regAccess
  /-- a START with a region that is not ordinary memory; marked by START_COMPRESS and START_DECOMPRESS (20_memory.md
  R67). Safe. -/
  | nonMemoryBuffer
  /-- a host access to an address that is in no block's window; marked by step (log 15). Safe. -/
  | noRegisterBlock
  /-- a host read or write of a byte that is not ordinary memory; marked by step (log 15). Safe. -/
  | notOrdinaryMemory
  deriving DecidableEq, Repr

/-- The whole machine. -/
structure State where
  /-- the instance that acts: the one a host access addresses, or the one that takes its step -/
  eng : Engine
  /-- the other instances (60_exceptions.md R265) -/
  others : List Engine
  /-- host memory (10_state.md R45) -/
  mem : Memory
  /-- the platform's parameters -/
  platform : Platform
  /-- what the outside does next, first to last (log 3) -/
  inputs : List Input
  /-- the values returned to the host, newest first (log 16) -/
  responses : List Response
  /-- how many free values have been drawn (log 10) -/
  draws : Nat
  /-- the sticky mark `refused`, with its reason (60_exceptions.md R255) -/
  refused : Option Refusal
  deriving DecidableEq, Repr

/-- The register block after reset: every register 0x00000000 (10_state.md R50). -/
def Regs.reset : Regs :=
  { ctrlOp := 0, done := false, code := 0, srcAddr := 0, srcLen := 0, dstAddr := 0, dstSize := 0,
    result := 0, inConsumed := 0 }

/-- The latched operands after reset. DESIGN CHOICE (log 5), unsafe: unspecified (70_reset_and_hazards.md R281). -/
def Operands.reset : Operands := { srcBase := 0, srcLen := 0, dstBase := 0, dstSize := 0 }

/-- COMPRESS's working registers after reset. DESIGN CHOICE (log 5), unsafe: unspecified (R281). -/
def EncRegs.reset : EncRegs :=
  { pos := 0, opos := 0, cmap := 0, cbyte := 0, hidx := 0, cand := 0, mlen := 0 }

/-- DECOMPRESS's working registers after reset. DESIGN CHOICE (log 5), unsafe: unspecified (R281). -/
def DecRegs.reset : DecRegs := { ip := 0, op := 0, ctl := 0, len := 0, cpy := 0 }

/-- The instance with its block at `base` after reset (10_state.md R50): IDLE, registers 0, mark clear; the rest is
log 5's choice. -/
def Engine.reset (base : Word) : Engine :=
  { regBase := base, regs := Regs.reset, engState := .idle, opl := .compress, lat := Operands.reset,
    bitn := 0, off := 0, enc := EncRegs.reset, dec := DecRegs.reset, dict := [], faulted := false,
    stuck := false }

/-- The platform of the state after reset. DESIGN CHOICE (log 7), unsafe: ordinary memory at every address below
2^ADDR_W. -/
def Platform.reset : Platform :=
  { map := [{ base := 0, size := 2 ^ Config.addrW, kind := .ordinary }], window := Config.window }

/-- The machine right after reset (10_state.md R50, 70_reset_and_hazards.md R280). -/
def State.reset : State :=
  { eng := Engine.reset Config.regBase0
    others := Config.regBases.map Engine.reset
    mem := []
    platform := Platform.reset
    inputs := []
    responses := []
    draws := 0
    refused := none }

end Sys2Proof.Machine
end

