-- ==== Sys2Proof/Machine/Flags.lean ====
section
/-! DEFINITION. The flag-like state of the engine (10_state.md R27): STATUS and CTRL as the host reads them, the
status codes, and the control bits with their cursor BITN. -/

namespace Sys2Proof.Machine

/-- STATUS.CODE = OK (10_state.md R32). -/
def codeOk : BitVec 4 := 0
/-- STATUS.CODE = CORRUPT_STREAM (10_state.md R32, 60_exceptions.md R251). -/
def codeCorruptStream : BitVec 4 := 1
/-- STATUS.CODE = BAD_OP (10_state.md R32, 60_exceptions.md R253). -/
def codeBadOp : BitVec 4 := 2

/-- STATUS.BUSY: 1 while ENG_STATE = BUSY (10_state.md R32). -/
def Engine.busy (e : Engine) : Bool := decide (e.engState = .busy)

/-- The engine may take a step: it runs an operation, has not faulted (60_exceptions.md R254) and is not stuck
(20_memory.md R70). -/
def Engine.canMove (e : Engine) : Bool := e.busy && !e.faulted && !e.stuck

/-- STATUS as the host reads it: CODE << 4, DONE << 1, BUSY, other bits 0 (10_state.md R32, 40_commands.md R141). -/
def Engine.statusWord (e : Engine) : Word :=
  BitVec.ofNat 32 (16 * e.regs.code.toNat + 2 * e.regs.done.toNat + e.busy.toNat)

/-- CTRL as the host reads it: OP << 1; START and bits [31:3] read 0 (10_state.md R31, 40_commands.md R141). -/
def Engine.ctrlReadWord (e : Engine) : Word := ctrlWord false e.regs.ctrlOp 0

/-- The flags at acceptance: BUSY 1, DONE 0, CODE 0 (40_commands.md R133). -/
def Engine.acceptFlags (e : Engine) : Engine :=
  { e with engState := .busy, regs := { e.regs with done := false, code := 0 } }

/-- Control bit `i` of a control byte, bit 0 the least significant (30_encoding.md R92). -/
def controlBit (k : Byte) (i : BitVec 4) : Bool := k.getLsbD i.toNat

/-- The control byte with bit `i` set (42_encoder.md R187). -/
def setControlBit (k : Byte) (i : BitVec 4) : Byte := k ||| (1#8 <<< i.toNat)

/-- No group is open, or no control byte is left: BITN = 8 (10_state.md R23, R24). -/
def Engine.groupFull (e : Engine) : Bool := decide (e.bitn = 8)

/-- BIT CURSOR ADVANCE (42_encoder.md R188, 43_decoder.md R220). -/
def Engine.advanceBit (e : Engine) : Engine := { e with bitn := e.bitn + 1 }

end Sys2Proof.Machine
end

