-- ==== Sys2Proof/Machine/Operands.lean ====
section
/-! DEFINITION. The operand forms: registers of the block read and written by name (40_commands.md R140, R141), the
buffers they describe, and the fields of a match token as lengths (43_decoder.md R215). -/

namespace Sys2Proof.Machine

/-- The value a read of a register returns (40_commands.md R141). -/
def Engine.readReg (e : Engine) : Reg → Word
  | .ctrl => e.ctrlReadWord
  | .status => e.statusWord
  | .srcAddr => e.regs.srcAddr
  | .srcLen => e.regs.srcLen
  | .dstAddr => e.regs.dstAddr
  | .dstSize => e.regs.dstSize
  | .result => e.regs.result
  | .inConsumed => e.regs.inConsumed

/-- CTRL.OP <- op (40_commands.md R132, R136). -/
def Engine.setCtrlOp (e : Engine) (op : BitVec 2) : Engine :=
  { e with regs := { e.regs with ctrlOp := op } }

/-- SRC_ADDR <- v (40_commands.md R140). -/
def Engine.setSrcAddr (e : Engine) (v : Word) : Engine :=
  { e with regs := { e.regs with srcAddr := v } }

/-- SRC_LEN <- v (40_commands.md R140). -/
def Engine.setSrcLen (e : Engine) (v : Word) : Engine :=
  { e with regs := { e.regs with srcLen := v } }

/-- DST_ADDR <- v (40_commands.md R140). -/
def Engine.setDstAddr (e : Engine) (v : Word) : Engine :=
  { e with regs := { e.regs with dstAddr := v } }

/-- DST_SIZE <- v (40_commands.md R140). -/
def Engine.setDstSize (e : Engine) (v : Word) : Engine :=
  { e with regs := { e.regs with dstSize := v } }

/-- The registers whose value is not defined once the instance carries the mark `faulted` (60_exceptions.md R254). -/
def lostByFault : Reg → Bool
  | .status => true
  | .result => true
  | .inConsumed => true
  | .ctrl => false
  | .srcAddr => false
  | .srcLen => false
  | .dstAddr => false
  | .dstSize => false

/-- The operation CTRL.OP selects; none for a reserved value (10_state.md R31). -/
def operationOf (op : BitVec 2) : Option Operation :=
  if op = 0b01#2 then some .compress else if op = 0b10#2 then some .decompress else none

/-- LENGTH UNPACK: the length of a match token from its length field, 3 to 66 (43_decoder.md R215). -/
def matchLength (n : BitVec 6) : Nat := n.toNat + Config.matchMin

/-- The length field of a match of a length (30_encoding.md R97). -/
def lengthField (len : Nat) : BitVec 6 := BitVec.ofNat 6 (len - Config.matchMin)

/-- The address `a` is one of the `size` bytes from `base`. -/
def inSpan (base size a : Nat) : Bool := decide (base ≤ a ∧ a < base + size)

/-- Two ranges of bytes intersect; an empty range intersects nothing (40_commands.md R135). -/
def spansMeet (base size base' size' : Nat) : Bool :=
  decide (0 < size ∧ 0 < size' ∧ base < base' + size' ∧ base' < base + size)

/-- The address is a byte of the running operation's input region (10_state.md R45). -/
def Engine.inSource (e : Engine) (a : Nat) : Bool := inSpan e.lat.srcBase.toNat e.lat.srcLen.toNat a

/-- The address is a byte of the running operation's destination region (10_state.md R45). -/
def Engine.inDest (e : Engine) (a : Nat) : Bool := inSpan e.lat.dstBase.toNat e.lat.dstSize.toNat a

end Sys2Proof.Machine
end

