-- ==== Sys2Proof/Machine/Ops.lean ====
section
/-! DEFINITION. The operations the meanings share: the canonical memory, the engine's byte accesses, which instance
acts, the end of an operation (60_exceptions.md R258), and a START (40_commands.md R132 to R135). -/

namespace Sys2Proof.Machine

/-- The three outcomes of a step of this machine. -/
abbrev Outcome := Host.Outcome State Fault Refusal

/-! ## Memory and dictionary as canonical lists -/

/-- The value at an address; an unlisted address reads as `dflt`. -/
def Cells.get {w : Nat} (dflt : BitVec w) : Cells w → Nat → BitVec w
  | [], _ => dflt
  | (k, v) :: rest, a => if k = a then v else Cells.get dflt rest a

/-- The list without an address. -/
def Cells.erase {w : Nat} : Cells w → Nat → Cells w
  | [], _ => []
  | (k, v) :: rest, a => if k = a then Cells.erase rest a else (k, v) :: Cells.erase rest a

/-- The list with an entry before the first greater address. -/
def Cells.insert {w : Nat} : Cells w → Nat → BitVec w → Cells w
  | [], a, v => [(a, v)]
  | (k, x) :: rest, a, v =>
    if a < k then (a, v) :: (k, x) :: rest else (k, x) :: Cells.insert rest a v

/-- The list with `v` at an address; writing what an unlisted address reads as removes the entry. -/
def Cells.set {w : Nat} (dflt : BitVec w) (m : Cells w) (a : Nat) (v : BitVec w) : Cells w :=
  if v = dflt then Cells.erase m a else Cells.insert (Cells.erase m a) a v

/-- The canonical form: addresses strictly rising, no entry equal to what an unlisted address reads as. -/
def Cells.wf {w : Nat} (dflt : BitVec w) : Cells w → Bool
  | [] => true
  | (k, v) :: rest => decide (v ≠ dflt) && rest.all (fun c => decide (k < c.1)) && Cells.wf dflt rest

/-- MemRead(a, 1) on backed memory (00_scope.md R12). -/
def Memory.read (m : Memory) (a : Nat) : Byte := Cells.get Config.unlistedByte m a

/-- MemWrite(a, 1, v) on backed memory (00_scope.md R12). -/
def Memory.write (m : Memory) (a : Nat) (v : Byte) : Memory := Cells.set Config.unlistedByte m a v

/-- Memory is in its canonical form. -/
def Memory.wf (m : Memory) : Bool := Cells.wf Config.unlistedByte m

/-- A slot of the dictionary (10_state.md R40, R41). -/
def Dict.read (d : Dict) (i : BitVec 10) : Slot := Cells.get 0 d i.toNat

/-- Overwriting a slot (41_match_search.md R152). -/
def Dict.write (d : Dict) (i : BitVec 10) (v : Slot) : Dict := Cells.set 0 d i.toNat v

/-- The dictionary is in its canonical form and names no slot at or above 1024 (10_state.md R40). -/
def Dict.wf (d : Dict) : Bool := Cells.wf 0 d && d.all (fun c => decide (c.1 < Config.dictSlots))

/-! ## The engine's byte accesses -/

/-- The platform backs the address with ordinary memory (20_memory.md R67, R70). -/
def Platform.ordinary (p : Platform) (a : Nat) : Bool :=
  decide (a < 2 ^ Config.addrW) &&
    p.map.any (fun r => decide (r.kind = .ordinary) && inSpan r.base r.size a)

/-- MemRead(a, 1); none: the platform does not back the byte, so there is no step (20_memory.md R70). -/
def State.memRead (s : State) (a : Nat) : Option Byte :=
  if s.platform.ordinary a then some (Memory.read s.mem a) else none

/-- MemWrite(a, 1, v); none: the platform does not back the byte, so there is no step (20_memory.md R70). -/
def State.memWrite (s : State) (a : Nat) (v : Byte) : Option State :=
  if s.platform.ordinary a then some { s with mem := Memory.write s.mem a v } else none

/-- SRC[i] of the running operation (00_scope.md R12). -/
def State.srcByte (s : State) (i : Nat) : Option Byte := s.memRead (s.eng.lat.srcBase.toNat + i)

/-- The address of DST[i] of the running operation (00_scope.md R12). -/
def Engine.dstAddress (e : Engine) (i : Nat) : Nat := e.lat.dstBase.toNat + i

/-- The acting instance replaced. -/
def State.setEng (s : State) (e : Engine) : State := { s with eng := e }

/-- The engine is stuck: it takes no further step and nothing else changes (20_memory.md R70, 60_exceptions.md R250;
log 8). -/
def State.stick (s : State) : State := s.setEng { s.eng with stuck := true }

/-- The engine's action, or the engine stuck where one of its accesses has no step (20_memory.md R70). -/
def State.orStick (s : State) : Option State → Outcome
  | some t => .next t
  | none => .next s.stick

/-! ## Which instance acts -/

/-- The first instance with a property, taken out of the list, with `e` put in its place. -/
def swapIn (p : Engine → Bool) (e : Engine) : List Engine → Option (Engine × List Engine)
  | [] => none
  | x :: xs => if p x then some (x, e :: xs) else (swapIn p e xs).map (fun r => (r.1, x :: r.2))

/-- The state with an instance that has a property in focus: the one that is, or else the first that has it. -/
def State.focusBy (s : State) (p : Engine → Bool) : Option State :=
  if p s.eng then some s
  else (swapIn p s.eng s.others).map (fun r => { s with eng := r.1, others := r.2 })

/-- The address is in the instance's register window (10_state.md R39, 60_exceptions.md R265). -/
def Engine.owns (window addr : Nat) (e : Engine) : Bool := inSpan e.regBase.toNat window addr

/-- The state with the instance whose block is at the address in focus. -/
def State.focusAt (s : State) (addr : Nat) : Option State :=
  s.focusBy (Engine.owns s.platform.window addr)

/-- The mark `refused` set for the whole state, with its reason (60_exceptions.md R255). -/
def State.refuse (s : State) (r : Refusal) : State := { s with refused := some r }

/-! ## Bytes without a defined value -/

/-- `n` bytes from `base` overwritten with free draws, from draw number `draw`, where the platform backs them
(70_reset_and_hazards.md R282, 60_exceptions.md R254). -/
def drawBytes (p : Platform) (base draw n : Nat) (m : Memory) : Memory :=
  match n with
  | 0 => m
  | n + 1 =>
    let m' := drawBytes p base draw n m
    if p.ordinary (base + n) then Memory.write m' (base + n) (Config.freeByte (draw + n)) else m'

/-- Each backed byte of the destination region of an instance's operation becomes a fresh free value (log 9). -/
def State.drawDest (s : State) (e : Engine) : State :=
  { s with
    mem := drawBytes s.platform e.lat.dstBase.toNat s.draws e.lat.dstSize.toNat s.mem
    draws := s.draws + e.lat.dstSize.toNat }

/-- InputOverrun (60_exceptions.md R254): the mark `faulted` set for the acting instance, and no value of its
destination defined from that point, so that each byte of it is a free value (log 9). -/
def State.overrun (s : State) : State := (s.drawDest s.eng).setEng { s.eng with faulted := true }

/-! ## The end of an operation -/

/-- Every outcome of an operation, error or not: RESULT, IN_CONSUMED, CODE, DONE = 1, BUSY = 0, IDLE; no other state
is saved and control is transferred nowhere (60_exceptions.md R258, R250). There is no return (R259). -/
def Engine.endOperation (e : Engine) (code : BitVec 4) (result inConsumed : Word) : Engine :=
  { e with
    engState := .idle
    regs := { e.regs with done := true, code := code, result := result, inConsumed := inConsumed } }

/-- BadOpCompletion (40_commands.md R134). -/
def Engine.badOpCompletion (e : Engine) : Engine := e.endOperation codeBadOp 0 0

/-! ## START -/

/-- CompressInit (42_encoder.md R180): all 1024 slots 0, POS 0, OPOS 0, BITN 8. -/
def Engine.compressInit (e : Engine) : Engine :=
  { e with dict := [], bitn := 8, enc := { e.enc with pos := 0, opos := 0 } }

/-- DecompressInit (43_decoder.md R210): IP 0, OP 0, BITN 8. -/
def Engine.decompressInit (e : Engine) : Engine :=
  { e with bitn := 8, dec := { e.dec with ip := 0, op := 0 } }

/-- The operands latched and the flags set (40_commands.md R133). The model's record `stuck` is of the running
operation, so it starts clear (log 8). -/
def Engine.latch (e : Engine) (o : Operation) : Engine :=
  { e.acceptFlags with
    opl := o
    lat := { srcBase := e.regs.srcAddr, srcLen := e.regs.srcLen,
             dstBase := e.regs.dstAddr, dstSize := e.regs.dstSize }
    stuck := false }

/-- Accept (40_commands.md R133). -/
def Engine.accept (e : Engine) (o : Operation) : Engine :=
  match o with
  | .compress => (e.latch .compress).compressInit
  | .decompress => (e.latch .decompress).decompressInit

/-- A running instance `r` has a region the new operation's regions may not meet: D meets neither of r's regions and
S does not meet r's destination (40_commands.md R135, 20_memory.md R75). DESIGN CHOICE (log 24), unsafe: an instance that
is IDLE again is not running, although the host may not have read its DONE = 1 yet (70_reset_and_hazards.md R285). -/
def Engine.clashes (e r : Engine) : Bool :=
  r.busy &&
    (spansMeet e.regs.dstAddr.toNat e.regs.dstSize.toNat r.lat.srcBase.toNat r.lat.srcLen.toNat ||
     spansMeet e.regs.dstAddr.toNat e.regs.dstSize.toNat r.lat.dstBase.toNat r.lat.dstSize.toNat ||
     spansMeet e.regs.srcAddr.toNat e.regs.srcLen.toNat r.lat.dstBase.toNat r.lat.dstSize.toNat)

/-- A range of the platform that is not ordinary memory meets one of the new operation's regions (20_memory.md R67). -/
def Engine.meetsNonMemory (e : Engine) (g : Region) : Bool :=
  decide (g.kind ≠ .ordinary) &&
    (spansMeet e.regs.srcAddr.toNat e.regs.srcLen.toNat g.base g.size ||
     spansMeet e.regs.dstAddr.toNat e.regs.dstSize.toNat g.base g.size)

/-- PlacementChecks, with the register values about to be latched (40_commands.md R135, 20_memory.md R67 to R69, R75):
the reason to refuse, or none. The order is that of 60_exceptions.md R257; NonMemoryBuffer comes last (log 14). -/
def State.placement (s : State) : Option Refusal :=
  let r := s.eng.regs
  if r.srcAddr.toNat + r.srcLen.toNat > 2 ^ Config.addrW ∨
      r.dstAddr.toNat + r.dstSize.toNat > 2 ^ Config.addrW then some .bufferWrap
  else if spansMeet r.srcAddr.toNat r.srcLen.toNat r.dstAddr.toNat r.dstSize.toNat then
    some .bufferOverlap
  else if s.others.any s.eng.clashes then some .bufferOverlap
  else if s.platform.map.any s.eng.meetsNonMemory then some .nonMemoryBuffer
  else none

/-- StartCommand(op) (40_commands.md R132): OP is stored; then StartWhileBusy, BAD_OP, the placement checks and the
acceptance, in that order (60_exceptions.md R257). A refusal sets the sticky mark (R255) in the state that has the OP. -/
def State.startCommand (s : State) (op : BitVec 2) : Outcome :=
  let t := s.setEng (s.eng.setCtrlOp op)
  if t.eng.busy then .next (t.refuse .startWhileBusy)
  else
    match operationOf op with
    | none => .next (t.setEng t.eng.badOpCompletion)
    | some o =>
      match t.placement with
      | some r => .next (t.refuse r)
      | none => .next (t.setEng (t.eng.accept o))

/-- The value a host read of a register returns, and the state after it: a register the mark `faulted` leaves without
a value reads as a fresh free value (60_exceptions.md R254; log 10), any other as R141 says. -/
def State.readRegister (s : State) (r : Reg) : Word × State :=
  if s.eng.faulted && lostByFault r then (Config.freeWord s.draws, { s with draws := s.draws + 1 })
  else (s.eng.readReg r, s)

/-- A value returned to the host (log 16). -/
def State.respond (s : State) (v : Response) : State := { s with responses := v :: s.responses }

end Sys2Proof.Machine
end

