-- ==== Sys2Proof/Machine/Commands.lean ====
section
/-! DEFINITION. The meanings of the host commands (40_commands.md): one definition per instruction. -/

namespace Sys2Proof.Machine

/-- START_COMPRESS (40_commands.md R130): StartCommand with OP = 0b01; bits [31:3] of the write are ignored. -/
def execStartCompress (_ign : BitVec 29) (s : State) : Outcome := s.startCommand 0b01#2

/-- START_DECOMPRESS (40_commands.md R131): StartCommand with OP = 0b10. -/
def execStartDecompress (_ign : BitVec 29) (s : State) : Outcome := s.startCommand 0b10#2

/-- START_BADOP_00 (40_commands.md R134): StartCommand with the reserved OP 0b00. -/
def execStartBadop00 (_ign : BitVec 29) (s : State) : Outcome := s.startCommand 0b00#2

/-- START_BADOP_11 (40_commands.md R134): StartCommand with the reserved OP 0b11. -/
def execStartBadop11 (_ign : BitVec 29) (s : State) : Outcome := s.startCommand 0b11#2

/-- SET_OP (40_commands.md R136): OP is stored in any ENG_STATE; nothing else changes. -/
def execSetOp (op : BitVec 2) (_ign : BitVec 29) (s : State) : Outcome :=
  .next (s.setEng (s.eng.setCtrlOp op))

/-- WRITE_REG (40_commands.md R140). A write to a read-only register is ignored, a write to CTRL is R132 or R136; a
write while BUSY reaches the register and not the running operation (R137). -/
def execWriteReg (r : Reg) (v : Word) (s : State) : Outcome :=
  match r with
  | .ctrl =>
    if v.getLsbD 0 then s.startCommand (v.extractLsb' 1 2)
    else .next (s.setEng (s.eng.setCtrlOp (v.extractLsb' 1 2)))
  | .status => .next s
  | .srcAddr => .next (s.setEng (s.eng.setSrcAddr v))
  | .srcLen => .next (s.setEng (s.eng.setSrcLen v))
  | .dstAddr => .next (s.setEng (s.eng.setDstAddr v))
  | .dstSize => .next (s.setEng (s.eng.setDstSize v))
  | .result => .next s
  | .inConsumed => .next s

/-- READ_REG (40_commands.md R141): the value is returned to the host; a read has no other effect. -/
def execReadReg (r : Reg) (s : State) : Outcome :=
  .next ((s.readRegister r).2.respond (.reg (s.readRegister r).1))

end Sys2Proof.Machine
end

