-- ==== Sys2Proof/Machine/Decoder.lean ====
section
/-! DEFINITION. The token bit-stream decoder (43_decoder.md): what DECOMPRESS does with each stream element it has
read, and how it ends. None: an access has no step (20_memory.md R70). -/

namespace Sys2Proof.Machine

/-- CONTROL FETCH of the control byte `k`: CTL <- k, IP advances by 1, BITN <- 0 (43_decoder.md R212). -/
def State.controlFetch (s : State) (k : Byte) : State :=
  let e := s.eng
  s.setEng { e with bitn := 0, dec := { e.dec with ctl := k, ip := e.dec.ip + 1 } }

/-- DECODE LITERAL of the byte `b` and the bit cursor's advance (43_decoder.md R213, R220). -/
def State.decodeLiteral (s : State) (b : Byte) : Option State :=
  let e := s.eng
  (s.memWrite (e.dstAddress e.dec.op.toNat) b).map fun t =>
    t.setEng { e.advanceBit with dec := { e.dec with ip := e.dec.ip + 1, op := e.dec.op + 1 } }

/-- MATCH TOKEN READ, LENGTH UNPACK and OFFSET UNPACK: IP advances by 2 before the token is checked (43_decoder.md R214
to R216). -/
def Engine.unpackMatch (e : Engine) (n : BitVec 6) (off : BitVec 10) : Engine :=
  { e with
    off := off
    dec := { e.dec with ip := e.dec.ip + 2, len := BitVec.ofNat 7 (matchLength n) } }

/-- BOUNDS CHECK: the token is corrupt when OFF > OP or OFF = 0 (43_decoder.md R217). -/
def Engine.badOffset (e : Engine) (off : BitVec 10) : Bool :=
  decide (off.toNat > e.dec.op.toNat) || decide (off = 0)

/-- CORRUPT STREAM: RESULT <- OP, IN_CONSUMED <- IP, CODE CORRUPT_STREAM (43_decoder.md R218). -/
def Engine.corruptStream (e : Engine) : Engine :=
  e.endOperation codeCorruptStream (e.dec.op.setWidth 32) (e.dec.ip.setWidth 32)

/-- One byte of the copy: DST[OP] <- DST[CPY], read before written, then OP and CPY advance (43_decoder.md R219). -/
def State.copyByte (s : State) : Option State :=
  let e := s.eng
  (s.memRead (e.dstAddress e.dec.cpy.toNat)).bind fun b =>
  (s.memWrite (e.dstAddress e.dec.op.toNat) b).map fun t =>
    t.setEng { e with dec := { e.dec with op := e.dec.op + 1, cpy := e.dec.cpy + 1 } }

/-- OVERLAP COPY of at most `n` bytes, one byte at a time in forward order, cut off at dst_size (43_decoder.md R219). -/
def State.overlapCopy : Nat → State → Option State
  | 0, s => some s
  | n + 1, s =>
    if s.eng.dec.op.toNat ≥ s.eng.lat.dstSize.toNat then some s
    else s.copyByte.bind (State.overlapCopy n)

/-- CPY <- OP - OFF (43_decoder.md R219). -/
def Engine.setCopy (e : Engine) (off : BitVec 10) : Engine :=
  { e with dec := { e.dec with cpy := e.dec.op - off.setWidth 33 } }

/-- DecodeMatch (43_decoder.md R214 to R220): unpack, check, and either the corrupt-stream outcome, before any byte of
the match is written, or the copy and the bit cursor's advance. -/
def State.decodeMatch (s : State) (n : BitVec 6) (off : BitVec 10) : Option State :=
  let e := s.eng.unpackMatch n off
  if e.badOffset off then some (s.setEng e.corruptStream)
  else
    (State.overlapCopy (matchLength n) (s.setEng (e.setCopy off))).map fun t =>
      t.setEng t.eng.advanceBit

/-- COMPLETE of DECOMPRESS: RESULT <- OP, IN_CONSUMED <- IP, CODE OK (43_decoder.md R222). -/
def Engine.completeDecompress (e : Engine) : Engine :=
  e.endOperation codeOk (e.dec.op.setWidth 32) (e.dec.ip.setWidth 32)

end Sys2Proof.Machine
end

