-- ==== Sys2Proof/Machine/MatchSearch.lean ====
section
/-! DEFINITION. The match-search engine (41_match_search.md): hash, dictionary lookup and update, candidate check,
match extension, and the match attempt made of them. `rd i` is SRC[i], none where the platform does not back it. -/

namespace Sys2Proof.Machine

/-- h0: the three bytes as a big-endian 24-bit number (41_match_search.md R150, 20_memory.md R64). -/
def hashWord (b0 b1 b2 : Byte) : Nat := (b0.toNat <<< 16) ||| (b1.toNat <<< 8) ||| b2.toNat

/-- h2: the two additive mixing steps (41_match_search.md R150). -/
def hashMix (h0 : Nat) : Nat :=
  let h1 := h0 + (h0 >>> Config.hashShift1)
  h1 + (h1 >>> Config.hashShift2)

/-- HASH: HIDX = h2[9:0] (41_match_search.md R150). -/
def hashIndex (b0 b1 b2 : Byte) : BitVec 10 := BitVec.ofNat 10 (hashMix (hashWord b0 b1 b2))

/-- The value stored in a slot: (SLOT_BASE + POS) mod 2^16 (10_state.md R41, 41_match_search.md R152). -/
def slotTag (slotBase pos : Nat) : Slot := BitVec.ofNat 16 (slotBase + pos)

/-- OFF = (tag - old) mod 2^OFFSET_BITS (41_match_search.md R152). -/
def candidateOffset (tag old : Slot) : BitVec 10 := (tag - old).setWidth 10

/-- CAND = POS - OFF, an integer (41_match_search.md R152). -/
def candidatePos (pos : Nat) (off : BitVec 10) : Int := (pos : Int) - (off.toNat : Int)

/-- The `n` bytes from SRC[x] equal the `n` bytes from SRC[y]; a byte is read only if the ones before it were equal
(41_match_search.md R153). -/
def sameBytes (rd : Nat → Option Byte) : Nat → Nat → Nat → Option Bool
  | 0, _, _ => some true
  | n + 1, x, y =>
    (rd x).bind fun a => (rd y).bind fun b =>
      if a = b then sameBytes rd n (x + 1) (y + 1) else some false

/-- CANDIDATE CHECK (41_match_search.md R153): CAND >= 0, OFF != 0, the first three bytes equal, left to right. -/
def candidateCheck (rd : Nat → Option Byte) (pos : Nat) (off : BitVec 10) (cand : Int) :
    Option Bool :=
  if cand < 0 then some false
  else if off = 0 then some false
  else sameBytes rd Config.matchMin cand.toNat pos

/-- MATCH EXTENSION with `room` bytes left to MATCH_MAX and `len` bytes matched (41_match_search.md R154). -/
def matchExtension (rd : Nat → Option Byte) (pos cand : Nat) : Nat → Nat → Option Nat
  | 0, len => some len
  | room + 1, len =>
    (rd (pos + len)).bind fun a => (rd (cand + len)).bind fun b =>
      if a = b then matchExtension rd pos cand room (len + 1) else some len

/-- MLEN of an accepted candidate, from MATCH_MIN up to MATCH_MAX (41_match_search.md R154). -/
def matchedLength (rd : Nat → Option Byte) (pos cand : Nat) : Option Nat :=
  matchExtension rd pos cand (Config.matchMax - Config.matchMin) Config.matchMin

/-- The working registers and the slot after OFFSET AND UPDATE (41_match_search.md R150 to R152): the slot is
overwritten whatever the candidate check decides. -/
def Engine.afterUpdate (e : Engine) (slotBase : Nat) (hidx : BitVec 10) : Engine :=
  let tag := slotTag slotBase e.enc.pos.toNat
  let off := candidateOffset tag (Dict.read e.dict hidx)
  { e with
    off := off
    dict := Dict.write e.dict hidx tag
    enc := { e.enc with hidx := hidx, cand := candidatePos e.enc.pos.toNat off } }

/-- MLEN <- len (41_match_search.md R154). -/
def Engine.setMlen (e : Engine) (len : Nat) : Engine :=
  { e with enc := { e.enc with mlen := BitVec.ofNat 7 len } }

/-- MATCH ATTEMPT (41_match_search.md R155) at SLOT_BASE: the token to emit and the engine after the attempt. A literal
is the byte SRC[POS], the first byte the hash read (42_encoder.md R186; log 21). None: an access has no step. -/
def State.matchAttempt (s : State) (slotBase : Nat) : Option (Instr × Engine) :=
  let pos := s.eng.enc.pos.toNat
  (s.srcByte pos).bind fun b0 => (s.srcByte (pos + 1)).bind fun b1 =>
  (s.srcByte (pos + 2)).bind fun b2 =>
    let e := s.eng.afterUpdate slotBase (hashIndex b0 b1 b2)
    (candidateCheck s.srcByte pos e.off e.enc.cand).bind fun accepted =>
      if accepted then
        (matchedLength s.srcByte pos e.enc.cand.toNat).map fun len =>
          (.matchTok (lengthField len) e.off, e.setMlen len)
      else some (.lit b0, e)

end Sys2Proof.Machine
end

