-- ==== Sys2Proof/Machine/Encoder.lean ====
section
/-! DEFINITION. The token bit-stream encoder (42_encoder.md): what COMPRESS does with each stream element it emits, and
how it ends. None: an access has no step (20_memory.md R70). -/

namespace Sys2Proof.Machine

/-- CAPACITY CHECK: OPOS + CAP_MARGIN >= dst_size over unbounded integers (42_encoder.md R183). -/
def Engine.capacityExceeded (e : Engine) : Bool :=
  decide (e.enc.opos.toNat + Config.capMargin ≥ e.lat.dstSize.toNat)

/-- TAIL GUARD: POS + MATCH_MAX > src_len (42_encoder.md R184). -/
def Engine.tailGuard (e : Engine) : Bool :=
  decide (e.enc.pos.toNat + Config.matchMax > e.lat.srcLen.toNat)

/-- The token to emit at POS and the engine that emits it: near the end of the source the literal SRC[POS], with no hash
and no dictionary access (42_encoder.md R184, 70_reset_and_hazards.md R289), and otherwise what the match attempt gives
(R181). -/
def State.nextToken (s : State) : Option (Instr × Engine) :=
  if s.eng.tailGuard then (s.srcByte s.eng.enc.pos.toNat).map fun b => (.lit b, s.eng)
  else s.matchAttempt Config.slotBase

/-- GROUP OPEN with the control byte `k`, which the engine always reserves as 0x00 (42_encoder.md R182). -/
def State.groupOpen (s : State) (k : Byte) : Option State :=
  let e := s.eng
  (s.memWrite (e.dstAddress e.enc.opos.toNat) k).map fun t =>
    t.setEng
      { e with
        bitn := 0
        enc := { e.enc with cmap := e.enc.opos.setWidth 32, cbyte := k, opos := e.enc.opos + 1 } }

/-- EMIT LITERAL and the bit cursor's advance (42_encoder.md R186, R188). -/
def State.emitLiteral (s : State) (b : Byte) : Option State :=
  let e := s.eng
  (s.memWrite (e.dstAddress e.enc.opos.toNat) b).map fun t =>
    t.setEng
      { e.advanceBit with enc := { e.enc with opos := e.enc.opos + 1, pos := e.enc.pos + 1 } }

/-- EMIT MATCH and the bit cursor's advance (42_encoder.md R187, R188): the control byte is rewritten in place, then
byte0 and byte1 are written. -/
def State.emitMatch (s : State) (n : BitVec 6) (off : BitVec 10) : Option State :=
  let e := s.eng
  let k := setControlBit e.enc.cbyte e.bitn
  (s.memWrite (e.dstAddress e.enc.cmap.toNat) k).bind fun t1 =>
  (t1.memWrite (e.dstAddress e.enc.opos.toNat) (matchByte0 n off)).bind fun t2 =>
  (t2.memWrite (e.dstAddress (e.enc.opos.toNat + 1)) (matchByte1 off)).map fun t3 =>
    t3.setEng
      { e.advanceBit with
        enc := { e.enc with
                 cbyte := k
                 opos := e.enc.opos + 2
                 pos := e.enc.pos + BitVec.ofNat 33 (matchLength n) } }

/-- SENTINEL ABORT: RESULT <- src_len, IN_CONSUMED <- POS, CODE OK (42_encoder.md R183). -/
def Engine.sentinelAbort (e : Engine) : Engine :=
  e.endOperation codeOk e.lat.srcLen (e.enc.pos.setWidth 32)

/-- COMPLETE of COMPRESS: RESULT <- OPOS, IN_CONSUMED <- POS, CODE OK (42_encoder.md R189). -/
def Engine.completeCompress (e : Engine) : Engine :=
  e.endOperation codeOk (e.enc.opos.setWidth 32) (e.enc.pos.setWidth 32)

end Sys2Proof.Machine
end

