-- ==== Sys2Proof/Machine/Stream.lean ====
section
/-! DEFINITION. The meanings of the stream elements: one definition per instruction. In COMPRESS the element is emitted
(42_encoder.md), in DECOMPRESS it is decoded (43_decoder.md). An engine that runs no operation, has faulted or is stuck
takes no step, so the element does nothing (60_exceptions.md R267, R254, 20_memory.md R70; log 12). -/

namespace Sys2Proof.Machine

/-- CTL (30_encoding.md R92): GROUP OPEN (42_encoder.md R182) or CONTROL FETCH (43_decoder.md R212). -/
def execCtl (k : Byte) (s : State) : Outcome :=
  if s.eng.canMove then
    match s.eng.opl with
    | .compress => s.orStick (s.groupOpen k)
    | .decompress => .next (s.controlFetch k)
  else .next s

/-- LIT (30_encoding.md R94): EMIT LITERAL (42_encoder.md R186) or DECODE LITERAL (43_decoder.md R213). -/
def execLit (b : Byte) (s : State) : Outcome :=
  if s.eng.canMove then
    match s.eng.opl with
    | .compress => s.orStick (s.emitLiteral b)
    | .decompress => s.orStick (s.decodeLiteral b)
  else .next s

/-- MATCH (30_encoding.md R95): EMIT MATCH (42_encoder.md R187) or DecodeMatch (43_decoder.md R214 to R219). -/
def execMatch (n : BitVec 6) (off : BitVec 10) (s : State) : Outcome :=
  if s.eng.canMove then
    match s.eng.opl with
    | .compress => s.orStick (s.emitMatch n off)
    | .decompress => s.orStick (s.decodeMatch n off)
  else .next s

end Sys2Proof.Machine
end

