-- ==== Sys2Proof/Machine/Dispatch.lean ====
section
/-! DEFINITION. exec: one arm per row of spec/opcode_table.json. -/

namespace Sys2Proof.Machine

def exec (i : Instr) (s : State) : Host.Outcome State Fault Refusal :=
  match i with
  | .startCompress ign => Sys2Proof.Machine.execStartCompress ign s
  | .startDecompress ign => Sys2Proof.Machine.execStartDecompress ign s
  | .startBadop00 ign => Sys2Proof.Machine.execStartBadop00 ign s
  | .startBadop11 ign => Sys2Proof.Machine.execStartBadop11 ign s
  | .setOp op ign => Sys2Proof.Machine.execSetOp op ign s
  | .writeReg r v => Sys2Proof.Machine.execWriteReg r v s
  | .readReg r => Sys2Proof.Machine.execReadReg r s
  | .ctl k => Sys2Proof.Machine.execCtl k s
  | .lit b => Sys2Proof.Machine.execLit b s
  | .matchTok n off => Sys2Proof.Machine.execMatch n off s

end Sys2Proof.Machine
end

