-- ==== Sys2Proof/Machine/Fetch.lean ====
section
/-! DEFINITION. How DECOMPRESS fetches its next stream element (43_decoder.md R212 to R214), and the state in which a
given element is the one fetched next. -/

namespace Sys2Proof.Machine

/-- What a fetch gives: the stream ends too early (60_exceptions.md R254), an access has no step (20_memory.md R70), or
the next element. -/
inductive Fetched
  | overrun
  | stuck
  | element (i : Instr)
  deriving DecidableEq, Repr

/-- Where the decoder stands in the stream (43_decoder.md R211): before a control byte, or before the token control bit
BITN describes. -/
def Engine.position (e : Engine) : Position :=
  if e.groupFull then .control else .token (controlBit e.dec.ctl e.bitn)

/-- The `n` bytes from SRC[i]. -/
def readBytes (rd : Nat → Option Byte) : Nat → Nat → Option (List Byte)
  | 0, _ => some []
  | n + 1, i => (rd i).bind fun b => (readBytes rd n (i + 1)).map fun bs => b :: bs

/-- The next element of the stream: the bytes it needs are checked against src_len first (60_exceptions.md R257). -/
def State.fetch (s : State) : Fetched :=
  let p := s.eng.position
  let ip := s.eng.dec.ip.toNat
  if ip + p.length > s.eng.lat.srcLen.toNat then .overrun
  else
    match readBytes s.srcByte p.length ip with
    | none => .stuck
    | some bs =>
      match decodeElement p bs with
      | .ok (i, _) => .element i
      | .error _ => .overrun

/-- Bytes stored from an address up. -/
def storeBytes (m : Memory) : Nat → List Byte → Memory
  | _, [] => m
  | a, b :: bs => storeBytes (Memory.write m a b) (a + 1) bs

/-- The engine running a DECOMPRESS whose next element is at a position of a stream of `n` bytes at address 0, with
1023 bytes of output already produced, so that every legal offset is in reach (log 11). -/
def Engine.atElement (e : Engine) (p : Position) (n : Nat) : Engine :=
  { e.acceptFlags with
    opl := .decompress
    lat := { srcBase := 0, srcLen := BitVec.ofNat 32 n, dstBase := 0x1000, dstSize := 0x1000 }
    bitn := match p with | .control => 8 | .token _ => 0
    dec := { e.dec with
             ip := 0
             op := 1023
             ctl := match p with | .token true => 1 | _ => 0 }
    faulted := false
    stuck := false }

/-- The state in which the acting engine's next step fetches and runs the given element of the stream (log 11). -/
def State.withElement (s : State) (p : Position) (bs : List Byte) : State :=
  { s with
    eng := s.eng.atElement p bs.length
    mem := storeBytes s.mem 0 bs
    platform := Platform.reset
    inputs := .turn s.eng.regBase.toNat :: s.inputs
    refused := none }

/-- The state in which the host's next action is the given access to the acting engine's block (log 11). -/
def State.withAccess (s : State) (a : BusAccess) : State :=
  { s with
    platform := { s.platform with window := Config.window }
    inputs := .access (s.eng.regBase.toNat + a.offset) a.width a.data :: s.inputs
    refused := none }

end Sys2Proof.Machine
end

