-- ==== Sys2Proof/Machine/Run.lean ====
section
/-! DEFINITION. What each agent does in one step: the engine (42_encoder.md R181, 43_decoder.md R211), the host and the
platform (40_commands.md, 70_reset_and_hazards.md R280 to R282). -/

namespace Sys2Proof.Machine

/-! ## The engine -/

/-- One step of COMPRESS (42_encoder.md R181): COMPLETE, the capacity check before a group, GROUP OPEN, or one token. -/
def State.compressStep (s : State) : Outcome :=
  let e := s.eng
  if e.enc.pos.toNat ≥ e.lat.srcLen.toNat then .next (s.setEng e.completeCompress)
  else if e.groupFull then
    if e.capacityExceeded then .next (s.setEng e.sentinelAbort) else exec (.ctl 0x00) s
  else
    match s.nextToken with
    | none => .next s.stick
    | some (i, e') => exec i (s.setEng e')

/-- One step of DECOMPRESS (43_decoder.md R211): COMPLETE, or the next element of the stream fetched and run. A stream
that ends too early sets the mark `faulted` (60_exceptions.md R254). -/
def State.decompressStep (s : State) : Outcome :=
  let e := s.eng
  if e.dec.op.toNat ≥ e.lat.dstSize.toNat then .next (s.setEng e.completeDecompress)
  else
    match s.fetch with
    | .overrun => .next s.overrun
    | .stuck => .next s.stick
    | .element i => exec i s

/-- The acting engine's next step; an engine that runs nothing, has faulted or is stuck takes none (60_exceptions.md
R267, R254, 20_memory.md R70). -/
def State.engineStep (s : State) : Outcome :=
  if s.eng.canMove then
    match s.eng.opl with
    | .compress => s.compressStep
    | .decompress => s.decompressStep
  else .next s

/-- Nothing is left for the outside to do: an engine that can move moves, the one in focus first (log 3). If none can,
a faulted instance stops the machine (60_exceptions.md R254), and otherwise everything rests (R267). -/
def State.enginesStep (s : State) : Outcome :=
  match s.focusBy Engine.canMove with
  | some t => t.engineStep
  | none =>
    match s.focusBy Engine.faulted with
    | some t => .fault (.inputOverrun t.eng.dec.ip.toNat t.eng.dec.op.toNat)
    | none => .next s

/-- The engine whose block is at an address takes its next step; an address in no block names none. -/
def State.turnStep (s : State) (addr : Nat) : Outcome :=
  match s.focusAt addr with
  | some t => t.engineStep
  | none => .next s

/-! ## The host -/

/-- A host access: the block is selected by the address, the instruction decoded from the access and run
(30_encoding.md R107, R108; 10_state.md R39). -/
def State.accessStep (s : State) (addr width : Nat) (data : Option Word) : Outcome :=
  match s.focusAt addr with
  | none => .next (s.refuse .noRegisterBlock)
  | some t =>
    match decodeAccess ⟨addr - t.eng.regBase.toNat, width, data⟩ with
    | .error _ => .next (t.refuse .regAccess)
    | .ok i => exec i t

/-- The value last returned to the host is a STATUS word with DONE = 1 (10_state.md R32). -/
def State.sawDone (s : State) : Bool :=
  match s.responses with
  | .reg v :: _ => v.getLsbD 1
  | _ => false

/-- POLL (30_encoding.md R111): RD STATUS; while DONE is 0 the polled engine takes a turn and POLL is repeated. DESIGN
CHOICE (log 17), unsafe: the spec does not say which engines move between two reads. Here only the polled one does, so
that no other BUSY instance gets a turn while the POLL goes on, for ever if the polled one never shows DONE. -/
def State.pollStep (s : State) (addr : Nat) : Outcome :=
  match s.focusAt addr with
  | none => .next (s.refuse .noRegisterBlock)
  | some t =>
    match exec (.readReg .status) t with
    | .next u =>
      if u.sawDone then .next u
      else .next { u with inputs := .turn addr :: .poll addr :: u.inputs }
    | .refused r => .next (t.refuse r)
    | .fault f => .fault f

/-- The address is a byte of a region of the running operation of an instance (40_commands.md R138). DESIGN CHOICE (log
24), unsafe: the instance owns its regions while it is BUSY and no longer. 70_reset_and_hazards.md R285 forbids the host
to touch them until it has read DONE = 1, without saying what follows, and 20_memory.md R73 gives no order there; here an
access (or an overlapping START, Engine.clashes) in between is performed, and a read returns the final bytes. -/
def Engine.holds (addr : Nat) (e : Engine) : Bool := e.busy && (e.inSource addr || e.inDest addr)

/-- Some running operation owns the byte (40_commands.md R138, 70_reset_and_hazards.md R285). -/
def State.ownedByOperation (s : State) (addr : Nat) : Bool :=
  (s.eng :: s.others).any (Engine.holds addr)

/-- The host, or another agent, reads a byte of memory (40_commands.md R138). -/
def State.loadStep (s : State) (addr : Nat) : Outcome :=
  if s.ownedByOperation addr then .next (s.refuse .bufferAccessWhileBusy)
  else
    match s.memRead addr with
    | none => .next (s.refuse .notOrdinaryMemory)
    | some b => .next (s.respond (.byte b))

/-- The host, or another agent, writes a byte of memory (40_commands.md R138). -/
def State.storeStep (s : State) (addr : Nat) (v : Byte) : Outcome :=
  if s.ownedByOperation addr then .next (s.refuse .bufferAccessWhileBusy)
  else
    match s.memWrite addr v with
    | none => .next (s.refuse .notOrdinaryMemory)
    | some t => .next t

/-! ## The platform's reset -/

/-- The running operation of an instance is abandoned by reset: each byte of its destination region is a free draw
(70_reset_and_hazards.md R282). The destination of an operation that has faulted was drawn when it faulted, and reset
changes it no more (log 9). -/
def State.abandon (s : State) (e : Engine) : State :=
  if e.busy && !e.faulted then s.drawDest e else s

/-- Reset (70_reset_and_hazards.md R280 to R282): every instance in the state of 10_state.md R50, both marks clear, the
running operations abandoned. -/
def State.platformReset (s : State) : State :=
  let t := (s.eng :: s.others).foldl State.abandon s
  { t with
    eng := Engine.reset s.eng.regBase
    others := s.others.map (fun e => Engine.reset e.regBase)
    refused := none }

/-! ## One step -/

/-- A state marked refused has no step but the reset (60_exceptions.md R255: the mark "is cleared only by reset"). -/
def State.unlessRefused (s : State) (o : Outcome) : Outcome :=
  match s.refused with
  | some r => .refused r
  | none => o

/-- The outside's next action on the state it acts on. -/
def State.inputStep (s : State) : Input → Outcome
  | .access addr width data => s.unlessRefused (s.accessStep addr width data)
  | .poll addr => s.unlessRefused (s.pollStep addr)
  | .load addr => s.unlessRefused (s.loadStep addr)
  | .store addr v => s.unlessRefused (s.storeStep addr v)
  | .turn addr => s.unlessRefused (s.turnStep addr)
  | .reset => .next s.platformReset

end Sys2Proof.Machine
end

