-- ==== Sys2Proof/Machine/Step.lean ====
section
/-! DEFINITION. One step of the whole machine, and the state in which a given instruction is the next to run. -/

namespace Sys2Proof.Machine

/-- The outside's next action, or, when there is none, an engine's (40_commands.md R144, 70_reset_and_hazards.md R291;
log 3). -/
def step (s : State) : Host.Outcome State Fault Refusal :=
  match s.inputs with
  | [] => s.unlessRefused s.enginesStep
  | i :: rest => State.inputStep { s with inputs := rest } i

/-- The state in which the very next step runs the instruction of a word of the opcode table (log 11). -/
def State.withFetchWord (s : State) (nbits w : Nat) : State :=
  match codeOfTableWord nbits w with
  | .access a => s.withAccess a
  | .element p bs => s.withElement p bs

end Sys2Proof.Machine
end

