-- ==== Sys2Proof/Safety.lean ====
section
/-! DEFINITION. What counts as a safe run, in the terms the statements use: when a run is final (40_commands.md R144),
when a START may be accepted (40_commands.md R135), and the invariant every step keeps. -/

namespace Sys2Proof.Machine

/-- All instances of the machine (60_exceptions.md R265). -/
def State.engines (s : State) : List Engine := s.eng :: s.others

/-- An operation has ended: IDLE with DONE = 1 (40_commands.md R144). -/
def Engine.ended (e : Engine) : Prop := e.engState = .idle ∧ e.regs.done = true

/-- A run is final: every engine is IDLE, the host has no next command, and neither mark is set (40_commands.md
R144). -/
def State.final (s : State) : Prop :=
  (∀ e ∈ s.engines, e.engState = .idle ∧ e.faulted = false) ∧ s.inputs = [] ∧ s.refused = none

/-- The address lies in S = [SRC_ADDR, SRC_ADDR + SRC_LEN) (40_commands.md R135). -/
def Engine.regSource (e : Engine) (a : Nat) : Prop :=
  e.regs.srcAddr.toNat ≤ a ∧ a < e.regs.srcAddr.toNat + e.regs.srcLen.toNat

/-- The address lies in D = [DST_ADDR, DST_ADDR + DST_SIZE) (40_commands.md R135). -/
def Engine.regDest (e : Engine) (a : Nat) : Prop :=
  e.regs.dstAddr.toNat ≤ a ∧ a < e.regs.dstAddr.toNat + e.regs.dstSize.toNat

/-- A region passes the top of the address space (20_memory.md R68). -/
def Engine.wraps (e : Engine) : Prop :=
  e.regs.srcAddr.toNat + e.regs.srcLen.toNat > 2 ^ 32 ∨
    e.regs.dstAddr.toNat + e.regs.dstSize.toNat > 2 ^ 32

/-- S and D share a byte (20_memory.md R69). -/
def Engine.selfOverlaps (e : Engine) : Prop := ∃ a, e.regSource a ∧ e.regDest a

/-- D shares a byte with a region of another running instance, or S with its destination (20_memory.md R75). -/
def State.otherOverlaps (s : State) : Prop :=
  ∃ r ∈ s.others, r.engState = .busy ∧
    ∃ a, (s.eng.regDest a ∧ (r.inSource a = true ∨ r.inDest a = true)) ∨
      (s.eng.regSource a ∧ r.inDest a = true)

/-- S or D shares a byte with a range that is not ordinary memory (20_memory.md R67). -/
def State.nonMemory (s : State) : Prop :=
  ∃ g ∈ s.platform.map, g.kind ≠ .ordinary ∧
    ∃ a, inSpan g.base g.size a = true ∧ (s.eng.regSource a ∨ s.eng.regDest a)

/-- The placement of the buffers the registers describe is one a START accepts (40_commands.md R135). -/
def State.placed (s : State) : Prop :=
  ¬ s.eng.wraps ∧ ¬ s.eng.selfOverlaps ∧ ¬ s.otherOverlaps ∧ ¬ s.nonMemory

/-- Every byte of the running operation's regions is ordinary memory of the platform (20_memory.md R67, R70). -/
def State.backed (s : State) : Prop :=
  ∀ a, s.eng.inSource a = true ∨ s.eng.inDest a = true → s.platform.ordinary a = true

/-- What holds of an instance in every state a run reaches. -/
structure Engine.Legal (e : Engine) : Prop where
  /-- CODE is 0, 1 or 2 (10_state.md R32) -/
  code_range : e.regs.code.toNat ≤ 2
  /-- CODE is 0 while BUSY and after reset (10_state.md R32) -/
  code_zero : e.regs.done = false → e.regs.code = 0
  /-- BUSY and DONE never hold together (10_state.md R32) -/
  busy_not_done : e.engState = .busy → e.regs.done = false
  /-- only a running operation faults or is stuck (60_exceptions.md R259) -/
  marks_busy : e.faulted = true ∨ e.stuck = true → e.engState = .busy
  /-- only DECOMPRESS raises InputOverrun (60_exceptions.md R254) -/
  fault_decompress : e.faulted = true → e.opl = .decompress
  /-- the dictionary is canonical and has 1024 slots (10_state.md R40) -/
  dict_wf : Dict.wf e.dict = true
  /-- BITN is 0 to 8 (10_state.md R23, R24) -/
  bitn_range : e.engState = .busy → e.bitn.toNat ≤ 8
  /-- no region wraps (20_memory.md R68) -/
  src_fits : e.engState = .busy → e.lat.srcBase.toNat + e.lat.srcLen.toNat ≤ 2 ^ 32
  /-- no region wraps (20_memory.md R68) -/
  dst_fits : e.engState = .busy → e.lat.dstBase.toNat + e.lat.dstSize.toNat ≤ 2 ^ 32
  /-- the regions are disjoint (20_memory.md R69) -/
  disjoint : e.engState = .busy →
    spansMeet e.lat.srcBase.toNat e.lat.srcLen.toNat e.lat.dstBase.toNat e.lat.dstSize.toNat = false
  /-- POS is 0 to src_len (10_state.md R23) -/
  pos_range : e.engState = .busy → e.opl = .compress → e.enc.pos.toNat ≤ e.lat.srcLen.toNat
  /-- an open group has room for two bytes per token still to come, below the last destination byte, and its control
  byte lies before OPOS (42_encoder.md R183, R190) -/
  group_room : e.engState = .busy → e.opl = .compress →
    (e.bitn = 8 ∧ e.enc.opos = 0) ∨
      (e.enc.opos.toNat + 2 * (8 - e.bitn.toNat) < e.lat.dstSize.toNat ∧
        e.enc.cmap.toNat < e.enc.opos.toNat)
  /-- IP is 0 to src_len (10_state.md R24) -/
  ip_range : e.engState = .busy → e.opl = .decompress → e.dec.ip.toNat ≤ e.lat.srcLen.toNat
  /-- OP is 0 to dst_size (10_state.md R24) -/
  op_range : e.engState = .busy → e.opl = .decompress → e.dec.op.toNat ≤ e.lat.dstSize.toNat

/-- Two running instances: the destination of each meets no region of the other (20_memory.md R75). -/
def Engine.apart (e f : Engine) : Prop :=
  e.engState = .busy → f.engState = .busy →
    spansMeet e.lat.dstBase.toNat e.lat.dstSize.toNat f.lat.dstBase.toNat f.lat.dstSize.toNat = false ∧
    spansMeet e.lat.dstBase.toNat e.lat.dstSize.toNat f.lat.srcBase.toNat f.lat.srcLen.toNat = false ∧
    spansMeet e.lat.srcBase.toNat e.lat.srcLen.toNat f.lat.dstBase.toNat f.lat.dstSize.toNat = false

/-- The invariant of the machine: memory is canonical, every instance is legal, and the running instances keep to their
own destinations. -/
structure State.Inv (s : State) : Prop where
  mem_wf : Memory.wf s.mem = true
  legal : ∀ e ∈ s.engines, e.Legal
  apart : s.engines.Pairwise Engine.apart

end Sys2Proof.Machine
end

