-- ==== Sys2Proof/Certificates/Slice0/Obligations.lean ====
section
/-! DEFINITION. The statements for the provers. Each formalises rules of spec/; OBLIGATIONS.json lists them with the
rules they cite. A frame is said by an equation between whole states: what the right side does not name is unchanged. -/

open Sys2Proof Sys2Proof.Machine

/-! ## Encodings -/

/-- 30_encoding.md R97, R107: decoding the code of a well-formed instruction gives it back, with nothing left over. -/
def Obligations.DecodeOfEncodeGivesTheInstructionBack : Prop :=
  ∀ i : Instr, i.wellFormed = true → decode (encode i) = .ok (i, [])

/-- 30_encoding.md R96, R107: encoding what was decoded gives the code back, so that no bit of it was dropped. -/
def Obligations.EncodeOfDecodedGivesTheCodeBack : Prop :=
  ∀ (c : Code) (i : Instr) (rest : List Byte), decode c = .ok (i, rest) →
    match c with
    | .access a => encode i = .access a ∧ rest = []
    | .element p bs => ∃ used, encode i = .element p used ∧ bs = used ++ rest

/-- 30_encoding.md R107, R92, R94, R95; 95_test_vectors.md V-T3, V-T5, V-T7: words written out from the encodings. -/
def Obligations.SampleWordsDecodeAsTheSpecSays : Prop :=
  decodeAccess ⟨0x00, 32, some 0x00000003⟩ = .ok (.startCompress 0) ∧
  decodeAccess ⟨0x00, 32, some 0xFFFFFFFB⟩ = .ok (.startCompress 0x1FFFFFFF) ∧
  decodeAccess ⟨0x00, 32, some 0x00000005⟩ = .ok (.startDecompress 0) ∧
  decodeAccess ⟨0x00, 32, some 0x00000001⟩ = .ok (.startBadop00 0) ∧
  decodeAccess ⟨0x00, 32, some 0x00000007⟩ = .ok (.startBadop11 0) ∧
  decodeAccess ⟨0x00, 32, some 0x00000004⟩ = .ok (.setOp 0b10 0) ∧
  decodeAccess ⟨0x0C, 32, some 0x00000046⟩ = .ok (.writeReg .srcLen 0x46) ∧
  decodeAccess ⟨0x18, 32, none⟩ = .ok (.readReg .result) ∧
  decodeElement .control [0x02, 0x61] = .ok (.ctl 0x02, [0x61]) ∧
  decodeElement (.token false) [0x61] = .ok (.lit 0x61, []) ∧
  decodeElement (.token true) [0xFC, 0x01] = .ok (.matchTok 63 1, []) ∧
  decodeElement (.token true) [0xFD, 0x00] = .ok (.matchTok 63 256, []) ∧
  decodeElement (.token true) [0x03, 0xFF] = .ok (.matchTok 0 1023, [])

/-- 30_encoding.md R107: the command a CTRL write is, by its three low bits; bits [31:3] are only carried along. -/
def Obligations.CtrlWritesAreSelectedByTheirLowBits : Prop :=
  ∀ v : Word,
    let ign := BitVec.ofNat 29 (v.toNat / 8)
    (v.toNat % 8 = 3 → decodeCtrl v = .startCompress ign) ∧
    (v.toNat % 8 = 5 → decodeCtrl v = .startDecompress ign) ∧
    (v.toNat % 8 = 1 → decodeCtrl v = .startBadop00 ign) ∧
    (v.toNat % 8 = 7 → decodeCtrl v = .startBadop11 ign) ∧
    (v.toNat % 2 = 0 → decodeCtrl v = .setOp (BitVec.ofNat 2 (v.toNat / 2)) ign)

/-- 30_encoding.md R96, R97: packing a length and an offset, and unpacking the two bytes again. -/
def Obligations.MatchTokenPacksLengthAndOffset : Prop :=
  ∀ len off : Nat, 3 ≤ len → len ≤ 66 → 1 ≤ off → off ≤ 1023 →
    let b0 := matchByte0 (lengthField len) (BitVec.ofNat 10 off)
    let b1 := matchByte1 (BitVec.ofNat 10 off)
    b0.toNat = ((len - 3) <<< 2) ||| (off >>> 8) ∧ b1.toNat = off &&& 0xFF ∧
      matchLength (matchN b0) = len ∧ (matchOff b0 b1).toNat = off

/-- 43_decoder.md R215, R216: LEN and OFF of any two bytes. -/
def Obligations.MatchBytesUnpackToLengthAndOffset : Prop :=
  ∀ b0 b1 : Byte,
    matchLength (matchN b0) = (b0.toNat >>> 2) + 3 ∧
    (matchOff b0 b1).toNat = ((b0.toNat &&& 3) <<< 8) ||| b1.toNat ∧
    3 ≤ matchLength (matchN b0) ∧ matchLength (matchN b0) ≤ 66

/-- 10_state.md R39: what is refused is any other width, a misaligned offset, or an offset of 0x20 or more; the access
then marks the state refused and does nothing else. -/
def Obligations.BadRegisterAccessesAreRefused : Prop :=
  (∀ a : BusAccess, (∃ e, decodeAccess a = .error e) ↔
    (a.width ≠ 32 ∨ a.offset % 4 ≠ 0 ∨ 0x20 ≤ a.offset)) ∧
  ∀ (s t : State) (addr width : Nat) (data : Option Word), s.focusAt addr = some t →
    (width ≠ 32 ∨ (addr - t.eng.regBase.toNat) % 4 ≠ 0 ∨ 0x20 ≤ addr - t.eng.regBase.toNat) →
    s.accessStep addr width data = .next { t with refused := some .regAccess }

/-! ## Host commands -/

/-- 40_commands.md R136. -/
def Obligations.SetOpStoresOpAndNothingElse : Prop :=
  ∀ (op : BitVec 2) (ign : BitVec 29) (s : State),
    exec (.setOp op ign) s =
      .next { s with eng := { s.eng with regs := { s.eng.regs with ctrlOp := op } } }

/-- 40_commands.md R140, R137: a WRITE_REG in any ENG_STATE. The operand registers take the value and the read-only ones
ignore it; a write of CTRL does what its CTRL row does. -/
def Obligations.WriteRegReachesOnlyItsRegister : Prop :=
  ∀ (r : Reg) (v : Word) (s : State),
    (r ≠ .ctrl → exec (.writeReg r v) s =
      .next { s with eng := { s.eng with regs := { s.eng.regs with
        srcAddr := if r = .srcAddr then v else s.eng.regs.srcAddr
        srcLen := if r = .srcLen then v else s.eng.regs.srcLen
        dstAddr := if r = .dstAddr then v else s.eng.regs.dstAddr
        dstSize := if r = .dstSize then v else s.eng.regs.dstSize } } }) ∧
    exec (.writeReg .ctrl v) s = exec (decodeCtrl v) s ∧
    ∃ t, exec (.writeReg .ctrl v) s = .next t ∧ t.eng.regs.ctrlOp = BitVec.ofNat 2 (v.toNat / 2)

/-- 40_commands.md R141: the value a read returns; the read changes nothing else. (For an instance with the mark
`faulted`, the three registers R254 leaves undefined are the next statement's.) -/
def Obligations.ReadRegReturnsTheRegister : Prop :=
  ∀ (r : Reg) (s : State),
    (s.eng.faulted = true → r ≠ .status ∧ r ≠ .result ∧ r ≠ .inConsumed) →
    ∃ v : Word, exec (.readReg r) s = .next { s with responses := .reg v :: s.responses } ∧
      match r with
      | .ctrl => v.toNat = s.eng.regs.ctrlOp.toNat * 2
      | .status => v.toNat = s.eng.regs.code.toNat * 16 + (if s.eng.regs.done then 2 else 0) +
          (if s.eng.engState = .busy then 1 else 0)
      | .srcAddr => v = s.eng.regs.srcAddr
      | .srcLen => v = s.eng.regs.srcLen
      | .dstAddr => v = s.eng.regs.dstAddr
      | .dstSize => v = s.eng.regs.dstSize
      | .result => v = s.eng.regs.result
      | .inConsumed => v = s.eng.regs.inConsumed

/-- The model's form (log 10) of 60_exceptions.md R254, which defines no value of these registers once the instance has
faulted: the read completes with a free value, the next draw. It holds for every number of draws made before. -/
def Obligations.ReadOfAFaultedInstanceDrawsAFreeValue : Prop :=
  ∀ (r : Reg) (s : State), s.eng.faulted = true →
    (r = .status ∨ r = .result ∨ r = .inConsumed) →
    exec (.readReg r) s =
      .next { s with
        draws := s.draws + 1
        responses := .reg (Config.freeWord s.draws) :: s.responses }

/-- 40_commands.md R130, R132, R133; 42_encoder.md R180: an IDLE engine whose buffers are well placed accepts a START
COMPRESS; every slot of the dictionary then reads 0. -/
def Obligations.StartCompressIsAccepted : Prop :=
  ∀ (ign : BitVec 29) (s : State), s.eng.engState = .idle → s.placed →
    exec (.startCompress ign) s =
      .next { s with eng := { s.eng with
        engState := .busy
        opl := .compress
        regs := { s.eng.regs with ctrlOp := 0b01, done := false, code := 0 }
        lat := { srcBase := s.eng.regs.srcAddr, srcLen := s.eng.regs.srcLen,
                 dstBase := s.eng.regs.dstAddr, dstSize := s.eng.regs.dstSize }
        bitn := 8
        enc := { s.eng.enc with pos := 0, opos := 0 }
        dict := []
        stuck := false } } ∧
    ∀ i, Dict.read [] i = 0

/-- 40_commands.md R131, R132, R133; 43_decoder.md R210: the same for START DECOMPRESS, which does not touch the
dictionary. -/
def Obligations.StartDecompressIsAccepted : Prop :=
  ∀ (ign : BitVec 29) (s : State), s.eng.engState = .idle → s.placed →
    exec (.startDecompress ign) s =
      .next { s with eng := { s.eng with
        engState := .busy
        opl := .decompress
        regs := { s.eng.regs with ctrlOp := 0b10, done := false, code := 0 }
        lat := { srcBase := s.eng.regs.srcAddr, srcLen := s.eng.regs.srcLen,
                 dstBase := s.eng.regs.dstAddr, dstSize := s.eng.regs.dstSize }
        bitn := 8
        dec := { s.eng.dec with ip := 0, op := 0 }
        stuck := false } }

/-- 40_commands.md R134, 60_exceptions.md R253: a START with a reserved OP on an IDLE engine completes as BAD_OP, with no
placement check and no memory access. -/
def Obligations.ReservedOpCompletesAsBadOp : Prop :=
  ∀ (ign : BitVec 29) (s : State), s.eng.engState = .idle →
    exec (.startBadop00 ign) s =
      .next { s with eng := { s.eng with regs := { s.eng.regs with
        ctrlOp := 0b00, done := true, code := 2, result := 0, inConsumed := 0 } } } ∧
    exec (.startBadop11 ign) s =
      .next { s with eng := { s.eng with regs := { s.eng.regs with
        ctrlOp := 0b11, done := true, code := 2, result := 0, inConsumed := 0 } } }

/-- 40_commands.md R132, 60_exceptions.md R255, R257: a START while BUSY, whatever its OP: OP is stored, the mark `refused`
is set, and nothing else changes. -/
def Obligations.StartWhileBusyIsRefused : Prop :=
  ∀ (ign : BitVec 29) (s : State), s.eng.engState = .busy →
    let marked : BitVec 2 → State := fun op => { s with
      eng := { s.eng with regs := { s.eng.regs with ctrlOp := op } }
      refused := some .startWhileBusy }
    exec (.startCompress ign) s = .next (marked 0b01) ∧
    exec (.startDecompress ign) s = .next (marked 0b10) ∧
    exec (.startBadop00 ign) s = .next (marked 0b00) ∧
    exec (.startBadop11 ign) s = .next (marked 0b11)

/-- 40_commands.md R132, R135, 60_exceptions.md R255, R257: why a START of either operation on an IDLE engine is refused, in
the order of the checks: OP is stored, the mark `refused` is set with the reason, and nothing else changes. That
NonMemoryBuffer is checked last is the model's choice (log 14). -/
def Obligations.BadPlacementIsRefusedInOrder : Prop :=
  ∀ (ign : BitVec 29) (op : BitVec 2) (i : Instr) (s : State), s.eng.engState = .idle →
    (i = .startCompress ign ∧ op = 0b01 ∨ i = .startDecompress ign ∧ op = 0b10) →
    let marked : Refusal → State := fun r => { s with
      eng := { s.eng with regs := { s.eng.regs with ctrlOp := op } }
      refused := some r }
    (s.eng.wraps → exec i s = .next (marked .bufferWrap)) ∧
    (¬ s.eng.wraps → s.eng.selfOverlaps ∨ s.otherOverlaps →
      exec i s = .next (marked .bufferOverlap)) ∧
    (¬ s.eng.wraps → ¬ s.eng.selfOverlaps → ¬ s.otherOverlaps → s.nonMemory →
      exec i s = .next (marked .nonMemoryBuffer))

/-- 60_exceptions.md R267: nothing wakes an IDLE engine except a START. Said of every instruction, and of every step of the
machine: its instances after a step are its instances before it, in some order (log 3), and one that has left IDLE is the
one a write of CTRL with START and a legal OP has reached. -/
def Obligations.OnlyAStartLeavesIdle : Prop :=
  (∀ (i : Instr) (s t : State), exec i s = .next t → s.eng.engState = .idle →
    t.eng.engState = .busy →
    (∃ ign, i = .startCompress ign) ∨ (∃ ign, i = .startDecompress ign) ∨
      ∃ v : Word, i = .writeReg .ctrl v ∧ (v.toNat % 8 = 3 ∨ v.toNat % 8 = 5)) ∧
  ∀ s t : State, step s = .next t →
    ∃ before : List Engine, before.Perm s.engines ∧
      List.Forall₂ (fun e f : Engine => f.regBase = e.regBase ∧
        (e.engState = .idle → f.engState = .busy →
          ∃ (v : Word) (rest : List Input), s.inputs = .access e.regBase.toNat 32 (some v) :: rest ∧
            (v.toNat % 8 = 3 ∨ v.toNat % 8 = 5))) before t.engines

/-- 10_state.md R37, R38, 70_reset_and_hazards.md R280: RESULT and IN_CONSUMED are written only when an operation ends, and
by reset. Said of every instruction, and of every step of the machine: its instances after a step are its instances before
it, in some order (log 3), and one whose RESULT or IN_CONSUMED has changed has just ended an operation or was reset. -/
def Obligations.ResultsAreWrittenOnlyAtTheEnd : Prop :=
  (∀ (i : Instr) (s t : State), exec i s = .next t →
    (t.eng.regs.result ≠ s.eng.regs.result ∨ t.eng.regs.inConsumed ≠ s.eng.regs.inConsumed) →
    t.eng.engState = .idle ∧ t.eng.regs.done = true) ∧
  ∀ s t : State, step s = .next t →
    ∃ before : List Engine, before.Perm s.engines ∧
      List.Forall₂ (fun e f : Engine => f.regBase = e.regBase ∧
        (f.regs.result ≠ e.regs.result ∨ f.regs.inConsumed ≠ e.regs.inConsumed →
          f.engState = .idle ∧
            (f.regs.done = true ∨
              (∃ rest : List Input, s.inputs = .reset :: rest) ∧ f = Engine.reset e.regBase)))
        before t.engines

/-! ## Match search -/

/-- 41_match_search.md R150, 20_memory.md R64: the hash as arithmetic on the three bytes, and the widths of its
intermediate values. -/
def Obligations.HashIsTheMixedBigEndianPrefix : Prop :=
  ∀ b0 b1 b2 : Byte,
    let h0 := b0.toNat * 65536 + b1.toNat * 256 + b2.toNat
    let h1 := h0 + h0 / 512
    let h2 := h1 + h1 / 32
    (hashIndex b0 b1 b2).toNat = h2 % 1024 ∧ h1 ≤ 0x1007FFE ∧ h2 ≤ 0x10883FD

/-- 41_match_search.md R150 to R152, R155, R156: every attempt, accepted or not, overwrites exactly the slot the hash
selects, with the tag of POS, and touches nothing but the attempt's working registers. -/
def Obligations.AttemptOverwritesExactlyOneSlot : Prop :=
  ∀ (base : Nat) (s : State) (i : Instr) (e : Engine), s.matchAttempt base = some (i, e) →
    ∃ b0 b1 b2 : Byte,
      s.srcByte s.eng.enc.pos.toNat = some b0 ∧
      s.srcByte (s.eng.enc.pos.toNat + 1) = some b1 ∧
      s.srcByte (s.eng.enc.pos.toNat + 2) = some b2 ∧
      e.enc.hidx = hashIndex b0 b1 b2 ∧
      (Dict.read e.dict e.enc.hidx).toNat = (base + s.eng.enc.pos.toNat) % 65536 ∧
      (∀ j, j ≠ e.enc.hidx → Dict.read e.dict j = Dict.read s.eng.dict j) ∧
      e.off.toNat = ((base + s.eng.enc.pos.toNat) % 65536 + 65536 -
        (Dict.read s.eng.dict e.enc.hidx).toNat) % 1024 ∧
      e.enc.cand = (s.eng.enc.pos.toNat : Int) - e.off.toNat ∧
      e = { s.eng with
        off := e.off
        dict := e.dict
        enc := { s.eng.enc with hidx := e.enc.hidx, cand := e.enc.cand, mlen := e.enc.mlen } }

/-- 41_match_search.md R153, R154, R155, R158: what a match token an attempt returns says: a length of 3 to 66 and an
offset of 1 to 1023 that is not beyond POS, over equal bytes, and no longer match with that candidate. -/
def Obligations.EmittedMatchNamesTheLongestEqualRun : Prop :=
  ∀ (base : Nat) (s : State) (n : BitVec 6) (off : BitVec 10) (e : Engine),
    s.matchAttempt base = some (.matchTok n off, e) →
    off = e.off ∧ e.enc.mlen.toNat = matchLength n ∧ 3 ≤ matchLength n ∧ matchLength n ≤ 66 ∧
      1 ≤ off.toNat ∧ off.toNat ≤ s.eng.enc.pos.toNat ∧
      (∀ k, k < matchLength n →
        s.srcByte (s.eng.enc.pos.toNat + k) = s.srcByte (s.eng.enc.pos.toNat - off.toNat + k)) ∧
      (matchLength n < 66 →
        s.srcByte (s.eng.enc.pos.toNat + matchLength n) ≠
          s.srcByte (s.eng.enc.pos.toNat - off.toNat + matchLength n))

/-- 41_match_search.md R153, R155: when an attempt returns a literal: the byte at POS, because the candidate is before
the source, is the position itself, or differs in its first three bytes. -/
def Obligations.RejectedCandidateGivesTheLiteral : Prop :=
  ∀ (base : Nat) (s : State) (b : Byte) (e : Engine),
    s.matchAttempt base = some (.lit b, e) →
    s.srcByte s.eng.enc.pos.toNat = some b ∧
      (e.enc.cand < 0 ∨ e.off = 0 ∨
        ∃ k, k < 3 ∧ s.srcByte (e.enc.cand.toNat + k) ≠ s.srcByte (s.eng.enc.pos.toNat + k))

/-- 20_memory.md R61: where the tail guard allows an attempt and the source is backed, the attempt completes: it reads
no byte at or above src_len. -/
def Obligations.AttemptReadsOnlyTheSource : Prop :=
  ∀ (base : Nat) (s : State), s.eng.enc.pos.toNat + 66 ≤ s.eng.lat.srcLen.toNat →
    (∀ i, i < s.eng.lat.srcLen.toNat → ∃ b, s.srcByte i = some b) →
    ∃ i e, s.matchAttempt base = some (i, e) ∧ ((∃ b, i = .lit b) ∨ ∃ n off, i = .matchTok n off)

/-! ## Stream elements in COMPRESS -/

/-- 42_encoder.md R182: GROUP OPEN. R182 writes 0x00; that CTL in COMPRESS opens a group with the instruction's own byte is
the model's reading (log 22), and the engine's step uses 0x00 only. -/
def Obligations.ControlByteOpensAGroup : Prop :=
  ∀ (k : Byte) (s : State), s.eng.canMove = true → s.eng.opl = .compress →
    s.platform.ordinary (s.eng.lat.dstBase.toNat + s.eng.enc.opos.toNat) = true →
    ∃ t, exec (.ctl k) s = .next t ∧
      (∀ a, Memory.read t.mem a =
        if a = s.eng.lat.dstBase.toNat + s.eng.enc.opos.toNat then k else Memory.read s.mem a) ∧
      t = { s with
        mem := t.mem
        eng := { s.eng with
          bitn := 0
          enc := { s.eng.enc with
            cmap := s.eng.enc.opos.setWidth 32, cbyte := k, opos := s.eng.enc.opos + 1 } } }

/-- 42_encoder.md R186, R188: EMIT LITERAL. -/
def Obligations.LiteralIsEmittedVerbatim : Prop :=
  ∀ (b : Byte) (s : State), s.eng.canMove = true → s.eng.opl = .compress →
    s.platform.ordinary (s.eng.lat.dstBase.toNat + s.eng.enc.opos.toNat) = true →
    ∃ t, exec (.lit b) s = .next t ∧
      (∀ a, Memory.read t.mem a =
        if a = s.eng.lat.dstBase.toNat + s.eng.enc.opos.toNat then b else Memory.read s.mem a) ∧
      t = { s with
        mem := t.mem
        eng := { s.eng with
          bitn := s.eng.bitn + 1
          enc := { s.eng.enc with opos := s.eng.enc.opos + 1, pos := s.eng.enc.pos + 1 } } }

/-- 42_encoder.md R187, R188: EMIT MATCH, with the two bytes of 30_encoding.md R97. Where two of the three stores have
one address, the later one stands, in the order of R187. -/
def Obligations.MatchIsEmittedUnderItsControlBit : Prop :=
  ∀ (n : BitVec 6) (off : BitVec 10) (s : State), s.eng.canMove = true → s.eng.opl = .compress →
    s.platform.ordinary (s.eng.lat.dstBase.toNat + s.eng.enc.cmap.toNat) = true →
    s.platform.ordinary (s.eng.lat.dstBase.toNat + s.eng.enc.opos.toNat) = true →
    s.platform.ordinary (s.eng.lat.dstBase.toNat + (s.eng.enc.opos.toNat + 1)) = true →
    ∃ t, exec (.matchTok n off) s = .next t ∧
      (∀ a, Memory.read t.mem a =
        if a = s.eng.lat.dstBase.toNat + (s.eng.enc.opos.toNat + 1) then
          BitVec.ofNat 8 (off.toNat % 256)
        else if a = s.eng.lat.dstBase.toNat + s.eng.enc.opos.toNat then
          BitVec.ofNat 8 (n.toNat * 4 + off.toNat / 256)
        else if a = s.eng.lat.dstBase.toNat + s.eng.enc.cmap.toNat then t.eng.enc.cbyte
        else Memory.read s.mem a) ∧
      (∀ j, j < 8 → t.eng.enc.cbyte.getLsbD j =
        (s.eng.enc.cbyte.getLsbD j || decide (j = s.eng.bitn.toNat))) ∧
      t = { s with
        mem := t.mem
        eng := { s.eng with
          bitn := s.eng.bitn + 1
          enc := { s.eng.enc with
            cbyte := t.eng.enc.cbyte
            opos := s.eng.enc.opos + 2
            pos := s.eng.enc.pos + BitVec.ofNat 33 (n.toNat + 3) } } }

/-- 42_encoder.md R181, R183, R252: at a group boundary with too little room, COMPRESS ends with the sentinel and writes
no byte. -/
def Obligations.SentinelAbortReturnsTheSourceLength : Prop :=
  ∀ s : State, s.eng.canMove = true → s.eng.opl = .compress →
    s.eng.enc.pos.toNat < s.eng.lat.srcLen.toNat → s.eng.bitn = 8 →
    s.eng.enc.opos.toNat + 17 ≥ s.eng.lat.dstSize.toNat →
    s.engineStep = .next { s with eng := { s.eng with
      engState := .idle
      regs := { s.eng.regs with
        done := true, code := 0, result := s.eng.lat.srcLen
        inConsumed := s.eng.enc.pos.setWidth 32 } } }

/-- 42_encoder.md R189, R190: COMPLETE of COMPRESS in a state the invariant admits: RESULT is OPOS, IN_CONSUMED is
src_len, and RESULT is below dst_size unless nothing was written. -/
def Obligations.CompressCompletesWithTheStreamLength : Prop :=
  ∀ s : State, s.Inv → s.eng.canMove = true → s.eng.opl = .compress →
    s.eng.lat.srcLen.toNat ≤ s.eng.enc.pos.toNat →
    ∃ t, s.engineStep = .next t ∧
      t = { s with eng := { s.eng with engState := .idle, regs := t.eng.regs } } ∧
      t.eng.regs = { s.eng.regs with
        done := true, code := 0, result := t.eng.regs.result, inConsumed := s.eng.lat.srcLen } ∧
      t.eng.regs.result.toNat = s.eng.enc.opos.toNat ∧
      (t.eng.regs.result = 0 ∨ t.eng.regs.result.toNat < s.eng.lat.dstSize.toNat)

/-- 42_encoder.md R181, R184; 70_reset_and_hazards.md R289: near the end of the source the step is EMIT LITERAL of the
byte at POS, with no hash and no dictionary access. -/
def Obligations.TailGuardEmitsTheLiteral : Prop :=
  ∀ (s : State) (b : Byte), s.eng.canMove = true → s.eng.opl = .compress →
    s.eng.enc.pos.toNat < s.eng.lat.srcLen.toNat → s.eng.bitn ≠ 8 →
    s.eng.lat.srcLen.toNat < s.eng.enc.pos.toNat + 66 →
    s.srcByte s.eng.enc.pos.toNat = some b →
    s.engineStep = exec (.lit b) s ∧
      ∀ t, s.engineStep = .next t → t.eng.dict = s.eng.dict ∧ t.eng.enc.hidx = s.eng.enc.hidx

/-- 42_encoder.md R181: the other steps of COMPRESS run an element of the stream: GROUP OPEN with 0x00 at a group
boundary with room, and otherwise the token the match attempt gives, at the engine after the attempt. That GROUP OPEN is
a step of its own, where R181 counts it into the token's step, is the model's choice (log 4). -/
def Obligations.CompressStepRunsTheElementItEmits : Prop :=
  ∀ s : State, s.eng.canMove = true → s.eng.opl = .compress →
    s.eng.enc.pos.toNat < s.eng.lat.srcLen.toNat →
    (s.eng.bitn = 8 → s.eng.enc.opos.toNat + 17 < s.eng.lat.dstSize.toNat →
      s.engineStep = exec (.ctl 0x00) s) ∧
    (s.eng.bitn ≠ 8 → s.eng.enc.pos.toNat + 66 ≤ s.eng.lat.srcLen.toNat →
      ∀ i e, s.matchAttempt 0 = some (i, e) → s.engineStep = exec i { s with eng := e })

/-! ## Stream elements in DECOMPRESS -/

/-- 43_decoder.md R212: CONTROL FETCH. -/
def Obligations.ControlByteIsFetched : Prop :=
  ∀ (k : Byte) (s : State), s.eng.canMove = true → s.eng.opl = .decompress →
    exec (.ctl k) s =
      .next { s with eng := { s.eng with
        bitn := 0, dec := { s.eng.dec with ctl := k, ip := s.eng.dec.ip + 1 } } }

/-- 43_decoder.md R213, R220: DECODE LITERAL. -/
def Obligations.LiteralIsDecodedVerbatim : Prop :=
  ∀ (b : Byte) (s : State), s.eng.canMove = true → s.eng.opl = .decompress →
    s.platform.ordinary (s.eng.lat.dstBase.toNat + s.eng.dec.op.toNat) = true →
    ∃ t, exec (.lit b) s = .next t ∧
      (∀ a, Memory.read t.mem a =
        if a = s.eng.lat.dstBase.toNat + s.eng.dec.op.toNat then b else Memory.read s.mem a) ∧
      t = { s with
        mem := t.mem
        eng := { s.eng with
          bitn := s.eng.bitn + 1
          dec := { s.eng.dec with ip := s.eng.dec.ip + 1, op := s.eng.dec.op + 1 } } }

/-- 43_decoder.md R214 to R218, 60_exceptions.md R251, R258: a match token with offset 0 or beyond the output cursor ends
the operation as CORRUPT_STREAM: RESULT is OP, IN_CONSUMED counts the token's two bytes, no byte is written. -/
def Obligations.BadOffsetIsCorruptStream : Prop :=
  ∀ (n : BitVec 6) (off : BitVec 10) (s : State), s.eng.canMove = true → s.eng.opl = .decompress →
    (off = 0 ∨ s.eng.dec.op.toNat < off.toNat) →
    exec (.matchTok n off) s =
      .next { s with eng := { s.eng with
        engState := .idle
        off := off
        dec := { s.eng.dec with ip := s.eng.dec.ip + 2, len := BitVec.ofNat 7 (n.toNat + 3) }
        regs := { s.eng.regs with
          done := true, code := 1
          result := s.eng.dec.op.setWidth 32
          inConsumed := (s.eng.dec.ip + 2).setWidth 32 } } }

/-- 43_decoder.md R214 to R220: a valid match token. After the copy every byte written equals the byte OFF before it, so
the copy reads what it has itself written when OFF < LEN; it stops at dst_size; no other byte changes. -/
def Obligations.OverlapCopyRepeatsTheOutput : Prop :=
  ∀ (n : BitVec 6) (off : BitVec 10) (s : State), s.eng.canMove = true → s.eng.opl = .decompress →
    1 ≤ off.toNat → off.toNat ≤ s.eng.dec.op.toNat →
    s.eng.dec.op.toNat ≤ s.eng.lat.dstSize.toNat →
    (∀ a, s.eng.inDest a = true → s.platform.ordinary a = true) →
    let m := min (n.toNat + 3) (s.eng.lat.dstSize.toNat - s.eng.dec.op.toNat)
    let first := s.eng.lat.dstBase.toNat + s.eng.dec.op.toNat
    ∃ t, exec (.matchTok n off) s = .next t ∧
      (∀ k, k < m → Memory.read t.mem (first + k) = Memory.read t.mem (first + k - off.toNat)) ∧
      (∀ a, ¬ (first ≤ a ∧ a < first + m) → Memory.read t.mem a = Memory.read s.mem a) ∧
      t = { s with
        mem := t.mem
        eng := { s.eng with
          bitn := s.eng.bitn + 1
          off := off
          dec := { s.eng.dec with
            ip := s.eng.dec.ip + 2
            op := s.eng.dec.op + BitVec.ofNat 33 m
            len := BitVec.ofNat 7 (n.toNat + 3)
            cpy := s.eng.dec.op - off.setWidth 33 + BitVec.ofNat 33 m } } }

/-- 43_decoder.md R222: COMPLETE of DECOMPRESS in a state the invariant admits. -/
def Obligations.DecompressCompletesAtDstSize : Prop :=
  ∀ s : State, s.Inv → s.eng.canMove = true → s.eng.opl = .decompress →
    s.eng.lat.dstSize.toNat ≤ s.eng.dec.op.toNat →
    ∃ t, s.engineStep = .next t ∧
      t = { s with eng := { s.eng with engState := .idle, regs := t.eng.regs } } ∧
      t.eng.regs = { s.eng.regs with
        done := true, code := 0, result := s.eng.lat.dstSize
        inConsumed := t.eng.regs.inConsumed } ∧
      t.eng.regs.inConsumed.toNat = s.eng.dec.ip.toNat

/-- 43_decoder.md R212 to R214, 60_exceptions.md R254, R257: a stream that ends before the next element sets the mark
`faulted`, before any check of the element, and defines no value of the destination from then on: in the model's form (log
9) each of its backed bytes becomes a free value. Nothing else changes, and the engine takes no further step. -/
def Obligations.ShortStreamSetsTheFaultedMark : Prop :=
  ∀ s : State, s.eng.canMove = true → s.eng.opl = .decompress →
    s.eng.dec.op.toNat < s.eng.lat.dstSize.toNat →
    s.eng.lat.srcLen.toNat < s.eng.dec.ip.toNat +
      (if s.eng.bitn ≠ 8 ∧ s.eng.dec.ctl.getLsbD s.eng.bitn.toNat = true then 2 else 1) →
    ∃ t, s.engineStep = .next t ∧
      t = { s with
        eng := { s.eng with faulted := true }
        mem := t.mem
        draws := s.draws + s.eng.lat.dstSize.toNat } ∧
      (∀ a, s.eng.inDest a = false → Memory.read t.mem a = Memory.read s.mem a) ∧
      (∀ j, j < s.eng.lat.dstSize.toNat →
        s.platform.ordinary (s.eng.lat.dstBase.toNat + j) = true →
        Memory.read t.mem (s.eng.lat.dstBase.toNat + j) = Config.freeByte (s.draws + j)) ∧
      t.engineStep = .next t

/-! ## The step -/

/-- 10_state.md R39, 30_encoding.md R107: a host access that decodes to `i` runs `i` at the instance it addresses, after
the input is taken off the list. -/
def Obligations.StepRunsTheDecodedAccess : Prop :=
  ∀ (s t : State) (addr : Nat) (data : Option Word) (rest : List Input) (i : Instr),
    s.refused = none → s.inputs = .access addr 32 data :: rest →
    { s with inputs := rest }.focusAt addr = some t →
    decodeAccess ⟨addr - t.eng.regBase.toNat, 32, data⟩ = .ok i →
    step s = exec i t

/-- 43_decoder.md R211 to R214: a running DECOMPRESS whose next bytes decode to `i` at its position runs `i` when it takes
its turn. That fetching a control byte is a step of its own, where R211 counts it into the token's step, is the model's
choice (log 4). -/
def Obligations.StepRunsTheFetchedElement : Prop :=
  ∀ (s t : State) (addr : Nat) (rest : List Input) (p : Position) (bs : List Byte) (i : Instr),
    s.refused = none → s.inputs = .turn addr :: rest →
    { s with inputs := rest }.focusAt addr = some t →
    t.eng.canMove = true → t.eng.opl = .decompress →
    t.eng.dec.op.toNat < t.eng.lat.dstSize.toNat →
    p = (if t.eng.bitn = 8 then .control
         else .token (t.eng.dec.ctl.getLsbD t.eng.bitn.toNat)) →
    bs.length = p.length → t.eng.dec.ip.toNat + bs.length ≤ t.eng.lat.srcLen.toNat →
    (∀ k (h : k < bs.length), t.srcByte (t.eng.dec.ip.toNat + k) = some bs[k]) →
    decode (.element p bs) = .ok (i, []) →
    step s = exec i t

/-- 60_exceptions.md R255: a state with the mark `refused` has no step but the platform's reset, which clears it. That any
other step answers the refusal and stops the run is the model's choice (log 1), and that the reset keeps the remaining
inputs is another (log 20). -/
def Obligations.RefusedStateOnlyResets : Prop :=
  ∀ (s : State) (r : Refusal), s.refused = some r →
    (∀ rest, s.inputs = .reset :: rest →
      ∃ t, step s = .next t ∧ t.refused = none ∧ t.inputs = rest) ∧
    ((∀ rest, s.inputs ≠ .reset :: rest) → step s = .refused r)

/-- 60_exceptions.md R254, 40_commands.md R144: where nothing is left to run and some instance has faulted, the machine
stops with the fault and the cursors where the stream of a faulted instance ended, the one in focus first. R254 sets the
mark and takes no further step of that engine; that the machine then stops with a fault is the model's choice (log 1). -/
def Obligations.FaultedInstanceStopsTheMachine : Prop :=
  ∀ s : State, s.inputs = [] → s.refused = none → (∀ e ∈ s.engines, e.canMove = false) →
    (∃ e ∈ s.engines, e.faulted = true) →
    ∃ f ∈ s.engines, f.faulted = true ∧ (s.eng.faulted = true → f = s.eng) ∧
      step s = .fault (.inputOverrun f.dec.ip.toNat f.dec.op.toNat)

/-- 60_exceptions.md R267, 40_commands.md R144: a final state rests. -/
def Obligations.FinalStateRests : Prop :=
  ∀ s : State, s.final → step s = .next s

/-- 20_memory.md R70, 60_exceptions.md R250, with the model's form of a stall (log 8): an element one of whose accesses to
the destination reaches a byte the platform does not back, be it a later one, leaves everything as it was and the engine
stuck; it then takes no step and stays BUSY, so that the host still reads STATUS as 0x00000001. -/
def Obligations.AccessWithoutMemoryStallsTheEngine : Prop :=
  ∀ (k b : Byte) (n : BitVec 6) (off : BitVec 10) (s : State), s.eng.canMove = true →
    let stalled : State := { s with eng := { s.eng with stuck := true } }
    let missing : Nat → Prop := fun j => s.platform.ordinary (s.eng.lat.dstBase.toNat + j) = false
    (s.eng.opl = .compress → missing s.eng.enc.opos.toNat →
      exec (.ctl k) s = .next stalled ∧ exec (.lit b) s = .next stalled) ∧
    (s.eng.opl = .compress →
      missing s.eng.enc.cmap.toNat ∨ missing s.eng.enc.opos.toNat ∨ missing (s.eng.enc.opos.toNat + 1) →
      exec (.matchTok n off) s = .next stalled) ∧
    (s.eng.opl = .decompress → missing s.eng.dec.op.toNat → exec (.lit b) s = .next stalled) ∧
    (s.eng.opl = .decompress → 1 ≤ off.toNat → off.toNat ≤ s.eng.dec.op.toNat →
      (∃ c, c < min (n.toNat + 3) (s.eng.lat.dstSize.toNat - s.eng.dec.op.toNat) ∧
        (missing (s.eng.dec.op.toNat + c) ∨ missing (s.eng.dec.op.toNat - off.toNat + c))) →
      exec (.matchTok n off) s = .next stalled) ∧
    stalled.engineStep = .next stalled ∧
    (s.Inv → exec (.readReg .status) stalled =
      .next { stalled with responses := .reg 0x00000001 :: s.responses })

/-- 20_memory.md R70, 41_match_search.md R150 to R155, 42_encoder.md R181, 43_decoder.md R212 to R214, with the model's form
of a stall (log 8): a step whose next source byte the platform does not back leaves everything as it was and the engine
stuck. In COMPRESS: the literal under the tail guard; a byte of the hash; and, at a candidate with 1 <= OFF <= POS, the
first byte of either run that cannot be read while the bytes before it are equal. In DECOMPRESS: a byte of the next
element. -/
def Obligations.UnreadableSourceStallsTheEngine : Prop :=
  ∀ s : State, s.eng.canMove = true →
    let stalled : State := { s with eng := { s.eng with stuck := true } }
    let pos := s.eng.enc.pos.toNat
    (s.eng.opl = .compress → pos < s.eng.lat.srcLen.toNat → s.eng.bitn ≠ 8 →
      (s.eng.lat.srcLen.toNat < pos + 66 → s.srcByte pos = none → s.engineStep = .next stalled) ∧
      (pos + 66 ≤ s.eng.lat.srcLen.toNat →
        (∀ c, c < 3 → s.srcByte (pos + c) = none → s.engineStep = .next stalled) ∧
        ∀ (b0 b1 b2 : Byte) (off c : Nat), s.srcByte pos = some b0 → s.srcByte (pos + 1) = some b1 →
          s.srcByte (pos + 2) = some b2 →
          off = (pos % 65536 + 65536 - (Dict.read s.eng.dict (hashIndex b0 b1 b2)).toNat) % 1024 →
          1 ≤ off → off ≤ pos → c < 66 →
          (∀ j, j < c → s.srcByte (pos - off + j) = s.srcByte (pos + j)) →
          s.srcByte (pos - off + c) = none ∨ s.srcByte (pos + c) = none →
          s.engineStep = .next stalled)) ∧
    (s.eng.opl = .decompress → s.eng.dec.op.toNat < s.eng.lat.dstSize.toNat →
      let len := if s.eng.bitn ≠ 8 ∧ s.eng.dec.ctl.getLsbD s.eng.bitn.toNat = true then 2 else 1
      s.eng.dec.ip.toNat + len ≤ s.eng.lat.srcLen.toNat →
      (∃ c, c < len ∧ s.srcByte (s.eng.dec.ip.toNat + c) = none) →
      s.engineStep = .next stalled) ∧
    stalled.engineStep = .next stalled

/-- 60_exceptions.md R267, R254, with the model's reading of an element that no engine emits or decodes (log 12): an engine
that runs nothing, has faulted or is stuck takes no step, and an element does nothing to it. -/
def Obligations.RestingEngineIgnoresElements : Prop :=
  ∀ (k b : Byte) (n : BitVec 6) (off : BitVec 10) (s : State),
    (s.eng.engState = .idle ∨ s.eng.faulted = true ∨ s.eng.stuck = true) →
    exec (.ctl k) s = .next s ∧ exec (.lit b) s = .next s ∧ exec (.matchTok n off) s = .next s ∧
      s.engineStep = .next s

/-- 40_commands.md R138, 70_reset_and_hazards.md R285: an agent's access to a byte of a running operation's regions marks
the state refused; memory and every engine are unchanged. -/
def Obligations.BuffersOfARunningOperationAreItsOwn : Prop :=
  ∀ (s : State) (e : Engine) (a : Nat) (v : Byte), e ∈ s.engines → e.engState = .busy →
    (e.inSource a = true ∨ e.inDest a = true) →
    s.loadStep a = .next { s with refused := some .bufferAccessWhileBusy } ∧
    s.storeStep a v = .next { s with refused := some .bufferAccessWhileBusy }

/-- 20_memory.md R67, R73: elsewhere a host write reaches exactly its byte and a host read returns what memory holds.
70_reset_and_hazards.md R285 asks the host to wait for DONE = 1; that an access after the engine is IDLE but before that
read is plain too is the model's choice (log 24). -/
def Obligations.HostMemoryAccessesArePlain : Prop :=
  ∀ (s : State) (a : Nat) (v : Byte),
    (∀ e ∈ s.engines, e.engState = .busy → e.inSource a = false ∧ e.inDest a = false) →
    s.platform.ordinary a = true →
    s.loadStep a = .next { s with responses := .byte (Memory.read s.mem a) :: s.responses } ∧
    ∃ t, s.storeStep a v = .next t ∧ t = { s with mem := t.mem } ∧
      ∀ b, Memory.read t.mem b = if b = a then v else Memory.read s.mem b

/-- 30_encoding.md R111, 40_commands.md R139: POLL reads STATUS; with DONE = 1 it is over, and otherwise the engine takes
a turn before POLL is repeated (log 17). -/
def Obligations.PollRepeatsUntilDone : Prop :=
  ∀ (s t : State) (addr : Nat), s.focusAt addr = some t → t.eng.faulted = false →
    s.pollStep addr = .next { t with
      responses := .reg t.eng.statusWord :: t.responses
      inputs := if t.eng.regs.done then t.inputs else .turn addr :: .poll addr :: t.inputs }

/-! ## The whole machine -/

/-- 10_state.md R50, 70_reset_and_hazards.md R280: after reset every instance is IDLE with its eight registers reading
0 and its mark clear, and the state is not refused. -/
def Obligations.ResetStateReadsZero : Prop :=
  State.reset.refused = none ∧
  ∀ e ∈ State.reset.engines, e.engState = .idle ∧ e.faulted = false ∧ ∀ r, e.readReg r = 0

/-- The state after reset meets the invariant. -/
def Obligations.ResetMeetsTheInvariant : Prop := State.reset.Inv

/-- 10_state.md R23, R24, R32; 20_memory.md R68, R69, R75; 42_encoder.md R190: every step from a state that meets the
invariant gives one that meets it. -/
def Obligations.StepKeepsTheInvariant : Prop :=
  ∀ s t : State, s.Inv → step s = .next t → t.Inv

/-- 20_memory.md R60, 42_encoder.md R190, 43_decoder.md R224: a step of an engine changes no byte outside its
destination region, and COMPRESS none at index dst_size - 1 or above. -/
def Obligations.EngineWritesOnlyItsDestination : Prop :=
  ∀ s t : State, s.Inv → s.eng.canMove = true → s.engineStep = .next t →
    (∀ a, s.eng.inDest a = false → Memory.read t.mem a = Memory.read s.mem a) ∧
    (s.eng.opl = .compress →
      ∀ j, s.eng.lat.dstSize.toNat ≤ j + 1 →
        Memory.read t.mem (s.eng.lat.dstBase.toNat + j) =
          Memory.read s.mem (s.eng.lat.dstBase.toNat + j))

/-- 10_state.md R22, R25, R30; 60_exceptions.md R265: a step of an engine leaves the other instances, the latched
operands, the host's registers, the mark `refused` and everything outside the engine but memory as they are. The model's
draw counter moves only when the engine's own mark `faulted` is set (log 9). -/
def Obligations.EngineStepTouchesOnlyItsOwnState : Prop :=
  ∀ s t : State, s.engineStep = .next t →
    t = { s with eng := t.eng, mem := t.mem, draws := t.draws } ∧ t.eng.lat = s.eng.lat ∧
      t.eng.opl = s.eng.opl ∧ t.eng.regBase = s.eng.regBase ∧
      t.eng.regs = { s.eng.regs with
        done := t.eng.regs.done, code := t.eng.regs.code
        result := t.eng.regs.result, inConsumed := t.eng.regs.inConsumed } ∧
      (t.eng.faulted = s.eng.faulted → t.draws = s.draws)

/-- 20_memory.md R75, 60_exceptions.md R265: under the invariant, a step of one engine changes no byte of the regions of
another running operation. -/
def Obligations.RunningOperationsDoNotInterfere : Prop :=
  ∀ (s t : State) (e : Engine), s.Inv → s.eng.canMove = true → s.engineStep = .next t →
    e ∈ s.others → e.engState = .busy →
    ∀ a, e.inSource a = true ∨ e.inDest a = true → Memory.read t.mem a = Memory.read s.mem a

/-- 70_reset_and_hazards.md R280, R281, R282: reset, in any state: every instance IDLE with registers 0, both marks
clear, and no byte changed outside the destination regions of the operations it abandons. That one reset clears every
instance and keeps the remaining inputs is the model's choice (log 20), R280 speaks of one engine; that an operation which
has faulted is not abandoned, its destination having been drawn at the fault, is another (log 9). -/
def Obligations.PlatformResetClearsEverything : Prop :=
  ∀ s : State,
    s.platformReset.refused = none ∧ s.platformReset.inputs = s.inputs ∧
    s.platformReset.engines.map Engine.regBase = s.engines.map Engine.regBase ∧
    (∀ e ∈ s.platformReset.engines,
      e.engState = .idle ∧ e.faulted = false ∧ e.stuck = false ∧ ∀ r, e.readReg r = 0) ∧
    ∀ a, (∀ e ∈ s.engines, e.engState = .busy → e.faulted = false → e.inDest a = false) →
      Memory.read s.platformReset.mem a = Memory.read s.mem a

/-- The model's form (log 9) of 70_reset_and_hazards.md R282, whose treatment is a free draw per byte: each backed byte
of an abandoned destination, of whichever instance and of however many, is a free value. `running` counts the bytes the
abandoned operations before it draw. The premise on the instances after it holds under the invariant, where the
destinations of running operations do not meet. -/
def Obligations.AbandonedDestinationIsFreelyDrawn : Prop :=
  ∀ (s : State) (l₁ l₂ : List Engine) (e : Engine) (j : Nat), s.engines = l₁ ++ e :: l₂ →
    e.engState = .busy → e.faulted = false →
    (∀ f ∈ l₂, f.engState = .busy → f.inDest (e.lat.dstBase.toNat + j) = false) →
    j < e.lat.dstSize.toNat → s.platform.ordinary (e.lat.dstBase.toNat + j) = true →
    let running := (l₁.map fun f =>
      if f.engState = .busy ∧ f.faulted = false then f.lat.dstSize.toNat else 0).sum
    Memory.read s.platformReset.mem (e.lat.dstBase.toNat + j) =
      Config.freeByte (s.draws + running + j)

/-- 40_commands.md R145: a COMPRESS left to run ends after at most two steps per source byte left and three more, unless
an access is stuck. The bound counts the model's steps, where a control byte and the end are steps of their own (log 4);
with no inputs left the engine in focus moves first (log 3). -/
def Obligations.CompressEnds : Prop :=
  ∀ s : State, s.refused = none → s.inputs = [] → s.eng.canMove = true → s.eng.opl = .compress →
    s.eng.enc.pos.toNat ≤ s.eng.lat.srcLen.toNat →
    ∃ n t, n ≤ 2 * (s.eng.lat.srcLen.toNat - s.eng.enc.pos.toNat) + 3 ∧
      core.run n s = .next t ∧ t.eng.regBase = s.eng.regBase ∧
      (t.eng.ended ∨ t.eng.stuck = true)

/-- 40_commands.md R145: a DECOMPRESS left to run ends after at most two steps per output byte left and three more,
unless the stream ends too early or an access is stuck. The bound counts the model's steps (log 4); with no inputs left
the engine in focus moves first (log 3). -/
def Obligations.DecompressEnds : Prop :=
  ∀ s : State, s.refused = none → s.inputs = [] → s.eng.canMove = true →
    s.eng.opl = .decompress → s.eng.dec.op.toNat ≤ s.eng.lat.dstSize.toNat →
    ∃ n t, n ≤ 2 * (s.eng.lat.dstSize.toNat - s.eng.dec.op.toNat) + 3 ∧
      core.run n s = .next t ∧ t.eng.regBase = s.eng.regBase ∧
      (t.eng.ended ∨ t.eng.faulted = true ∨ t.eng.stuck = true)

/-- 40_commands.md R145, 20_memory.md R70, 43_decoder.md R224: under the invariant and with both regions backed by ordinary
memory no access is stuck. So a COMPRESS left to run ends, with CODE = OK, and a DECOMPRESS left to run ends, with CODE =
OK or CORRUPT_STREAM, or finds its stream too short. With no inputs left the engine in focus moves first (log 3). -/
def Obligations.BackedOperationsAreNeverStuck : Prop :=
  ∀ s : State, s.Inv → s.refused = none → s.inputs = [] → s.eng.canMove = true → s.backed →
    (∀ t, s.engineStep = .next t → t.eng.stuck = false ∧ t.backed) ∧
    (s.eng.opl = .compress →
      ∃ n t, core.run n s = .next t ∧ t.eng.regBase = s.eng.regBase ∧ t.eng.ended ∧
        t.eng.regs.code = 0) ∧
    (s.eng.opl = .decompress →
      ∃ n t, core.run n s = .next t ∧ t.eng.regBase = s.eng.regBase ∧ t.eng.stuck = false ∧
        (t.eng.ended ∧ (t.eng.regs.code = 0 ∨ t.eng.regs.code = 1) ∨ t.eng.faulted = true))

/-- 42_encoder.md R194, 20_memory.md R78, 00_scope.md R17: determinism and place independence of one step of COMPRESS. Two
engines in the same working state, over sources with the same bytes and backed regions that may lie anywhere, stay in the
same working state and write the same bytes at the same indices. -/
def Obligations.CompressStepDependsOnlyOnTheSourceBytes : Prop :=
  ∀ s₁ s₂ t₁ : State, s₁.Inv → s₂.Inv → s₁.backed → s₂.backed →
    s₁.eng.canMove = true → s₁.eng.opl = .compress →
    s₂.eng = { s₁.eng with
      regBase := s₂.eng.regBase
      regs := s₂.eng.regs
      dec := s₂.eng.dec
      lat := { s₁.eng.lat with srcBase := s₂.eng.lat.srcBase, dstBase := s₂.eng.lat.dstBase } } →
    (∀ i, i < s₁.eng.lat.srcLen.toNat → s₁.srcByte i = s₂.srcByte i) →
    s₁.engineStep = .next t₁ →
    ∃ t₂, s₂.engineStep = .next t₂ ∧
      t₂.eng = { t₁.eng with
        regBase := t₂.eng.regBase
        regs := t₂.eng.regs
        dec := t₂.eng.dec
        lat := t₂.eng.lat } ∧
      (t₁.eng.engState = .idle →
        t₂.eng.regs.result = t₁.eng.regs.result ∧ t₂.eng.regs.inConsumed = t₁.eng.regs.inConsumed ∧
        t₂.eng.regs.code = t₁.eng.regs.code ∧ t₂.eng.regs.done = t₁.eng.regs.done) ∧
      (∀ i, i < s₁.eng.lat.srcLen.toNat → t₁.srcByte i = t₂.srcByte i) ∧
      ∀ j, Memory.read t₁.mem (s₁.eng.lat.dstBase.toNat + j) ≠
            Memory.read s₁.mem (s₁.eng.lat.dstBase.toNat + j) →
        Memory.read t₂.mem (s₂.eng.lat.dstBase.toNat + j) =
          Memory.read t₁.mem (s₁.eng.lat.dstBase.toNat + j)

/-- 42_encoder.md R193, the source's round trip. A COMPRESS that runs from its start to a completion which is no sentinel
(IN_CONSUMED is src_len) leaves RESULT bytes in its destination; a DECOMPRESS of those bytes, started with dst_size the
length of the source, in any machine and at any place, ends with CODE = OK, RESULT the length of the source and
IN_CONSUMED the length of the stream, and its destination holds the source. Nothing is assumed of the dictionary. With no
inputs left the engine in focus moves first (log 3). -/
def Obligations.DecompressUndoesCompress : Prop :=
  ∀ (s t u : State) (n : Nat), s.Inv → s.refused = none → s.inputs = [] →
    (∀ e ∈ s.others, e.canMove = false) →
    s.eng.canMove = true → s.eng.opl = .compress →
    s.eng.bitn = 8 → s.eng.enc.pos = 0 → s.eng.enc.opos = 0 →
    core.run n s = .next t → t.eng.ended → t.eng.regs.inConsumed = s.eng.lat.srcLen →
    u.Inv → u.backed → u.refused = none → u.inputs = [] →
    u.eng.canMove = true → u.eng.opl = .decompress →
    u.eng.bitn = 8 → u.eng.dec.ip = 0 → u.eng.dec.op = 0 →
    u.eng.lat.srcLen = t.eng.regs.result → u.eng.lat.dstSize = s.eng.lat.srcLen →
    (∀ j, j < t.eng.regs.result.toNat →
      u.srcByte j = some (Memory.read t.mem (s.eng.lat.dstBase.toNat + j))) →
    ∃ k v, core.run k u = .next v ∧ v.eng.regBase = u.eng.regBase ∧ v.eng.ended ∧
      v.eng.regs.code = 0 ∧ v.eng.regs.result = s.eng.lat.srcLen ∧
      v.eng.regs.inConsumed = t.eng.regs.result ∧
      ∀ i, i < s.eng.lat.srcLen.toNat →
        s.srcByte i = some (Memory.read v.mem (u.eng.lat.dstBase.toNat + i))
end

