-- ==== Sys2Proof/Laws/State.lean ====
section
/-! SUPPORT. What each update of an engine and of the state does to each field, one simp lemma per field, so that no
later proof unfolds a record update. -/

namespace Sys2Proof.Machine

/-! ## Updates of an engine -/

@[simp] theorem Engine.acceptFlags_regBase (e : Engine) : (e.acceptFlags).regBase = e.regBase := rfl
@[simp] theorem Engine.acceptFlags_regs_ctrlOp (e : Engine) :
    (e.acceptFlags).regs.ctrlOp = e.regs.ctrlOp := rfl
@[simp] theorem Engine.acceptFlags_regs_done (e : Engine) : (e.acceptFlags).regs.done = false := rfl
@[simp] theorem Engine.acceptFlags_regs_code (e : Engine) : (e.acceptFlags).regs.code = 0 := rfl
@[simp] theorem Engine.acceptFlags_regs_srcAddr (e : Engine) :
    (e.acceptFlags).regs.srcAddr = e.regs.srcAddr := rfl
@[simp] theorem Engine.acceptFlags_regs_srcLen (e : Engine) :
    (e.acceptFlags).regs.srcLen = e.regs.srcLen := rfl
@[simp] theorem Engine.acceptFlags_regs_dstAddr (e : Engine) :
    (e.acceptFlags).regs.dstAddr = e.regs.dstAddr := rfl
@[simp] theorem Engine.acceptFlags_regs_dstSize (e : Engine) :
    (e.acceptFlags).regs.dstSize = e.regs.dstSize := rfl
@[simp] theorem Engine.acceptFlags_regs_result (e : Engine) :
    (e.acceptFlags).regs.result = e.regs.result := rfl
@[simp] theorem Engine.acceptFlags_regs_inConsumed (e : Engine) :
    (e.acceptFlags).regs.inConsumed = e.regs.inConsumed := rfl
@[simp] theorem Engine.acceptFlags_engState (e : Engine) : (e.acceptFlags).engState = .busy := rfl
@[simp] theorem Engine.acceptFlags_opl (e : Engine) : (e.acceptFlags).opl = e.opl := rfl
@[simp] theorem Engine.acceptFlags_lat (e : Engine) : (e.acceptFlags).lat = e.lat := rfl
@[simp] theorem Engine.acceptFlags_bitn (e : Engine) : (e.acceptFlags).bitn = e.bitn := rfl
@[simp] theorem Engine.acceptFlags_off (e : Engine) : (e.acceptFlags).off = e.off := rfl
@[simp] theorem Engine.acceptFlags_enc (e : Engine) : (e.acceptFlags).enc = e.enc := rfl
@[simp] theorem Engine.acceptFlags_dec (e : Engine) : (e.acceptFlags).dec = e.dec := rfl
@[simp] theorem Engine.acceptFlags_dict (e : Engine) : (e.acceptFlags).dict = e.dict := rfl
@[simp] theorem Engine.acceptFlags_faulted (e : Engine) : (e.acceptFlags).faulted = e.faulted := rfl
@[simp] theorem Engine.acceptFlags_stuck (e : Engine) : (e.acceptFlags).stuck = e.stuck := rfl

@[simp] theorem Engine.advanceBit_regBase (e : Engine) : (e.advanceBit).regBase = e.regBase := rfl
@[simp] theorem Engine.advanceBit_regs (e : Engine) : (e.advanceBit).regs = e.regs := rfl
@[simp] theorem Engine.advanceBit_engState (e : Engine) : (e.advanceBit).engState = e.engState := rfl
@[simp] theorem Engine.advanceBit_opl (e : Engine) : (e.advanceBit).opl = e.opl := rfl
@[simp] theorem Engine.advanceBit_lat (e : Engine) : (e.advanceBit).lat = e.lat := rfl
@[simp] theorem Engine.advanceBit_bitn (e : Engine) : (e.advanceBit).bitn = e.bitn + 1 := rfl
@[simp] theorem Engine.advanceBit_off (e : Engine) : (e.advanceBit).off = e.off := rfl
@[simp] theorem Engine.advanceBit_enc (e : Engine) : (e.advanceBit).enc = e.enc := rfl
@[simp] theorem Engine.advanceBit_dec (e : Engine) : (e.advanceBit).dec = e.dec := rfl
@[simp] theorem Engine.advanceBit_dict (e : Engine) : (e.advanceBit).dict = e.dict := rfl
@[simp] theorem Engine.advanceBit_faulted (e : Engine) : (e.advanceBit).faulted = e.faulted := rfl
@[simp] theorem Engine.advanceBit_stuck (e : Engine) : (e.advanceBit).stuck = e.stuck := rfl

@[simp] theorem Engine.setCtrlOp_regBase (e : Engine) (v : BitVec 2) :
    (e.setCtrlOp v).regBase = e.regBase := rfl
@[simp] theorem Engine.setCtrlOp_regs_ctrlOp (e : Engine) (v : BitVec 2) :
    (e.setCtrlOp v).regs.ctrlOp = v := rfl
@[simp] theorem Engine.setCtrlOp_regs_done (e : Engine) (v : BitVec 2) :
    (e.setCtrlOp v).regs.done = e.regs.done := rfl
@[simp] theorem Engine.setCtrlOp_regs_code (e : Engine) (v : BitVec 2) :
    (e.setCtrlOp v).regs.code = e.regs.code := rfl
@[simp] theorem Engine.setCtrlOp_regs_srcAddr (e : Engine) (v : BitVec 2) :
    (e.setCtrlOp v).regs.srcAddr = e.regs.srcAddr := rfl
@[simp] theorem Engine.setCtrlOp_regs_srcLen (e : Engine) (v : BitVec 2) :
    (e.setCtrlOp v).regs.srcLen = e.regs.srcLen := rfl
@[simp] theorem Engine.setCtrlOp_regs_dstAddr (e : Engine) (v : BitVec 2) :
    (e.setCtrlOp v).regs.dstAddr = e.regs.dstAddr := rfl
@[simp] theorem Engine.setCtrlOp_regs_dstSize (e : Engine) (v : BitVec 2) :
    (e.setCtrlOp v).regs.dstSize = e.regs.dstSize := rfl
@[simp] theorem Engine.setCtrlOp_regs_result (e : Engine) (v : BitVec 2) :
    (e.setCtrlOp v).regs.result = e.regs.result := rfl
@[simp] theorem Engine.setCtrlOp_regs_inConsumed (e : Engine) (v : BitVec 2) :
    (e.setCtrlOp v).regs.inConsumed = e.regs.inConsumed := rfl
@[simp] theorem Engine.setCtrlOp_engState (e : Engine) (v : BitVec 2) :
    (e.setCtrlOp v).engState = e.engState := rfl
@[simp] theorem Engine.setCtrlOp_opl (e : Engine) (v : BitVec 2) : (e.setCtrlOp v).opl = e.opl := rfl
@[simp] theorem Engine.setCtrlOp_lat (e : Engine) (v : BitVec 2) : (e.setCtrlOp v).lat = e.lat := rfl
@[simp] theorem Engine.setCtrlOp_bitn (e : Engine) (v : BitVec 2) : (e.setCtrlOp v).bitn = e.bitn := rfl
@[simp] theorem Engine.setCtrlOp_off (e : Engine) (v : BitVec 2) : (e.setCtrlOp v).off = e.off := rfl
@[simp] theorem Engine.setCtrlOp_enc (e : Engine) (v : BitVec 2) : (e.setCtrlOp v).enc = e.enc := rfl
@[simp] theorem Engine.setCtrlOp_dec (e : Engine) (v : BitVec 2) : (e.setCtrlOp v).dec = e.dec := rfl
@[simp] theorem Engine.setCtrlOp_dict (e : Engine) (v : BitVec 2) : (e.setCtrlOp v).dict = e.dict := rfl
@[simp] theorem Engine.setCtrlOp_faulted (e : Engine) (v : BitVec 2) :
    (e.setCtrlOp v).faulted = e.faulted := rfl
@[simp] theorem Engine.setCtrlOp_stuck (e : Engine) (v : BitVec 2) : (e.setCtrlOp v).stuck = e.stuck :=
    rfl

@[simp] theorem Engine.setSrcAddr_regBase (e : Engine) (v : Word) :
    (e.setSrcAddr v).regBase = e.regBase := rfl
@[simp] theorem Engine.setSrcAddr_regs_ctrlOp (e : Engine) (v : Word) :
    (e.setSrcAddr v).regs.ctrlOp = e.regs.ctrlOp := rfl
@[simp] theorem Engine.setSrcAddr_regs_done (e : Engine) (v : Word) :
    (e.setSrcAddr v).regs.done = e.regs.done := rfl
@[simp] theorem Engine.setSrcAddr_regs_code (e : Engine) (v : Word) :
    (e.setSrcAddr v).regs.code = e.regs.code := rfl
@[simp] theorem Engine.setSrcAddr_regs_srcAddr (e : Engine) (v : Word) :
    (e.setSrcAddr v).regs.srcAddr = v := rfl
@[simp] theorem Engine.setSrcAddr_regs_srcLen (e : Engine) (v : Word) :
    (e.setSrcAddr v).regs.srcLen = e.regs.srcLen := rfl
@[simp] theorem Engine.setSrcAddr_regs_dstAddr (e : Engine) (v : Word) :
    (e.setSrcAddr v).regs.dstAddr = e.regs.dstAddr := rfl
@[simp] theorem Engine.setSrcAddr_regs_dstSize (e : Engine) (v : Word) :
    (e.setSrcAddr v).regs.dstSize = e.regs.dstSize := rfl
@[simp] theorem Engine.setSrcAddr_regs_result (e : Engine) (v : Word) :
    (e.setSrcAddr v).regs.result = e.regs.result := rfl
@[simp] theorem Engine.setSrcAddr_regs_inConsumed (e : Engine) (v : Word) :
    (e.setSrcAddr v).regs.inConsumed = e.regs.inConsumed := rfl
@[simp] theorem Engine.setSrcAddr_engState (e : Engine) (v : Word) :
    (e.setSrcAddr v).engState = e.engState := rfl
@[simp] theorem Engine.setSrcAddr_opl (e : Engine) (v : Word) : (e.setSrcAddr v).opl = e.opl := rfl
@[simp] theorem Engine.setSrcAddr_lat (e : Engine) (v : Word) : (e.setSrcAddr v).lat = e.lat := rfl
@[simp] theorem Engine.setSrcAddr_bitn (e : Engine) (v : Word) : (e.setSrcAddr v).bitn = e.bitn := rfl
@[simp] theorem Engine.setSrcAddr_off (e : Engine) (v : Word) : (e.setSrcAddr v).off = e.off := rfl
@[simp] theorem Engine.setSrcAddr_enc (e : Engine) (v : Word) : (e.setSrcAddr v).enc = e.enc := rfl
@[simp] theorem Engine.setSrcAddr_dec (e : Engine) (v : Word) : (e.setSrcAddr v).dec = e.dec := rfl
@[simp] theorem Engine.setSrcAddr_dict (e : Engine) (v : Word) : (e.setSrcAddr v).dict = e.dict := rfl
@[simp] theorem Engine.setSrcAddr_faulted (e : Engine) (v : Word) :
    (e.setSrcAddr v).faulted = e.faulted := rfl
@[simp] theorem Engine.setSrcAddr_stuck (e : Engine) (v : Word) : (e.setSrcAddr v).stuck = e.stuck :=
    rfl

@[simp] theorem Engine.setSrcLen_regBase (e : Engine) (v : Word) : (e.setSrcLen v).regBase =
    e.regBase := rfl
@[simp] theorem Engine.setSrcLen_regs_ctrlOp (e : Engine) (v : Word) :
    (e.setSrcLen v).regs.ctrlOp = e.regs.ctrlOp := rfl
@[simp] theorem Engine.setSrcLen_regs_done (e : Engine) (v : Word) :
    (e.setSrcLen v).regs.done = e.regs.done := rfl
@[simp] theorem Engine.setSrcLen_regs_code (e : Engine) (v : Word) :
    (e.setSrcLen v).regs.code = e.regs.code := rfl
@[simp] theorem Engine.setSrcLen_regs_srcAddr (e : Engine) (v : Word) :
    (e.setSrcLen v).regs.srcAddr = e.regs.srcAddr := rfl
@[simp] theorem Engine.setSrcLen_regs_srcLen (e : Engine) (v : Word) : (e.setSrcLen v).regs.srcLen =
    v := rfl
@[simp] theorem Engine.setSrcLen_regs_dstAddr (e : Engine) (v : Word) :
    (e.setSrcLen v).regs.dstAddr = e.regs.dstAddr := rfl
@[simp] theorem Engine.setSrcLen_regs_dstSize (e : Engine) (v : Word) :
    (e.setSrcLen v).regs.dstSize = e.regs.dstSize := rfl
@[simp] theorem Engine.setSrcLen_regs_result (e : Engine) (v : Word) :
    (e.setSrcLen v).regs.result = e.regs.result := rfl
@[simp] theorem Engine.setSrcLen_regs_inConsumed (e : Engine) (v : Word) :
    (e.setSrcLen v).regs.inConsumed = e.regs.inConsumed := rfl
@[simp] theorem Engine.setSrcLen_engState (e : Engine) (v : Word) :
    (e.setSrcLen v).engState = e.engState := rfl
@[simp] theorem Engine.setSrcLen_opl (e : Engine) (v : Word) : (e.setSrcLen v).opl = e.opl := rfl
@[simp] theorem Engine.setSrcLen_lat (e : Engine) (v : Word) : (e.setSrcLen v).lat = e.lat := rfl
@[simp] theorem Engine.setSrcLen_bitn (e : Engine) (v : Word) : (e.setSrcLen v).bitn = e.bitn := rfl
@[simp] theorem Engine.setSrcLen_off (e : Engine) (v : Word) : (e.setSrcLen v).off = e.off := rfl
@[simp] theorem Engine.setSrcLen_enc (e : Engine) (v : Word) : (e.setSrcLen v).enc = e.enc := rfl
@[simp] theorem Engine.setSrcLen_dec (e : Engine) (v : Word) : (e.setSrcLen v).dec = e.dec := rfl
@[simp] theorem Engine.setSrcLen_dict (e : Engine) (v : Word) : (e.setSrcLen v).dict = e.dict := rfl
@[simp] theorem Engine.setSrcLen_faulted (e : Engine) (v : Word) : (e.setSrcLen v).faulted =
    e.faulted := rfl
@[simp] theorem Engine.setSrcLen_stuck (e : Engine) (v : Word) : (e.setSrcLen v).stuck = e.stuck := rfl

@[simp] theorem Engine.setDstAddr_regBase (e : Engine) (v : Word) :
    (e.setDstAddr v).regBase = e.regBase := rfl
@[simp] theorem Engine.setDstAddr_regs_ctrlOp (e : Engine) (v : Word) :
    (e.setDstAddr v).regs.ctrlOp = e.regs.ctrlOp := rfl
@[simp] theorem Engine.setDstAddr_regs_done (e : Engine) (v : Word) :
    (e.setDstAddr v).regs.done = e.regs.done := rfl
@[simp] theorem Engine.setDstAddr_regs_code (e : Engine) (v : Word) :
    (e.setDstAddr v).regs.code = e.regs.code := rfl
@[simp] theorem Engine.setDstAddr_regs_srcAddr (e : Engine) (v : Word) :
    (e.setDstAddr v).regs.srcAddr = e.regs.srcAddr := rfl
@[simp] theorem Engine.setDstAddr_regs_srcLen (e : Engine) (v : Word) :
    (e.setDstAddr v).regs.srcLen = e.regs.srcLen := rfl
@[simp] theorem Engine.setDstAddr_regs_dstAddr (e : Engine) (v : Word) :
    (e.setDstAddr v).regs.dstAddr = v := rfl
@[simp] theorem Engine.setDstAddr_regs_dstSize (e : Engine) (v : Word) :
    (e.setDstAddr v).regs.dstSize = e.regs.dstSize := rfl
@[simp] theorem Engine.setDstAddr_regs_result (e : Engine) (v : Word) :
    (e.setDstAddr v).regs.result = e.regs.result := rfl
@[simp] theorem Engine.setDstAddr_regs_inConsumed (e : Engine) (v : Word) :
    (e.setDstAddr v).regs.inConsumed = e.regs.inConsumed := rfl
@[simp] theorem Engine.setDstAddr_engState (e : Engine) (v : Word) :
    (e.setDstAddr v).engState = e.engState := rfl
@[simp] theorem Engine.setDstAddr_opl (e : Engine) (v : Word) : (e.setDstAddr v).opl = e.opl := rfl
@[simp] theorem Engine.setDstAddr_lat (e : Engine) (v : Word) : (e.setDstAddr v).lat = e.lat := rfl
@[simp] theorem Engine.setDstAddr_bitn (e : Engine) (v : Word) : (e.setDstAddr v).bitn = e.bitn := rfl
@[simp] theorem Engine.setDstAddr_off (e : Engine) (v : Word) : (e.setDstAddr v).off = e.off := rfl
@[simp] theorem Engine.setDstAddr_enc (e : Engine) (v : Word) : (e.setDstAddr v).enc = e.enc := rfl
@[simp] theorem Engine.setDstAddr_dec (e : Engine) (v : Word) : (e.setDstAddr v).dec = e.dec := rfl
@[simp] theorem Engine.setDstAddr_dict (e : Engine) (v : Word) : (e.setDstAddr v).dict = e.dict := rfl
@[simp] theorem Engine.setDstAddr_faulted (e : Engine) (v : Word) :
    (e.setDstAddr v).faulted = e.faulted := rfl
@[simp] theorem Engine.setDstAddr_stuck (e : Engine) (v : Word) : (e.setDstAddr v).stuck = e.stuck :=
    rfl

@[simp] theorem Engine.setDstSize_regBase (e : Engine) (v : Word) :
    (e.setDstSize v).regBase = e.regBase := rfl
@[simp] theorem Engine.setDstSize_regs_ctrlOp (e : Engine) (v : Word) :
    (e.setDstSize v).regs.ctrlOp = e.regs.ctrlOp := rfl
@[simp] theorem Engine.setDstSize_regs_done (e : Engine) (v : Word) :
    (e.setDstSize v).regs.done = e.regs.done := rfl
@[simp] theorem Engine.setDstSize_regs_code (e : Engine) (v : Word) :
    (e.setDstSize v).regs.code = e.regs.code := rfl
@[simp] theorem Engine.setDstSize_regs_srcAddr (e : Engine) (v : Word) :
    (e.setDstSize v).regs.srcAddr = e.regs.srcAddr := rfl
@[simp] theorem Engine.setDstSize_regs_srcLen (e : Engine) (v : Word) :
    (e.setDstSize v).regs.srcLen = e.regs.srcLen := rfl
@[simp] theorem Engine.setDstSize_regs_dstAddr (e : Engine) (v : Word) :
    (e.setDstSize v).regs.dstAddr = e.regs.dstAddr := rfl
@[simp] theorem Engine.setDstSize_regs_dstSize (e : Engine) (v : Word) :
    (e.setDstSize v).regs.dstSize = v := rfl
@[simp] theorem Engine.setDstSize_regs_result (e : Engine) (v : Word) :
    (e.setDstSize v).regs.result = e.regs.result := rfl
@[simp] theorem Engine.setDstSize_regs_inConsumed (e : Engine) (v : Word) :
    (e.setDstSize v).regs.inConsumed = e.regs.inConsumed := rfl
@[simp] theorem Engine.setDstSize_engState (e : Engine) (v : Word) :
    (e.setDstSize v).engState = e.engState := rfl
@[simp] theorem Engine.setDstSize_opl (e : Engine) (v : Word) : (e.setDstSize v).opl = e.opl := rfl
@[simp] theorem Engine.setDstSize_lat (e : Engine) (v : Word) : (e.setDstSize v).lat = e.lat := rfl
@[simp] theorem Engine.setDstSize_bitn (e : Engine) (v : Word) : (e.setDstSize v).bitn = e.bitn := rfl
@[simp] theorem Engine.setDstSize_off (e : Engine) (v : Word) : (e.setDstSize v).off = e.off := rfl
@[simp] theorem Engine.setDstSize_enc (e : Engine) (v : Word) : (e.setDstSize v).enc = e.enc := rfl
@[simp] theorem Engine.setDstSize_dec (e : Engine) (v : Word) : (e.setDstSize v).dec = e.dec := rfl
@[simp] theorem Engine.setDstSize_dict (e : Engine) (v : Word) : (e.setDstSize v).dict = e.dict := rfl
@[simp] theorem Engine.setDstSize_faulted (e : Engine) (v : Word) :
    (e.setDstSize v).faulted = e.faulted := rfl
@[simp] theorem Engine.setDstSize_stuck (e : Engine) (v : Word) : (e.setDstSize v).stuck = e.stuck :=
    rfl

@[simp] theorem Engine.endOperation_regBase (e : Engine) (c : BitVec 4) (r n : Word) :
    (e.endOperation c r n).regBase = e.regBase := rfl
@[simp] theorem Engine.endOperation_regs_ctrlOp (e : Engine) (c : BitVec 4) (r n : Word) :
    (e.endOperation c r n).regs.ctrlOp = e.regs.ctrlOp := rfl
@[simp] theorem Engine.endOperation_regs_done (e : Engine) (c : BitVec 4) (r n : Word) :
    (e.endOperation c r n).regs.done = true := rfl
@[simp] theorem Engine.endOperation_regs_code (e : Engine) (c : BitVec 4) (r n : Word) :
    (e.endOperation c r n).regs.code = c := rfl
@[simp] theorem Engine.endOperation_regs_srcAddr (e : Engine) (c : BitVec 4) (r n : Word) :
    (e.endOperation c r n).regs.srcAddr = e.regs.srcAddr := rfl
@[simp] theorem Engine.endOperation_regs_srcLen (e : Engine) (c : BitVec 4) (r n : Word) :
    (e.endOperation c r n).regs.srcLen = e.regs.srcLen := rfl
@[simp] theorem Engine.endOperation_regs_dstAddr (e : Engine) (c : BitVec 4) (r n : Word) :
    (e.endOperation c r n).regs.dstAddr = e.regs.dstAddr := rfl
@[simp] theorem Engine.endOperation_regs_dstSize (e : Engine) (c : BitVec 4) (r n : Word) :
    (e.endOperation c r n).regs.dstSize = e.regs.dstSize := rfl
@[simp] theorem Engine.endOperation_regs_result (e : Engine) (c : BitVec 4) (r n : Word) :
    (e.endOperation c r n).regs.result = r := rfl
@[simp] theorem Engine.endOperation_regs_inConsumed (e : Engine) (c : BitVec 4) (r n : Word) :
    (e.endOperation c r n).regs.inConsumed = n := rfl
@[simp] theorem Engine.endOperation_engState (e : Engine) (c : BitVec 4) (r n : Word) :
    (e.endOperation c r n).engState = .idle := rfl
@[simp] theorem Engine.endOperation_opl (e : Engine) (c : BitVec 4) (r n : Word) :
    (e.endOperation c r n).opl = e.opl := rfl
@[simp] theorem Engine.endOperation_lat (e : Engine) (c : BitVec 4) (r n : Word) :
    (e.endOperation c r n).lat = e.lat := rfl
@[simp] theorem Engine.endOperation_bitn (e : Engine) (c : BitVec 4) (r n : Word) :
    (e.endOperation c r n).bitn = e.bitn := rfl
@[simp] theorem Engine.endOperation_off (e : Engine) (c : BitVec 4) (r n : Word) :
    (e.endOperation c r n).off = e.off := rfl
@[simp] theorem Engine.endOperation_enc (e : Engine) (c : BitVec 4) (r n : Word) :
    (e.endOperation c r n).enc = e.enc := rfl
@[simp] theorem Engine.endOperation_dec (e : Engine) (c : BitVec 4) (r n : Word) :
    (e.endOperation c r n).dec = e.dec := rfl
@[simp] theorem Engine.endOperation_dict (e : Engine) (c : BitVec 4) (r n : Word) :
    (e.endOperation c r n).dict = e.dict := rfl
@[simp] theorem Engine.endOperation_faulted (e : Engine) (c : BitVec 4) (r n : Word) :
    (e.endOperation c r n).faulted = e.faulted := rfl
@[simp] theorem Engine.endOperation_stuck (e : Engine) (c : BitVec 4) (r n : Word) :
    (e.endOperation c r n).stuck = e.stuck := rfl

@[simp] theorem Engine.compressInit_regBase (e : Engine) : (e.compressInit).regBase = e.regBase := rfl
@[simp] theorem Engine.compressInit_regs (e : Engine) : (e.compressInit).regs = e.regs := rfl
@[simp] theorem Engine.compressInit_engState (e : Engine) : (e.compressInit).engState = e.engState :=
    rfl
@[simp] theorem Engine.compressInit_opl (e : Engine) : (e.compressInit).opl = e.opl := rfl
@[simp] theorem Engine.compressInit_lat (e : Engine) : (e.compressInit).lat = e.lat := rfl
@[simp] theorem Engine.compressInit_bitn (e : Engine) : (e.compressInit).bitn = 8 := rfl
@[simp] theorem Engine.compressInit_off (e : Engine) : (e.compressInit).off = e.off := rfl
@[simp] theorem Engine.compressInit_enc_pos (e : Engine) : (e.compressInit).enc.pos = 0 := rfl
@[simp] theorem Engine.compressInit_enc_opos (e : Engine) : (e.compressInit).enc.opos = 0 := rfl
@[simp] theorem Engine.compressInit_enc_cmap (e : Engine) : (e.compressInit).enc.cmap = e.enc.cmap :=
    rfl
@[simp] theorem Engine.compressInit_enc_cbyte (e : Engine) : (e.compressInit).enc.cbyte =
    e.enc.cbyte := rfl
@[simp] theorem Engine.compressInit_enc_hidx (e : Engine) : (e.compressInit).enc.hidx = e.enc.hidx :=
    rfl
@[simp] theorem Engine.compressInit_enc_cand (e : Engine) : (e.compressInit).enc.cand = e.enc.cand :=
    rfl
@[simp] theorem Engine.compressInit_enc_mlen (e : Engine) : (e.compressInit).enc.mlen = e.enc.mlen :=
    rfl
@[simp] theorem Engine.compressInit_dec (e : Engine) : (e.compressInit).dec = e.dec := rfl
@[simp] theorem Engine.compressInit_dict (e : Engine) : (e.compressInit).dict = [] := rfl
@[simp] theorem Engine.compressInit_faulted (e : Engine) : (e.compressInit).faulted = e.faulted := rfl
@[simp] theorem Engine.compressInit_stuck (e : Engine) : (e.compressInit).stuck = e.stuck := rfl

@[simp] theorem Engine.decompressInit_regBase (e : Engine) : (e.decompressInit).regBase = e.regBase :=
    rfl
@[simp] theorem Engine.decompressInit_regs (e : Engine) : (e.decompressInit).regs = e.regs := rfl
@[simp] theorem Engine.decompressInit_engState (e : Engine) : (e.decompressInit).engState =
    e.engState := rfl
@[simp] theorem Engine.decompressInit_opl (e : Engine) : (e.decompressInit).opl = e.opl := rfl
@[simp] theorem Engine.decompressInit_lat (e : Engine) : (e.decompressInit).lat = e.lat := rfl
@[simp] theorem Engine.decompressInit_bitn (e : Engine) : (e.decompressInit).bitn = 8 := rfl
@[simp] theorem Engine.decompressInit_off (e : Engine) : (e.decompressInit).off = e.off := rfl
@[simp] theorem Engine.decompressInit_enc (e : Engine) : (e.decompressInit).enc = e.enc := rfl
@[simp] theorem Engine.decompressInit_dec_ip (e : Engine) : (e.decompressInit).dec.ip = 0 := rfl
@[simp] theorem Engine.decompressInit_dec_op (e : Engine) : (e.decompressInit).dec.op = 0 := rfl
@[simp] theorem Engine.decompressInit_dec_ctl (e : Engine) : (e.decompressInit).dec.ctl = e.dec.ctl :=
    rfl
@[simp] theorem Engine.decompressInit_dec_len (e : Engine) : (e.decompressInit).dec.len = e.dec.len :=
    rfl
@[simp] theorem Engine.decompressInit_dec_cpy (e : Engine) : (e.decompressInit).dec.cpy = e.dec.cpy :=
    rfl
@[simp] theorem Engine.decompressInit_dict (e : Engine) : (e.decompressInit).dict = e.dict := rfl
@[simp] theorem Engine.decompressInit_faulted (e : Engine) : (e.decompressInit).faulted = e.faulted :=
    rfl
@[simp] theorem Engine.decompressInit_stuck (e : Engine) : (e.decompressInit).stuck = e.stuck := rfl

@[simp] theorem Engine.latch_regBase (e : Engine) (o : Operation) : (e.latch o).regBase = e.regBase :=
    rfl
@[simp] theorem Engine.latch_regs_ctrlOp (e : Engine) (o : Operation) :
    (e.latch o).regs.ctrlOp = e.regs.ctrlOp := rfl
@[simp] theorem Engine.latch_regs_done (e : Engine) (o : Operation) : (e.latch o).regs.done = false :=
    rfl
@[simp] theorem Engine.latch_regs_code (e : Engine) (o : Operation) : (e.latch o).regs.code = 0 := rfl
@[simp] theorem Engine.latch_regs_srcAddr (e : Engine) (o : Operation) :
    (e.latch o).regs.srcAddr = e.regs.srcAddr := rfl
@[simp] theorem Engine.latch_regs_srcLen (e : Engine) (o : Operation) :
    (e.latch o).regs.srcLen = e.regs.srcLen := rfl
@[simp] theorem Engine.latch_regs_dstAddr (e : Engine) (o : Operation) :
    (e.latch o).regs.dstAddr = e.regs.dstAddr := rfl
@[simp] theorem Engine.latch_regs_dstSize (e : Engine) (o : Operation) :
    (e.latch o).regs.dstSize = e.regs.dstSize := rfl
@[simp] theorem Engine.latch_regs_result (e : Engine) (o : Operation) :
    (e.latch o).regs.result = e.regs.result := rfl
@[simp] theorem Engine.latch_regs_inConsumed (e : Engine) (o : Operation) :
    (e.latch o).regs.inConsumed = e.regs.inConsumed := rfl
@[simp] theorem Engine.latch_engState (e : Engine) (o : Operation) : (e.latch o).engState = .busy := rfl
@[simp] theorem Engine.latch_opl (e : Engine) (o : Operation) : (e.latch o).opl = o := rfl
@[simp] theorem Engine.latch_lat_srcBase (e : Engine) (o : Operation) :
    (e.latch o).lat.srcBase = e.regs.srcAddr := rfl
@[simp] theorem Engine.latch_lat_srcLen (e : Engine) (o : Operation) :
    (e.latch o).lat.srcLen = e.regs.srcLen := rfl
@[simp] theorem Engine.latch_lat_dstBase (e : Engine) (o : Operation) :
    (e.latch o).lat.dstBase = e.regs.dstAddr := rfl
@[simp] theorem Engine.latch_lat_dstSize (e : Engine) (o : Operation) :
    (e.latch o).lat.dstSize = e.regs.dstSize := rfl
@[simp] theorem Engine.latch_bitn (e : Engine) (o : Operation) : (e.latch o).bitn = e.bitn := rfl
@[simp] theorem Engine.latch_off (e : Engine) (o : Operation) : (e.latch o).off = e.off := rfl
@[simp] theorem Engine.latch_enc (e : Engine) (o : Operation) : (e.latch o).enc = e.enc := rfl
@[simp] theorem Engine.latch_dec (e : Engine) (o : Operation) : (e.latch o).dec = e.dec := rfl
@[simp] theorem Engine.latch_dict (e : Engine) (o : Operation) : (e.latch o).dict = e.dict := rfl
@[simp] theorem Engine.latch_faulted (e : Engine) (o : Operation) : (e.latch o).faulted = e.faulted :=
    rfl
@[simp] theorem Engine.latch_stuck (e : Engine) (o : Operation) : (e.latch o).stuck = false := rfl

@[simp] theorem Engine.setMlen_regBase (e : Engine) (n : Nat) : (e.setMlen n).regBase = e.regBase := rfl
@[simp] theorem Engine.setMlen_regs (e : Engine) (n : Nat) : (e.setMlen n).regs = e.regs := rfl
@[simp] theorem Engine.setMlen_engState (e : Engine) (n : Nat) : (e.setMlen n).engState = e.engState :=
    rfl
@[simp] theorem Engine.setMlen_opl (e : Engine) (n : Nat) : (e.setMlen n).opl = e.opl := rfl
@[simp] theorem Engine.setMlen_lat (e : Engine) (n : Nat) : (e.setMlen n).lat = e.lat := rfl
@[simp] theorem Engine.setMlen_bitn (e : Engine) (n : Nat) : (e.setMlen n).bitn = e.bitn := rfl
@[simp] theorem Engine.setMlen_off (e : Engine) (n : Nat) : (e.setMlen n).off = e.off := rfl
@[simp] theorem Engine.setMlen_enc_pos (e : Engine) (n : Nat) : (e.setMlen n).enc.pos = e.enc.pos := rfl
@[simp] theorem Engine.setMlen_enc_opos (e : Engine) (n : Nat) : (e.setMlen n).enc.opos = e.enc.opos :=
    rfl
@[simp] theorem Engine.setMlen_enc_cmap (e : Engine) (n : Nat) : (e.setMlen n).enc.cmap = e.enc.cmap :=
    rfl
@[simp] theorem Engine.setMlen_enc_cbyte (e : Engine) (n : Nat) : (e.setMlen n).enc.cbyte =
    e.enc.cbyte := rfl
@[simp] theorem Engine.setMlen_enc_hidx (e : Engine) (n : Nat) : (e.setMlen n).enc.hidx = e.enc.hidx :=
    rfl
@[simp] theorem Engine.setMlen_enc_cand (e : Engine) (n : Nat) : (e.setMlen n).enc.cand = e.enc.cand :=
    rfl
@[simp] theorem Engine.setMlen_enc_mlen (e : Engine) (n : Nat) :
    (e.setMlen n).enc.mlen = BitVec.ofNat 7 n := rfl
@[simp] theorem Engine.setMlen_dec (e : Engine) (n : Nat) : (e.setMlen n).dec = e.dec := rfl
@[simp] theorem Engine.setMlen_dict (e : Engine) (n : Nat) : (e.setMlen n).dict = e.dict := rfl
@[simp] theorem Engine.setMlen_faulted (e : Engine) (n : Nat) : (e.setMlen n).faulted = e.faulted := rfl
@[simp] theorem Engine.setMlen_stuck (e : Engine) (n : Nat) : (e.setMlen n).stuck = e.stuck := rfl

@[simp] theorem Engine.unpackMatch_regBase (e : Engine) (n : BitVec 6) (o : BitVec 10) :
    (e.unpackMatch n o).regBase = e.regBase := rfl
@[simp] theorem Engine.unpackMatch_regs (e : Engine) (n : BitVec 6) (o : BitVec 10) :
    (e.unpackMatch n o).regs = e.regs := rfl
@[simp] theorem Engine.unpackMatch_engState (e : Engine) (n : BitVec 6) (o : BitVec 10) :
    (e.unpackMatch n o).engState = e.engState := rfl
@[simp] theorem Engine.unpackMatch_opl (e : Engine) (n : BitVec 6) (o : BitVec 10) :
    (e.unpackMatch n o).opl = e.opl := rfl
@[simp] theorem Engine.unpackMatch_lat (e : Engine) (n : BitVec 6) (o : BitVec 10) :
    (e.unpackMatch n o).lat = e.lat := rfl
@[simp] theorem Engine.unpackMatch_bitn (e : Engine) (n : BitVec 6) (o : BitVec 10) :
    (e.unpackMatch n o).bitn = e.bitn := rfl
@[simp] theorem Engine.unpackMatch_off (e : Engine) (n : BitVec 6) (o : BitVec 10) :
    (e.unpackMatch n o).off = o := rfl
@[simp] theorem Engine.unpackMatch_enc (e : Engine) (n : BitVec 6) (o : BitVec 10) :
    (e.unpackMatch n o).enc = e.enc := rfl
@[simp] theorem Engine.unpackMatch_dec_ip (e : Engine) (n : BitVec 6) (o : BitVec 10) :
    (e.unpackMatch n o).dec.ip = e.dec.ip + 2 := rfl
@[simp] theorem Engine.unpackMatch_dec_op (e : Engine) (n : BitVec 6) (o : BitVec 10) :
    (e.unpackMatch n o).dec.op = e.dec.op := rfl
@[simp] theorem Engine.unpackMatch_dec_ctl (e : Engine) (n : BitVec 6) (o : BitVec 10) :
    (e.unpackMatch n o).dec.ctl = e.dec.ctl := rfl
@[simp] theorem Engine.unpackMatch_dec_len (e : Engine) (n : BitVec 6) (o : BitVec 10) :
    (e.unpackMatch n o).dec.len = BitVec.ofNat 7 (matchLength n) := rfl
@[simp] theorem Engine.unpackMatch_dec_cpy (e : Engine) (n : BitVec 6) (o : BitVec 10) :
    (e.unpackMatch n o).dec.cpy = e.dec.cpy := rfl
@[simp] theorem Engine.unpackMatch_dict (e : Engine) (n : BitVec 6) (o : BitVec 10) :
    (e.unpackMatch n o).dict = e.dict := rfl
@[simp] theorem Engine.unpackMatch_faulted (e : Engine) (n : BitVec 6) (o : BitVec 10) :
    (e.unpackMatch n o).faulted = e.faulted := rfl
@[simp] theorem Engine.unpackMatch_stuck (e : Engine) (n : BitVec 6) (o : BitVec 10) :
    (e.unpackMatch n o).stuck = e.stuck := rfl

@[simp] theorem Engine.setCopy_regBase (e : Engine) (o : BitVec 10) : (e.setCopy o).regBase =
    e.regBase := rfl
@[simp] theorem Engine.setCopy_regs (e : Engine) (o : BitVec 10) : (e.setCopy o).regs = e.regs := rfl
@[simp] theorem Engine.setCopy_engState (e : Engine) (o : BitVec 10) :
    (e.setCopy o).engState = e.engState := rfl
@[simp] theorem Engine.setCopy_opl (e : Engine) (o : BitVec 10) : (e.setCopy o).opl = e.opl := rfl
@[simp] theorem Engine.setCopy_lat (e : Engine) (o : BitVec 10) : (e.setCopy o).lat = e.lat := rfl
@[simp] theorem Engine.setCopy_bitn (e : Engine) (o : BitVec 10) : (e.setCopy o).bitn = e.bitn := rfl
@[simp] theorem Engine.setCopy_off (e : Engine) (o : BitVec 10) : (e.setCopy o).off = e.off := rfl
@[simp] theorem Engine.setCopy_enc (e : Engine) (o : BitVec 10) : (e.setCopy o).enc = e.enc := rfl
@[simp] theorem Engine.setCopy_dec_ip (e : Engine) (o : BitVec 10) : (e.setCopy o).dec.ip = e.dec.ip :=
    rfl
@[simp] theorem Engine.setCopy_dec_op (e : Engine) (o : BitVec 10) : (e.setCopy o).dec.op = e.dec.op :=
    rfl
@[simp] theorem Engine.setCopy_dec_ctl (e : Engine) (o : BitVec 10) : (e.setCopy o).dec.ctl =
    e.dec.ctl := rfl
@[simp] theorem Engine.setCopy_dec_len (e : Engine) (o : BitVec 10) : (e.setCopy o).dec.len =
    e.dec.len := rfl
@[simp] theorem Engine.setCopy_dec_cpy (e : Engine) (o : BitVec 10) :
    (e.setCopy o).dec.cpy = e.dec.op - o.setWidth 33 := rfl
@[simp] theorem Engine.setCopy_dict (e : Engine) (o : BitVec 10) : (e.setCopy o).dict = e.dict := rfl
@[simp] theorem Engine.setCopy_faulted (e : Engine) (o : BitVec 10) : (e.setCopy o).faulted =
    e.faulted := rfl
@[simp] theorem Engine.setCopy_stuck (e : Engine) (o : BitVec 10) : (e.setCopy o).stuck = e.stuck := rfl

@[simp] theorem Engine.afterUpdate_regBase (e : Engine) (b : Nat) (h : BitVec 10) :
    (e.afterUpdate b h).regBase = e.regBase := rfl
@[simp] theorem Engine.afterUpdate_regs (e : Engine) (b : Nat) (h : BitVec 10) :
    (e.afterUpdate b h).regs = e.regs := rfl
@[simp] theorem Engine.afterUpdate_engState (e : Engine) (b : Nat) (h : BitVec 10) :
    (e.afterUpdate b h).engState = e.engState := rfl
@[simp] theorem Engine.afterUpdate_opl (e : Engine) (b : Nat) (h : BitVec 10) :
    (e.afterUpdate b h).opl = e.opl := rfl
@[simp] theorem Engine.afterUpdate_lat (e : Engine) (b : Nat) (h : BitVec 10) :
    (e.afterUpdate b h).lat = e.lat := rfl
@[simp] theorem Engine.afterUpdate_bitn (e : Engine) (b : Nat) (h : BitVec 10) :
    (e.afterUpdate b h).bitn = e.bitn := rfl
@[simp] theorem Engine.afterUpdate_off (e : Engine) (b : Nat) (h : BitVec 10) :
    (e.afterUpdate b h).off = candidateOffset (slotTag b e.enc.pos.toNat) (Dict.read e.dict h) := rfl
@[simp] theorem Engine.afterUpdate_enc_pos (e : Engine) (b : Nat) (h : BitVec 10) :
    (e.afterUpdate b h).enc.pos = e.enc.pos := rfl
@[simp] theorem Engine.afterUpdate_enc_opos (e : Engine) (b : Nat) (h : BitVec 10) :
    (e.afterUpdate b h).enc.opos = e.enc.opos := rfl
@[simp] theorem Engine.afterUpdate_enc_cmap (e : Engine) (b : Nat) (h : BitVec 10) :
    (e.afterUpdate b h).enc.cmap = e.enc.cmap := rfl
@[simp] theorem Engine.afterUpdate_enc_cbyte (e : Engine) (b : Nat) (h : BitVec 10) :
    (e.afterUpdate b h).enc.cbyte = e.enc.cbyte := rfl
@[simp] theorem Engine.afterUpdate_enc_hidx (e : Engine) (b : Nat) (h : BitVec 10) :
    (e.afterUpdate b h).enc.hidx = h := rfl
@[simp] theorem Engine.afterUpdate_enc_cand (e : Engine) (b : Nat) (h : BitVec 10) :
    (e.afterUpdate b h).enc.cand =
        candidatePos e.enc.pos.toNat (candidateOffset (slotTag b e.enc.pos.toNat)
        (Dict.read e.dict h)) := rfl
@[simp] theorem Engine.afterUpdate_enc_mlen (e : Engine) (b : Nat) (h : BitVec 10) :
    (e.afterUpdate b h).enc.mlen = e.enc.mlen := rfl
@[simp] theorem Engine.afterUpdate_dec (e : Engine) (b : Nat) (h : BitVec 10) :
    (e.afterUpdate b h).dec = e.dec := rfl
@[simp] theorem Engine.afterUpdate_dict (e : Engine) (b : Nat) (h : BitVec 10) :
    (e.afterUpdate b h).dict = Dict.write e.dict h (slotTag b e.enc.pos.toNat) := rfl
@[simp] theorem Engine.afterUpdate_faulted (e : Engine) (b : Nat) (h : BitVec 10) :
    (e.afterUpdate b h).faulted = e.faulted := rfl
@[simp] theorem Engine.afterUpdate_stuck (e : Engine) (b : Nat) (h : BitVec 10) :
    (e.afterUpdate b h).stuck = e.stuck := rfl

/-! ## Updates of the state -/

@[simp] theorem State.setEng_eng (s : State) (e : Engine) : (s.setEng e).eng = e := rfl
@[simp] theorem State.setEng_others (s : State) (e : Engine) : (s.setEng e).others = s.others := rfl
@[simp] theorem State.setEng_mem (s : State) (e : Engine) : (s.setEng e).mem = s.mem := rfl
@[simp] theorem State.setEng_platform (s : State) (e : Engine) : (s.setEng e).platform = s.platform :=
    rfl
@[simp] theorem State.setEng_inputs (s : State) (e : Engine) : (s.setEng e).inputs = s.inputs := rfl
@[simp] theorem State.setEng_responses (s : State) (e : Engine) : (s.setEng e).responses =
    s.responses := rfl
@[simp] theorem State.setEng_draws (s : State) (e : Engine) : (s.setEng e).draws = s.draws := rfl
@[simp] theorem State.setEng_refused (s : State) (e : Engine) : (s.setEng e).refused = s.refused := rfl

@[simp] theorem State.stick_eng (s : State) : (s.stick).eng = { s.eng with stuck := true } := rfl
@[simp] theorem State.stick_others (s : State) : (s.stick).others = s.others := rfl
@[simp] theorem State.stick_mem (s : State) : (s.stick).mem = s.mem := rfl
@[simp] theorem State.stick_platform (s : State) : (s.stick).platform = s.platform := rfl
@[simp] theorem State.stick_inputs (s : State) : (s.stick).inputs = s.inputs := rfl
@[simp] theorem State.stick_responses (s : State) : (s.stick).responses = s.responses := rfl
@[simp] theorem State.stick_draws (s : State) : (s.stick).draws = s.draws := rfl
@[simp] theorem State.stick_refused (s : State) : (s.stick).refused = s.refused := rfl

@[simp] theorem State.refuse_eng (s : State) (r : Refusal) : (s.refuse r).eng = s.eng := rfl
@[simp] theorem State.refuse_others (s : State) (r : Refusal) : (s.refuse r).others = s.others := rfl
@[simp] theorem State.refuse_mem (s : State) (r : Refusal) : (s.refuse r).mem = s.mem := rfl
@[simp] theorem State.refuse_platform (s : State) (r : Refusal) : (s.refuse r).platform = s.platform :=
    rfl
@[simp] theorem State.refuse_inputs (s : State) (r : Refusal) : (s.refuse r).inputs = s.inputs := rfl
@[simp] theorem State.refuse_responses (s : State) (r : Refusal) : (s.refuse r).responses =
    s.responses := rfl
@[simp] theorem State.refuse_draws (s : State) (r : Refusal) : (s.refuse r).draws = s.draws := rfl
@[simp] theorem State.refuse_refused (s : State) (r : Refusal) : (s.refuse r).refused = some r := rfl

@[simp] theorem State.drawDest_eng (s : State) (e : Engine) : (s.drawDest e).eng = s.eng := rfl
@[simp] theorem State.drawDest_others (s : State) (e : Engine) : (s.drawDest e).others = s.others := rfl
@[simp] theorem State.drawDest_platform (s : State) (e : Engine) : (s.drawDest e).platform =
    s.platform := rfl
@[simp] theorem State.drawDest_inputs (s : State) (e : Engine) : (s.drawDest e).inputs = s.inputs := rfl
@[simp] theorem State.drawDest_responses (s : State) (e : Engine) : (s.drawDest e).responses =
    s.responses := rfl
@[simp] theorem State.drawDest_draws (s : State) (e : Engine) : (s.drawDest e).draws =
    s.draws + e.lat.dstSize.toNat := rfl
@[simp] theorem State.drawDest_refused (s : State) (e : Engine) : (s.drawDest e).refused =
    s.refused := rfl

@[simp] theorem State.overrun_eng (s : State) : (s.overrun).eng = { s.eng with faulted := true } := rfl
@[simp] theorem State.overrun_others (s : State) : (s.overrun).others = s.others := rfl
@[simp] theorem State.overrun_mem (s : State) : (s.overrun).mem = (s.drawDest s.eng).mem := rfl
@[simp] theorem State.overrun_platform (s : State) : (s.overrun).platform = s.platform := rfl
@[simp] theorem State.overrun_inputs (s : State) : (s.overrun).inputs = s.inputs := rfl
@[simp] theorem State.overrun_responses (s : State) : (s.overrun).responses = s.responses := rfl
@[simp] theorem State.overrun_draws (s : State) : (s.overrun).draws =
    s.draws + s.eng.lat.dstSize.toNat := rfl
@[simp] theorem State.overrun_refused (s : State) : (s.overrun).refused = s.refused := rfl

@[simp] theorem State.respond_eng (s : State) (v : Response) : (s.respond v).eng = s.eng := rfl
@[simp] theorem State.respond_others (s : State) (v : Response) : (s.respond v).others = s.others := rfl
@[simp] theorem State.respond_mem (s : State) (v : Response) : (s.respond v).mem = s.mem := rfl
@[simp] theorem State.respond_platform (s : State) (v : Response) : (s.respond v).platform =
    s.platform := rfl
@[simp] theorem State.respond_inputs (s : State) (v : Response) : (s.respond v).inputs = s.inputs := rfl
@[simp] theorem State.respond_responses (s : State) (v : Response) :
    (s.respond v).responses = v :: s.responses := rfl
@[simp] theorem State.respond_draws (s : State) (v : Response) : (s.respond v).draws = s.draws := rfl
@[simp] theorem State.respond_refused (s : State) (v : Response) : (s.respond v).refused = s.refused :=
    rfl

end Sys2Proof.Machine
end

