-- ==== Sys2Proof/Laws/Cells.lean ====
section
/-! SUPPORT. The laws of the canonical lists that hold memory and the dictionary: a read after a write, and that every
write keeps the canonical form. -/

namespace Sys2Proof.Machine

variable {w : Nat} (d : BitVec w)

@[simp] theorem Cells.get_nil (a : Nat) : Cells.get d [] a = d := rfl

theorem Cells.get_cons (k : Nat) (v : BitVec w) (m : Cells w) (a : Nat) :
    Cells.get d ((k, v) :: m) a = if k = a then v else Cells.get d m a := rfl

theorem Cells.get_eq_of_absent (m : Cells w) (a : Nat) (h : ∀ c ∈ m, c.1 ≠ a) :
    Cells.get d m a = d := by
  induction m with
  | nil => rfl
  | cons c m ih =>
    rw [Cells.get, if_neg (h c (by simp))]
    exact ih fun c' hc' => h c' (by simp [hc'])

theorem Cells.mem_erase (m : Cells w) (a : Nat) (c : Nat × BitVec w) :
    c ∈ Cells.erase m a ↔ c ∈ m ∧ c.1 ≠ a := by
  induction m with
  | nil => simp [Cells.erase]
  | cons x m ih =>
    obtain ⟨k, v⟩ := x
    by_cases hk : k = a
    · subst hk
      simp only [Cells.erase, if_true, ih, List.mem_cons]
      refine ⟨fun h => ⟨.inr h.1, h.2⟩, fun h => ⟨h.1.resolve_left ?_, h.2⟩⟩
      rintro rfl
      exact h.2 rfl
    · simp only [Cells.erase, if_neg hk, List.mem_cons, ih]
      refine ⟨?_, ?_⟩
      · rintro (rfl | h)
        · exact ⟨.inl rfl, hk⟩
        · exact ⟨.inr h.1, h.2⟩
      · rintro ⟨rfl | h, h2⟩
        · exact .inl rfl
        · exact .inr ⟨h, h2⟩

theorem Cells.get_erase_self (m : Cells w) (a : Nat) : Cells.get d (Cells.erase m a) a = d :=
  Cells.get_eq_of_absent d _ a fun c hc => ((Cells.mem_erase m a c).1 hc).2

theorem Cells.get_erase_ne (m : Cells w) {a b : Nat} (h : b ≠ a) :
    Cells.get d (Cells.erase m a) b = Cells.get d m b := by
  induction m with
  | nil => rfl
  | cons x m ih =>
    obtain ⟨k, v⟩ := x
    by_cases hk : k = a
    · simp [Cells.erase, Cells.get, hk, ih, Ne.symm h]
    · simp [Cells.erase, Cells.get, hk, ih]

theorem Cells.get_insert_self (m : Cells w) (a : Nat) (v : BitVec w) (h : ∀ c ∈ m, c.1 ≠ a) :
    Cells.get d (Cells.insert m a v) a = v := by
  induction m with
  | nil => simp [Cells.insert, Cells.get]
  | cons x m ih =>
    obtain ⟨k, y⟩ := x
    have hk : k ≠ a := h (k, y) (by simp)
    by_cases hl : a < k
    · simp [Cells.insert, Cells.get, hl]
    · simpa [Cells.insert, Cells.get, hl, hk] using ih fun c hc => h c (by simp [hc])

theorem Cells.get_insert_ne (m : Cells w) {a b : Nat} (v : BitVec w) (h : b ≠ a) :
    Cells.get d (Cells.insert m a v) b = Cells.get d m b := by
  induction m with
  | nil => simp [Cells.insert, Cells.get, Ne.symm h]
  | cons x m ih =>
    obtain ⟨k, y⟩ := x
    by_cases hl : a < k
    · simp [Cells.insert, Cells.get, hl, Ne.symm h]
    · simp [Cells.insert, Cells.get, hl, ih]

@[simp] theorem Cells.get_set_self (m : Cells w) (a : Nat) (v : BitVec w) :
    Cells.get d (Cells.set d m a v) a = v := by
  unfold Cells.set
  split
  · rename_i h
    rw [Cells.get_erase_self, h]
  · exact Cells.get_insert_self d _ a v fun c hc => ((Cells.mem_erase m a c).1 hc).2

theorem Cells.get_set_ne (m : Cells w) {a b : Nat} (v : BitVec w) (h : b ≠ a) :
    Cells.get d (Cells.set d m a v) b = Cells.get d m b := by
  unfold Cells.set
  split
  · exact Cells.get_erase_ne d m h
  · rw [Cells.get_insert_ne d _ v h, Cells.get_erase_ne d m h]

theorem Cells.get_set (m : Cells w) (a b : Nat) (v : BitVec w) :
    Cells.get d (Cells.set d m a v) b = if b = a then v else Cells.get d m b := by
  split
  · rename_i h; rw [h, Cells.get_set_self]
  · rename_i h; exact Cells.get_set_ne d m v h

theorem Cells.wf_cons (k : Nat) (v : BitVec w) (m : Cells w) :
    Cells.wf d ((k, v) :: m) = true ↔ v ≠ d ∧ (∀ c ∈ m, k < c.1) ∧ Cells.wf d m = true := by
  simp [Cells.wf, and_assoc]

theorem Cells.wf_erase (m : Cells w) (a : Nat) (h : Cells.wf d m = true) :
    Cells.wf d (Cells.erase m a) = true := by
  induction m with
  | nil => exact h
  | cons x m ih =>
    obtain ⟨k, v⟩ := x
    obtain ⟨hv, hlt, hm⟩ := (Cells.wf_cons d k v m).1 h
    by_cases hk : k = a
    · simpa [Cells.erase, hk] using ih hm
    · simp only [Cells.erase, if_neg hk]
      exact (Cells.wf_cons d k v _).2 ⟨hv, fun c hc => hlt c ((Cells.mem_erase m a c).1 hc).1, ih hm⟩

theorem Cells.mem_insert (m : Cells w) (a : Nat) (v : BitVec w) (c : Nat × BitVec w) :
    c ∈ Cells.insert m a v ↔ c = (a, v) ∨ c ∈ m := by
  induction m with
  | nil => simp [Cells.insert]
  | cons x m ih =>
    obtain ⟨k, y⟩ := x
    by_cases hl : a < k
    · simp [Cells.insert, hl]
    · simp only [Cells.insert, if_neg hl, List.mem_cons, ih]
      tauto

theorem Cells.wf_insert (m : Cells w) (a : Nat) (v : BitVec w) (h : Cells.wf d m = true)
    (ha : ∀ c ∈ m, c.1 ≠ a) (hv : v ≠ d) : Cells.wf d (Cells.insert m a v) = true := by
  induction m with
  | nil => exact (Cells.wf_cons d a v []).2 ⟨hv, by simp, rfl⟩
  | cons x m ih =>
    obtain ⟨k, y⟩ := x
    obtain ⟨hy, hlt, hm⟩ := (Cells.wf_cons d k y m).1 h
    have hk : k ≠ a := ha (k, y) (by simp)
    by_cases hl : a < k
    · simp only [Cells.insert, if_pos hl]
      refine (Cells.wf_cons d a v _).2 ⟨hv, fun c hc => ?_, h⟩
      rcases List.mem_cons.1 hc with rfl | hc
      · exact hl
      · exact hl.trans (hlt c hc)
    · simp only [Cells.insert, if_neg hl]
      refine (Cells.wf_cons d k y _).2 ⟨hy, fun c hc => ?_, ih hm fun c hc => ha c (by simp [hc])⟩
      rcases (Cells.mem_insert m a v c).1 hc with rfl | hc
      · exact Nat.lt_of_le_of_ne (Nat.le_of_not_lt hl) hk
      · exact hlt c hc

theorem Cells.wf_set (m : Cells w) (a : Nat) (v : BitVec w) (h : Cells.wf d m = true) :
    Cells.wf d (Cells.set d m a v) = true := by
  unfold Cells.set
  split
  · exact Cells.wf_erase d m a h
  · rename_i hv
    exact Cells.wf_insert d _ a v (Cells.wf_erase d m a h)
      (fun c hc => ((Cells.mem_erase m a c).1 hc).2) hv

theorem Cells.mem_set (m : Cells w) (a : Nat) (v : BitVec w) (c : Nat × BitVec w)
    (h : c ∈ Cells.set d m a v) : c = (a, v) ∨ c ∈ m := by
  unfold Cells.set at h
  split at h
  · exact .inr ((Cells.mem_erase m a c).1 h).1
  · rcases (Cells.mem_insert _ a v c).1 h with rfl | h
    · exact .inl rfl
    · exact .inr ((Cells.mem_erase m a c).1 h).1

/-- Two canonical lists that read alike everywhere are equal, so equal memories are equal data. -/
theorem Cells.eq_of_get_eq (m m' : Cells w) (h : Cells.wf d m = true) (h' : Cells.wf d m' = true)
    (heq : ∀ a, Cells.get d m a = Cells.get d m' a) : m = m' := by
  induction m generalizing m' with
  | nil =>
    cases m' with
    | nil => rfl
    | cons x m' =>
      obtain ⟨k, v⟩ := x
      have := heq k
      simp only [Cells.get, if_true] at this
      exact absurd this.symm ((Cells.wf_cons d k v m').1 h').1
  | cons x m ih =>
    obtain ⟨k, v⟩ := x
    obtain ⟨hv, hlt, hm⟩ := (Cells.wf_cons d k v m).1 h
    have hk : Cells.get d m k = d :=
      Cells.get_eq_of_absent d m k fun c hc => (Nat.ne_of_gt (hlt c hc))
    cases m' with
    | nil =>
      have := heq k
      simp only [Cells.get, if_true] at this
      exact absurd this hv
    | cons x' m' =>
      obtain ⟨k', v'⟩ := x'
      obtain ⟨hv', hlt', hm'⟩ := (Cells.wf_cons d k' v' m').1 h'
      have hk' : Cells.get d m' k' = d :=
        Cells.get_eq_of_absent d m' k' fun c hc => (Nat.ne_of_gt (hlt' c hc))
      have hkk : k = k' := by
        rcases Nat.lt_trichotomy k k' with hl | hl | hl
        · have h1 := heq k
          rw [Cells.get_cons, if_pos rfl, Cells.get_cons, if_neg (Nat.ne_of_gt hl),
            Cells.get_eq_of_absent d m' k fun c hc => Nat.ne_of_gt (hl.trans (hlt' c hc))] at h1
          exact absurd h1 hv
        · exact hl
        · have h1 := heq k'
          rw [Cells.get_cons, if_neg (Nat.ne_of_gt hl), Cells.get_cons, if_pos rfl,
            Cells.get_eq_of_absent d m k' fun c hc => Nat.ne_of_gt (hl.trans (hlt c hc))] at h1
          exact absurd h1.symm hv'
      subst hkk
      have hvv : v = v' := by
        have := heq k
        simpa [Cells.get] using this
      subst hvv
      rw [ih m' hm hm' fun a => ?_]
      by_cases ha : k = a
      · subst ha; rw [hk, hk']
      · have := heq a
        simpa [Cells.get, ha] using this

/-! ## Memory and dictionary -/

@[simp] theorem Memory.read_write_self (m : Memory) (a : Nat) (v : Byte) :
    Memory.read (Memory.write m a v) a = v := Cells.get_set_self _ m a v

theorem Memory.read_write_ne (m : Memory) {a b : Nat} (v : Byte) (h : b ≠ a) :
    Memory.read (Memory.write m a v) b = Memory.read m b := Cells.get_set_ne _ m v h

theorem Memory.read_write (m : Memory) (a b : Nat) (v : Byte) :
    Memory.read (Memory.write m a v) b = if b = a then v else Memory.read m b :=
  Cells.get_set _ m a b v

theorem Memory.wf_write (m : Memory) (a : Nat) (v : Byte) (h : Memory.wf m = true) :
    Memory.wf (Memory.write m a v) = true := Cells.wf_set _ m a v h

theorem Memory.wf_nil : Memory.wf [] = true := rfl

@[simp] theorem Dict.read_write_self (m : Dict) (i : BitVec 10) (v : Slot) :
    Dict.read (Dict.write m i v) i = v := Cells.get_set_self _ m _ v

theorem Dict.read_write_ne (m : Dict) {i j : BitVec 10} (v : Slot) (h : j ≠ i) :
    Dict.read (Dict.write m i v) j = Dict.read m j :=
  Cells.get_set_ne _ m v fun e => h (BitVec.eq_of_toNat_eq e)

theorem Dict.wf_write (m : Dict) (i : BitVec 10) (v : Slot) (h : Dict.wf m = true) :
    Dict.wf (Dict.write m i v) = true := by
  simp only [Dict.wf, Bool.and_eq_true, List.all_eq_true, decide_eq_true_eq] at h ⊢
  refine ⟨Cells.wf_set _ m _ v h.1, fun c hc => ?_⟩
  rcases Cells.mem_set _ m _ v c hc with rfl | hc
  · exact i.isLt
  · exact h.2 c hc

theorem Dict.wf_nil : Dict.wf [] = true := rfl

@[simp] theorem Dict.read_nil (i : BitVec 10) : Dict.read [] i = 0 := rfl

/-- Every memory operation keeps the canonical form: the bytes of a stream placed in memory. -/
theorem storeBytes_wf (m : Memory) (a : Nat) (bs : List Byte) (h : Memory.wf m = true) :
    Memory.wf (storeBytes m a bs) = true := by
  induction bs generalizing m a with
  | nil => exact h
  | cons b bs ih => exact ih _ _ (Memory.wf_write m a b h)

/-- Every memory operation keeps the canonical form: the free draws of a destination. -/
theorem drawBytes_wf (p : Platform) (base draw n : Nat) (m : Memory) (h : Memory.wf m = true) :
    Memory.wf (drawBytes p base draw n m) = true := by
  induction n with
  | zero => exact h
  | succ n ih =>
    simp only [drawBytes]
    split
    · exact Memory.wf_write _ _ _ ih
    · exact ih

/-- The free draws of a destination touch only the bytes of the range. -/
theorem drawBytes_read_ne (p : Platform) (base draw n : Nat) (m : Memory) (a : Nat)
    (h : ¬ (base ≤ a ∧ a < base + n)) : Memory.read (drawBytes p base draw n m) a =
        Memory.read m a := by
  induction n with
  | zero => rfl
  | succ n ih =>
    simp only [drawBytes]
    split
    · rw [Memory.read_write_ne _ _ (by omega)]
      exact ih (by omega)
    · exact ih (by omega)

end Sys2Proof.Machine
end

