-- ==== Sys2Proof/Laws/Codec.lean ====
section
/-! SUPPORT. The fields of the encodings as arithmetic, and that packing and unpacking undo each other
(30_encoding.md R95 to R97, R107). -/

namespace Sys2Proof

/-- A field of a word as arithmetic. -/
theorem extract_toNat {w : Nat} (v : BitVec w) (s n : Nat) : (v.extractLsb' s n).toNat =
    v.toNat / 2 ^ s % 2 ^ n := by
  simp [BitVec.extractLsb'_toNat, Nat.shiftRight_eq_div_pow]

theorem ctrlWord_toNat (start : Bool) (op : BitVec 2) (ign : BitVec 29) :
   (ctrlWord start op ign).toNat = 8 * ign.toNat + 2 * op.toNat + start.toNat := by
  have := ign.isLt; have := op.isLt
  simp only [ctrlWord, BitVec.toNat_ofNat]
  cases start <;> simp <;> omega

theorem ctrlWord_start (start : Bool) (op : BitVec 2) (ign : BitVec 29)
    : (ctrlWord start op ign).getLsbD 0 = start := by
  rw [BitVec.getLsbD, ctrlWord_toNat, Nat.testBit_zero]
  cases start <;> simp <;> omega

theorem ctrlWord_op (start : Bool) (op : BitVec 2) (ign : BitVec 29)
    : (ctrlWord start op ign).extractLsb' 1 2 = op := by
  apply BitVec.eq_of_toNat_eq
  rw [extract_toNat, ctrlWord_toNat]
  have := op.isLt
  cases start <;> simp <;> omega

theorem ctrlWord_ign (start : Bool) (op : BitVec 2) (ign : BitVec 29)
    : (ctrlWord start op ign).extractLsb' 3 29 = ign := by
  apply BitVec.eq_of_toNat_eq
  rw [extract_toNat, ctrlWord_toNat]
  have := op.isLt; have := ign.isLt
  cases start <;> simp <;> omega

theorem ctrlWord_parts (v : Word) : ctrlWord (v.getLsbD 0) (v.extractLsb' 1 2) (v.extractLsb' 3 29) =
    v := by
  apply BitVec.eq_of_toNat_eq
  rw [ctrlWord_toNat, extract_toNat, extract_toNat, BitVec.getLsbD, Nat.testBit_zero]
  have := v.isLt
  by_cases h : v.toNat % 2 = 1 <;> simp [h] <;> omega

theorem decodeCtrl_ctrlWord_true (op : BitVec 2) (ign : BitVec 29) :
   decodeCtrl (ctrlWord true op ign) = if op = 1#2 then .startCompress ign else if op =
       2#2 then .startDecompress ign else if op =
       0#2 then .startBadop00 ign else .startBadop11 ign := by
  simp only [decodeCtrl, ctrlWord_start, ctrlWord_op, ctrlWord_ign, if_true]

theorem decodeCtrl_ctrlWord_false (op : BitVec 2) (ign : BitVec 29) :
   decodeCtrl (ctrlWord false op ign) = .setOp op ign := by
  simp only [decodeCtrl, ctrlWord_start, ctrlWord_op, ctrlWord_ign]
  simp

theorem matchByte0_toNat (n : BitVec 6) (off : BitVec 10) : (matchByte0 n off).toNat =
    4 * n.toNat + off.toNat / 256 := by
  have := n.isLt; have := off.isLt
  simp only [matchByte0, BitVec.toNat_ofNat, extract_toNat]; omega

theorem matchByte1_toNat (off : BitVec 10) : (matchByte1 off).toNat = off.toNat % 256 := by
  simp only [matchByte1, extract_toNat]; omega

theorem matchN_toNat (b0 : Byte) : (matchN b0).toNat = b0.toNat / 4 := by
  have := b0.isLt
  simp only [matchN, extract_toNat]; omega

theorem matchOff_toNat (b0 b1 : Byte) : (matchOff b0 b1).toNat = 256 * (b0.toNat % 4) + b1.toNat := by
  have := b0.isLt; have := b1.isLt
  simp only [matchOff, extract_toNat, BitVec.toNat_ofNat]; omega

theorem matchN_byte0 (n : BitVec 6) (off : BitVec 10) : matchN (matchByte0 n off) = n := by
  apply BitVec.eq_of_toNat_eq
  rw [matchN_toNat, matchByte0_toNat]; omega

theorem matchOff_bytes (n : BitVec 6) (off : BitVec 10) : matchOff (matchByte0 n off) (matchByte1 off)
    = off := by
  apply BitVec.eq_of_toNat_eq
  rw [matchOff_toNat, matchByte0_toNat, matchByte1_toNat]; omega

theorem bytes_of_match (b0 b1 : Byte) : matchByte0 (matchN b0) (matchOff b0 b1) = b0 ∧
    matchByte1 (matchOff b0 b1) = b1 := by
  constructor <;> apply BitVec.eq_of_toNat_eq
  · rw [matchByte0_toNat, matchN_toNat, matchOff_toNat]; omega
  · rw [matchByte1_toNat, matchOff_toNat]; omega

theorem encode_decodeCtrl (v : Word) : encode (decodeCtrl v) = encodeWrite .ctrl v := by
  have hv := ctrlWord_parts v
  by_cases h0 : v.getLsbD 0 = true
  · simp only [decodeCtrl, h0, if_true]
    rw [h0] at hv
    have h2 : ∀ o : BitVec 2, o = 1#2 ∨ o = 2#2 ∨ o = 0#2 ∨ o = 3#2 := by decide
    rcases h2 (v.extractLsb' 1 2) with h | h | h | h <;> (rw [h] at hv; simp [h, encode, hv])
  · simp only [decodeCtrl, h0]
    rw [Bool.not_eq_true] at h0
    rw [h0] at hv
    simp [encode, hv]

theorem regAt_some (o : Nat) (r : Reg) (h : regAt o = some r) : r.offset = o := by
  unfold regAt at h
  split at h <;> first | (cases h; done) | (cases h; rfl)

theorem regAt_offset (r : Reg) : regAt r.offset = some r := by cases r <;> rfl

theorem Reg.offset_aligned (r : Reg) : r.offset % 4 = 0 := by cases r <;> rfl

theorem Reg.offset_lt (r : Reg) : r.offset < 0x20 := by cases r <;> decide

end Sys2Proof
end

