-- ==== Sys2Proof/Laws/Ops.lean ====
section
/-! SUPPORT. One lemma per shared operation that says what it can do; later proofs cite these and do not unfold the
operations. -/

namespace Sys2Proof.Machine

/-! ## Bytes -/

theorem State.memRead_eq_some {s : State} {a : Nat} {b : Byte} :
    s.memRead a = some b ↔ s.platform.ordinary a = true ∧ b = Memory.read s.mem a := by
  by_cases h : s.platform.ordinary a = true <;> simp [State.memRead, h, eq_comm]

theorem State.memWrite_eq_some {s t : State} {a : Nat} {v : Byte} :
    s.memWrite a v = some t ↔
      s.platform.ordinary a = true ∧ t = { s with mem := Memory.write s.mem a v } := by
  by_cases h : s.platform.ordinary a = true <;> simp [State.memWrite, h, eq_comm]

theorem State.memRead_of_ordinary {s : State} {a : Nat} (h : s.platform.ordinary a = true) :
    s.memRead a = some (Memory.read s.mem a) := by
  simp [State.memRead, h]

theorem State.memWrite_of_ordinary {s : State} {a : Nat} (v : Byte)
    (h : s.platform.ordinary a = true) :
    s.memWrite a v = some { s with mem := Memory.write s.mem a v } := by
  simp [State.memWrite, h]

theorem State.srcByte_eq_some {s : State} {i : Nat} {b : Byte} :
    s.srcByte i = some b ↔ s.platform.ordinary (s.eng.lat.srcBase.toNat + i) = true ∧
      b = Memory.read s.mem (s.eng.lat.srcBase.toNat + i) := State.memRead_eq_some

/-- An engine's action ends in the action's state, or in the engine stuck. -/
theorem State.orStick_eq_next {s t : State} {o : Option State} :
    s.orStick o = .next t ↔ o = some t ∨ (o = none ∧ t = s.stick) := by
  cases o <;> simp [State.orStick, eq_comm]

theorem inSpan_iff {b n a : Nat} : inSpan b n a = true ↔ b ≤ a ∧ a < b + n := by
  simp [inSpan]

theorem Engine.inSource_iff {e : Engine} {a : Nat} : e.inSource a = true ↔
    e.lat.srcBase.toNat ≤ a ∧ a < e.lat.srcBase.toNat + e.lat.srcLen.toNat := inSpan_iff

theorem Engine.inDest_iff {e : Engine} {a : Nat} : e.inDest a = true ↔
    e.lat.dstBase.toNat ≤ a ∧ a < e.lat.dstBase.toNat + e.lat.dstSize.toNat := inSpan_iff

/-- Two ranges meet exactly when they share an address. -/
theorem spansMeet_iff {b n b' n' : Nat} :
    spansMeet b n b' n' = true ↔ ∃ a, inSpan b n a = true ∧ inSpan b' n' a = true := by
  simp only [spansMeet, inSpan, decide_eq_true_eq]
  constructor
  · rintro ⟨h1, h2, h3, h4⟩
    exact ⟨max b b', by omega, by omega⟩
  · rintro ⟨a, h1, h2⟩
    omega

theorem spansMeet_comm (b n b' n' : Nat) : spansMeet b n b' n' = spansMeet b' n' b n := by
  rw [Bool.eq_iff_iff, spansMeet_iff, spansMeet_iff]
  exact exists_congr fun a => and_comm

theorem spansMeet_false {b n b' n' a : Nat} (h : spansMeet b n b' n' = false)
    (ha : inSpan b n a = true) : inSpan b' n' a = false := by
  by_contra hc
  rw [Bool.not_eq_false] at hc
  rw [spansMeet_iff.2 ⟨a, ha, hc⟩] at h
  exact Bool.noConfusion h

theorem Engine.busy_iff {e : Engine} : e.busy = true ↔ e.engState = .busy := by
  simp [Engine.busy]

theorem Engine.canMove_iff {e : Engine} :
    e.canMove = true ↔ e.engState = .busy ∧ e.faulted = false ∧ e.stuck = false := by
  simp [Engine.canMove, Engine.busy, and_assoc]

theorem Engine.canMove_of_idle {e : Engine} (h : e.engState = .idle) : e.canMove = false := by
  simp [Engine.canMove, Engine.busy, h]

theorem Engine.groupFull_iff {e : Engine} : e.groupFull = true ↔ e.bitn = 8 := by
  simp [Engine.groupFull]

/-- STATUS.DONE is bit 1 of STATUS. -/
theorem Engine.statusWord_done (e : Engine) : e.statusWord.getLsbD 1 = e.regs.done := by
  unfold Engine.statusWord
  have := e.regs.code.isLt
  rw [BitVec.getLsbD, BitVec.toNat_ofNat, Nat.testBit_eq_decide_div_mod_eq]
  cases e.regs.done <;> cases e.busy <;> simp <;> omega

/-- Setting a control bit sets that bit alone. -/
theorem setControlBit_getLsbD (k : Byte) (i : BitVec 4) {j : Nat} (hj : j < 8) :
    (setControlBit k i).getLsbD j = (k.getLsbD j || decide (j = i.toNat)) := by
  unfold setControlBit
  rw [BitVec.getLsbD_or, BitVec.getLsbD_shiftLeft]
  by_cases h : j = i.toNat
  · subst h
    simp [hj]
  · by_cases h2 : j < i.toNat
    · simp [h, h2]
    · have : j - i.toNat ≠ 0 := by omega
      simp [h, hj, this, h2]

/-- A byte is owned exactly when it lies in a region of a running operation. -/
theorem State.ownedByOperation_iff {s : State} {a : Nat} :
    s.ownedByOperation a = true ↔
      ∃ e ∈ s.engines, e.engState = .busy ∧ (e.inSource a = true ∨ e.inDest a = true) := by
  simp only [State.ownedByOperation, List.any_eq_true, State.engines, Engine.holds, Bool.and_eq_true,
    Bool.or_eq_true, Engine.busy_iff]

/-- An engine's action always ends in a next state. -/
theorem State.orStick_total (s : State) (o : Option State) : ∃ t, s.orStick o = .next t := by
  cases o <;> exact ⟨_, rfl⟩

/-! ## Which instance acts -/

theorem swapIn_perm (p : Engine → Bool) (e : Engine) (l : List Engine) (r : Engine × List Engine)
    (h : swapIn p e l = some r) : List.Perm (r.1 :: r.2) (e :: l) ∧ p r.1 = true := by
  induction l generalizing r with
  | nil => simp [swapIn] at h
  | cons x xs ih =>
    unfold swapIn at h
    split at h
    · rename_i hx
      cases h
      exact ⟨List.Perm.swap _ _ _, hx⟩
    · simp only [Option.map_eq_some_iff] at h
      obtain ⟨r', hr', rfl⟩ := h
      obtain ⟨hp, ht⟩ := ih r' hr'
      exact ⟨(List.Perm.swap _ _ _).trans ((hp.cons x).trans (List.Perm.swap _ _ _)), ht⟩

theorem swapIn_none (p : Engine → Bool) (e : Engine) (l : List Engine) :
    swapIn p e l = none ↔ ∀ x ∈ l, p x = false := by
  induction l with
  | nil => simp [swapIn]
  | cons x xs ih =>
    by_cases hx : p x = true
    · simp [swapIn, hx]
    · simp [swapIn, hx, ih]

/-- Choosing the acting instance reorders the instances and changes nothing else. -/
theorem State.focusBy_spec {s t : State} {p : Engine → Bool} (h : s.focusBy p = some t) :
    List.Perm t.engines s.engines ∧ p t.eng = true ∧ t = { s with eng := t.eng, others :=
        t.others } := by
  unfold State.focusBy at h
  split at h
  · rename_i hp
    cases h
    exact ⟨.refl _, hp, rfl⟩
  · simp only [Option.map_eq_some_iff] at h
    obtain ⟨r, hr, rfl⟩ := h
    obtain ⟨h1, h2⟩ := swapIn_perm p _ _ r hr
    exact ⟨h1, h2, rfl⟩

theorem State.focusBy_of_holds {s : State} {p : Engine → Bool} (h : p s.eng = true) :
    s.focusBy p = some s := by
  simp [State.focusBy, h]

theorem State.focusBy_none {s : State} {p : Engine → Bool} :
    s.focusBy p = none ↔ ∀ e ∈ s.engines, p e = false := by
  unfold State.focusBy State.engines
  by_cases hp : p s.eng = true
  · simp [hp]
  · simp [hp, swapIn_none]

/-! ## Elements of the stream -/

theorem State.groupOpen_eq_some {s t : State} {k : Byte} :
    s.groupOpen k = some t ↔
      s.platform.ordinary (s.eng.dstAddress s.eng.enc.opos.toNat) = true ∧
      t = { s with
        mem := Memory.write s.mem (s.eng.dstAddress s.eng.enc.opos.toNat) k
        eng := { s.eng with
          bitn := 0
          enc := { s.eng.enc with
            cmap := s.eng.enc.opos.setWidth 32, cbyte := k, opos := s.eng.enc.opos + 1 } } } := by
  simp only [State.groupOpen, Option.map_eq_some_iff, State.memWrite_eq_some]
  constructor
  · rintro ⟨u, ⟨h, rfl⟩, rfl⟩
    exact ⟨h, rfl⟩
  · rintro ⟨h, rfl⟩
    exact ⟨_, ⟨h, rfl⟩, rfl⟩

theorem State.emitLiteral_eq_some {s t : State} {b : Byte} :
    s.emitLiteral b = some t ↔
      s.platform.ordinary (s.eng.dstAddress s.eng.enc.opos.toNat) = true ∧
      t = { s with
        mem := Memory.write s.mem (s.eng.dstAddress s.eng.enc.opos.toNat) b
        eng := { s.eng with
          bitn := s.eng.bitn + 1
          enc := { s.eng.enc with opos := s.eng.enc.opos + 1, pos := s.eng.enc.pos + 1 } } } := by
  simp only [State.emitLiteral, Option.map_eq_some_iff, State.memWrite_eq_some]
  constructor
  · rintro ⟨u, ⟨h, rfl⟩, rfl⟩
    exact ⟨h, rfl⟩
  · rintro ⟨h, rfl⟩
    exact ⟨_, ⟨h, rfl⟩, rfl⟩

theorem State.emitMatch_eq_some {s t : State} {n : BitVec 6} {off : BitVec 10} :
    s.emitMatch n off = some t ↔
      s.platform.ordinary (s.eng.dstAddress s.eng.enc.cmap.toNat) = true ∧
      s.platform.ordinary (s.eng.dstAddress s.eng.enc.opos.toNat) = true ∧
      s.platform.ordinary (s.eng.dstAddress (s.eng.enc.opos.toNat + 1)) = true ∧
      t = { s with
        mem := Memory.write (Memory.write (Memory.write s.mem
            (s.eng.dstAddress s.eng.enc.cmap.toNat) (setControlBit s.eng.enc.cbyte s.eng.bitn))
            (s.eng.dstAddress s.eng.enc.opos.toNat) (matchByte0 n off))
            (s.eng.dstAddress (s.eng.enc.opos.toNat + 1)) (matchByte1 off)
        eng := { s.eng with
          bitn := s.eng.bitn + 1
          enc := { s.eng.enc with
            cbyte := setControlBit s.eng.enc.cbyte s.eng.bitn
            opos := s.eng.enc.opos + 2
            pos := s.eng.enc.pos + BitVec.ofNat 33 (matchLength n) } } } := by
  simp only [State.emitMatch, Option.map_eq_some_iff, Option.bind_eq_some_iff, State.memWrite_eq_some]
  constructor
  · rintro ⟨u, ⟨h1, rfl⟩, v, ⟨h2, rfl⟩, w, ⟨h3, rfl⟩, rfl⟩
    exact ⟨h1, h2, h3, rfl⟩
  · rintro ⟨h1, h2, h3, rfl⟩
    exact ⟨_, ⟨h1, rfl⟩, _, ⟨h2, rfl⟩, _, ⟨h3, rfl⟩, rfl⟩

theorem State.decodeLiteral_eq_some {s t : State} {b : Byte} :
    s.decodeLiteral b = some t ↔
      s.platform.ordinary (s.eng.dstAddress s.eng.dec.op.toNat) = true ∧
      t = { s with
        mem := Memory.write s.mem (s.eng.dstAddress s.eng.dec.op.toNat) b
        eng := { s.eng with
          bitn := s.eng.bitn + 1
          dec := { s.eng.dec with ip := s.eng.dec.ip + 1, op := s.eng.dec.op + 1 } } } := by
  simp only [State.decodeLiteral, Option.map_eq_some_iff, State.memWrite_eq_some]
  constructor
  · rintro ⟨u, ⟨h, rfl⟩, rfl⟩
    exact ⟨h, rfl⟩
  · rintro ⟨h, rfl⟩
    exact ⟨_, ⟨h, rfl⟩, rfl⟩

theorem State.copyByte_eq_some {s t : State} :
    s.copyByte = some t ↔
      s.platform.ordinary (s.eng.dstAddress s.eng.dec.cpy.toNat) = true ∧
      s.platform.ordinary (s.eng.dstAddress s.eng.dec.op.toNat) = true ∧
      t = { s with
        mem := Memory.write s.mem (s.eng.dstAddress s.eng.dec.op.toNat)
          (Memory.read s.mem (s.eng.dstAddress s.eng.dec.cpy.toNat))
        eng := { s.eng with
          dec := { s.eng.dec with op := s.eng.dec.op + 1, cpy := s.eng.dec.cpy + 1 } } } := by
  simp only [State.copyByte, Option.map_eq_some_iff, Option.bind_eq_some_iff, State.memWrite_eq_some,
    State.memRead_eq_some]
  constructor
  · rintro ⟨b, ⟨h1, rfl⟩, u, ⟨h2, rfl⟩, rfl⟩
    exact ⟨h1, h2, rfl⟩
  · rintro ⟨h1, h2, rfl⟩
    exact ⟨_, ⟨h1, rfl⟩, _, ⟨h2, rfl⟩, rfl⟩

/-- Everything a copy can do: it advances OP and CPY by the number of bytes copied, which is what is asked for unless
dst_size cuts it off, and writes only the bytes from OP up to the new OP. -/
theorem State.overlapCopy_spec {n : Nat} {s t : State} (h : State.overlapCopy n s = some t)
    (hop : s.eng.dec.op.toNat ≤ s.eng.lat.dstSize.toNat) :
    ∃ m, m = min n (s.eng.lat.dstSize.toNat - s.eng.dec.op.toNat) ∧
      t.eng = { s.eng with
        dec := { s.eng.dec with
          op := s.eng.dec.op + BitVec.ofNat 33 m, cpy := s.eng.dec.cpy + BitVec.ofNat 33 m } } ∧
      t = { s with mem := t.mem, eng := t.eng } ∧
      (Memory.wf s.mem = true → Memory.wf t.mem = true) ∧
      ∀ a, ¬ (s.eng.dstAddress s.eng.dec.op.toNat ≤ a ∧
              a < s.eng.dstAddress s.eng.dec.op.toNat + m) →
        Memory.read t.mem a = Memory.read s.mem a := by
  induction n generalizing s with
  | zero =>
    cases h
    exact ⟨0, by simp, by simp, rfl, id, fun _ _ => rfl⟩
  | succ n ih =>
    unfold State.overlapCopy at h
    split at h
    · rename_i hge
      cases h
      exact ⟨0, by omega, by simp, rfl, id, fun _ _ => rfl⟩
    · rename_i hlt
      simp only [Option.bind_eq_some_iff] at h
      obtain ⟨u, hu, ht⟩ := h
      obtain ⟨-, -, rfl⟩ := State.copyByte_eq_some.1 hu
      have hs := s.eng.lat.dstSize.isLt
      have hop1 : (s.eng.dec.op + 1).toNat = s.eng.dec.op.toNat + 1 := by
        rw [BitVec.toNat_add]
        simp
        omega
      obtain ⟨m, hm, he, hst, hwf, hfr⟩ := ih ht (by simp only [hop1]; omega)
      simp only [hop1] at hm he hfr
      refine ⟨m + 1, by omega, ?_, ?_, fun hw => hwf (Memory.wf_write _ _ _ hw), fun a ha => ?_⟩
      · rw [he]
        rw [BitVec.ofNat_add, BitVec.add_comm (BitVec.ofNat 33 m)]
        simp only [BitVec.add_assoc]
        rfl
      · rw [hst]
      · rw [hfr a (by simp only [Engine.dstAddress] at ha ⊢; omega)]
        exact Memory.read_write_ne _ _ (by simp only [Engine.dstAddress] at ha ⊢; omega)

/-- A copy changes memory, OP and CPY only. -/
theorem State.overlapCopy_frame {n : Nat} {s t : State} (h : State.overlapCopy n s = some t) :
    t = { s with
      mem := t.mem
      eng := { s.eng with dec := { s.eng.dec with op := t.eng.dec.op, cpy := t.eng.dec.cpy } } } := by
  induction n generalizing s with
  | zero => cases h; rfl
  | succ n ih =>
    unfold State.overlapCopy at h
    split at h
    · cases h; rfl
    · simp only [Option.bind_eq_some_iff] at h
      obtain ⟨u, hu, ht⟩ := h
      obtain ⟨-, -, rfl⟩ := State.copyByte_eq_some.1 hu
      rw [ih ht]

/-- Everything a match token can do in DECOMPRESS. -/
theorem State.decodeMatch_cases {s t : State} {n off} (h : s.decodeMatch n off = some t) :
    ((s.eng.unpackMatch n off).badOffset off = true ∧
      t = s.setEng (s.eng.unpackMatch n off).corruptStream) ∨
    ((s.eng.unpackMatch n off).badOffset off = false ∧
      ∃ u, State.overlapCopy (matchLength n) (s.setEng ((s.eng.unpackMatch n off).setCopy off)) =
        some u ∧ t = u.setEng u.eng.advanceBit) := by
  unfold State.decodeMatch at h
  simp only [] at h
  split at h
  · rename_i hb
    cases h; exact .inl ⟨hb, rfl⟩
  · rename_i hb
    simp only [Option.map_eq_some_iff] at h
    obtain ⟨u, hu, rfl⟩ := h
    exact .inr ⟨by simpa using hb, u, hu, rfl⟩

/-- When the bounds check rejects a token. -/
theorem Engine.badOffset_iff (e : Engine) (off : BitVec 10) :
    e.badOffset off = true ↔ e.dec.op.toNat < off.toNat ∨ off = 0 := by
  simp [Engine.badOffset]

/-- A copy completes where the destination is backed. -/
theorem State.overlapCopy_total {n : Nat} {s : State}
    (hord : ∀ a, s.eng.inDest a = true → s.platform.ordinary a = true)
    (hc : s.eng.dec.cpy.toNat ≤ s.eng.dec.op.toNat) : ∃ t, State.overlapCopy n s = some t := by
  induction n generalizing s with
  | zero => exact ⟨_, rfl⟩
  | succ n ih =>
    unfold State.overlapCopy
    split
    · exact ⟨_, rfl⟩
    · have hsz := s.eng.lat.dstSize.isLt
      have hu := State.copyByte_eq_some.2 ⟨hord _ (Engine.inDest_iff.2 ⟨Nat.le_add_right _ _,
          Nat.add_lt_add_left (by omega) _⟩), hord _ (Engine.inDest_iff.2 ⟨Nat.le_add_right _ _,
          Nat.add_lt_add_left (by omega) _⟩), rfl⟩
      rw [hu, Option.bind_some]
      apply ih
      · exact hord
      · show (s.eng.dec.cpy + 1).toNat ≤ (s.eng.dec.op + 1).toNat
        simp only [BitVec.toNat_add]
        have : (1#33).toNat = 1 := rfl
        simp [this]; omega

/-- A copy that completes has reached no byte without memory: neither the bytes it reads nor those it writes. -/
theorem State.overlapCopy_ordinary {n : Nat} {s t : State} (h : State.overlapCopy n s = some t)
    (hc : s.eng.dec.cpy.toNat ≤ s.eng.dec.op.toNat) :
    ∀ c, c < min n (s.eng.lat.dstSize.toNat - s.eng.dec.op.toNat) →
      s.platform.ordinary (s.eng.lat.dstBase.toNat + (s.eng.dec.cpy.toNat + c)) = true ∧
      s.platform.ordinary (s.eng.lat.dstBase.toNat + (s.eng.dec.op.toNat + c)) = true := by
  induction n generalizing s with
  | zero => intro c hlt; omega
  | succ n ih =>
    unfold State.overlapCopy at h
    split at h
    · intro c hlt; omega
    · simp only [Option.bind_eq_some_iff] at h
      obtain ⟨u, hu, ht⟩ := h
      obtain ⟨h1, h2, rfl⟩ := State.copyByte_eq_some.1 hu
      have hsz := s.eng.lat.dstSize.isLt
      have hop1 : (s.eng.dec.op + 1).toNat = s.eng.dec.op.toNat + 1 := by
        rw [BitVec.toNat_add]; simp; omega
      have hcp1 : (s.eng.dec.cpy + 1).toNat = s.eng.dec.cpy.toNat + 1 := by
        rw [BitVec.toNat_add]; simp; omega
      intro c hlt
      cases c with
      | zero => exact ⟨h1, h2⟩
      | succ c =>
        have := ih ht (by simp only [hop1, hcp1]; omega) c (by simp only [hop1]; omega)
        simp only [hop1, hcp1] at this
        rw [show s.eng.dec.cpy.toNat + (c + 1) = s.eng.dec.cpy.toNat + 1 + c by omega,
          show s.eng.dec.op.toNat + (c + 1) = s.eng.dec.op.toNat + 1 + c by omega]
        exact this

/-- After a copy every byte written equals the byte OFF before it. -/
theorem State.overlapCopy_repeats {n : Nat} {s t : State} (h : State.overlapCopy n s = some t)
    (off : Nat) (hop : s.eng.dec.op.toNat ≤ s.eng.lat.dstSize.toNat) (h0 : 1 ≤ off)
    (hc : s.eng.dec.cpy.toNat + off = s.eng.dec.op.toNat) :
    ∀ k, k < min n (s.eng.lat.dstSize.toNat - s.eng.dec.op.toNat) →
      Memory.read t.mem (s.eng.lat.dstBase.toNat + s.eng.dec.op.toNat + k) =
          Memory.read t.mem (s.eng.lat.dstBase.toNat + s.eng.dec.op.toNat + k - off) := by
  induction n generalizing s with
  | zero => intro k hk; omega
  | succ n ih =>
    have h' := h
    unfold State.overlapCopy at h
    split at h
    · intro k hk; omega
    · simp only [Option.bind_eq_some_iff] at h
      obtain ⟨u, hu, ht⟩ := h
      obtain ⟨-, -, rfl⟩ := State.copyByte_eq_some.1 hu
      have hsz := s.eng.lat.dstSize.isLt
      have hop1 : (s.eng.dec.op + 1).toNat = s.eng.dec.op.toNat + 1 := by
        rw [BitVec.toNat_add]; simp; omega
      have hcp1 : (s.eng.dec.cpy + 1).toNat = s.eng.dec.cpy.toNat + 1 := by
        rw [BitVec.toNat_add]; simp; omega
      intro k hk
      by_cases hk0 : k = 0
      · subst hk0
        obtain ⟨m, -, -, -, -, hfr⟩ := State.overlapCopy_spec ht (by simp only [hop1]; omega)
        simp only [hop1, Engine.dstAddress] at hfr ⊢
        rw [hfr _ (by omega), hfr _ (by omega), Memory.read_write, Memory.read_write,
            if_pos (by omega), if_neg (by omega)]
        congr 1
        omega
      · have := ih ht (by simp only [hop1]; omega) (by simp only [hop1, hcp1]; omega) (k-1)
            (by simp only [hop1]; omega)
        simp only [hop1] at this
        rw [show s.eng.lat.dstBase.toNat + (s.eng.dec.op.toNat + 1) + (k - 1) =
            s.eng.lat.dstBase.toNat + s.eng.dec.op.toNat + k by omega] at this
        exact this

end Sys2Proof.Machine
end

