-- ==== Sys2Proof/Laws/Commands.lean ====
section
/-! SUPPORT. What a START can do, and when the placement checks pass. -/

namespace Sys2Proof.Machine

/-- Everything a START can do: a refusal while BUSY; BAD_OP; a refused placement; the acceptance. OP is stored in each. -/
theorem startCommand_cases {s t : State} {op : BitVec 2} (h : s.startCommand op = .next t) :
    (s.eng.engState = .busy ∧ t = (s.setEng (s.eng.setCtrlOp op)).refuse .startWhileBusy) ∨
    (s.eng.engState = .idle ∧
      ((operationOf op = none ∧ t = s.setEng (s.eng.setCtrlOp op).badOpCompletion) ∨
       ∃ o, operationOf op = some o ∧
         ((∃ r, s.placement = some r ∧ t = (s.setEng (s.eng.setCtrlOp op)).refuse r) ∨
          (s.placement = none ∧ t = s.setEng ((s.eng.setCtrlOp op).accept o))))) := by
  unfold State.startCommand at h
  simp only [] at h
  split at h
  · rename_i hb
    cases h
    exact .inl ⟨Engine.busy_iff.1 hb, rfl⟩
  · rename_i hb
    have hi : s.eng.engState = .idle := by
      cases he : s.eng.engState with
      | idle => rfl
      | busy => exact absurd (by simp [Engine.busy, he]) hb
    refine .inr ⟨hi, ?_⟩
    split at h
    · rename_i ho
      cases h
      exact .inl ⟨ho, rfl⟩
    · rename_i o ho
      split at h
      · rename_i r hp
        cases h
        exact .inr ⟨o, ho, .inl ⟨r, hp, rfl⟩⟩
      · rename_i hp
        cases h
        exact .inr ⟨o, ho, .inr ⟨hp, rfl⟩⟩

/-- A START always ends in a next state. -/
theorem startCommand_total (s : State) (op : BitVec 2) : ∃ t, s.startCommand op = .next t := by
  unfold State.startCommand
  simp only []
  split
  · exact ⟨_, rfl⟩
  · split
    · exact ⟨_, rfl⟩
    · split <;> exact ⟨_, rfl⟩

/-- A START changes the instance it addresses and the mark `refused` only, and not that instance's REG_BASE. -/
theorem startCommand_frame {s t : State} {op : BitVec 2} (h : s.startCommand op = .next t) :
    t.eng.regBase = s.eng.regBase ∧ t = { s with eng := t.eng, refused := t.refused } := by
  rcases startCommand_cases h with ⟨-, rfl⟩ | ⟨-, ⟨-, rfl⟩ | ⟨o, -, ⟨r, -, rfl⟩ | ⟨-, rfl⟩⟩⟩
  · exact ⟨rfl, rfl⟩
  · exact ⟨rfl, rfl⟩
  · exact ⟨rfl, rfl⟩
  · cases o <;> exact ⟨rfl, rfl⟩

/-- While BUSY a START is refused, with its OP stored. -/
theorem startCommand_of_busy {s : State} (op : BitVec 2) (h : s.eng.engState = .busy) :
    s.startCommand op = .next ((s.setEng (s.eng.setCtrlOp op)).refuse .startWhileBusy) := by
  have : (s.setEng (s.eng.setCtrlOp op)).eng.busy = true := Engine.busy_iff.2 h
  simp only [State.startCommand, this, if_true]

/-- The placement checks pass where the buffers are placed as R135 asks. -/
theorem State.placement_eq_none {s : State} (h : s.placed) : s.placement = none := by
  obtain ⟨h1, h2, h3, h4⟩ := h
  unfold State.placement
  simp only []
  rw [if_neg, if_neg, if_neg, if_neg]
  · intro hc
    rw [List.any_eq_true] at hc
    obtain ⟨g, hg, hm⟩ := hc
    simp only [Engine.meetsNonMemory, Bool.and_eq_true, decide_eq_true_eq, Bool.or_eq_true] at hm
    apply h4
    rcases hm with ⟨hk, hm | hm⟩ <;> obtain ⟨a, ha, hb⟩ := spansMeet_iff.1 hm
    · exact ⟨g, hg, hk, a, hb, .inl (inSpan_iff.1 ha)⟩
    · exact ⟨g, hg, hk, a, hb, .inr (inSpan_iff.1 ha)⟩
  · intro hc
    rw [List.any_eq_true] at hc
    obtain ⟨r, hr, hm⟩ := hc
    simp only [Engine.clashes, Bool.and_eq_true, Bool.or_eq_true] at hm
    obtain ⟨hb, (hm | hm) | hm⟩ := hm <;> obtain ⟨a, ha, hb'⟩ := spansMeet_iff.1 hm
    · exact h3 ⟨r, hr, Engine.busy_iff.1 hb, a, .inl ⟨inSpan_iff.1 ha, .inl hb'⟩⟩
    · exact h3 ⟨r, hr, Engine.busy_iff.1 hb, a, .inl ⟨inSpan_iff.1 ha, .inr hb'⟩⟩
    · exact h3 ⟨r, hr, Engine.busy_iff.1 hb, a, .inr ⟨inSpan_iff.1 ha, hb'⟩⟩
  · intro hc
    obtain ⟨a, ha, hb⟩ := spansMeet_iff.1 hc
    exact h2 ⟨a, inSpan_iff.1 ha, inSpan_iff.1 hb⟩
  · exact h1

theorem State.placed_setCtrlOp {s : State} (op : BitVec 2) (h : s.placed)
    : (s.setEng (s.eng.setCtrlOp op)).placed := h

end Sys2Proof.Machine
end

