-- ==== Sys2Proof/Laws/Cursor.lean ====
section
/-! SUPPORT. The arithmetic of cursors and of the bit cursor, as natural numbers. -/

namespace Sys2Proof

/-- The bit cursor's advance below 8. -/
theorem bit_succ {b : BitVec 4} (h : b.toNat ≤ 8) (h8 : b ≠ 8) :
    (b + 1).toNat = b.toNat + 1 ∧ b.toNat < 8 := by
  have : b.toNat ≠ 8 := fun hc => h8 (BitVec.eq_of_toNat_eq hc)
  rw [BitVec.toNat_add]
  simp
  omega

/-- A cursor's advance that does not wrap. -/
theorem cursor_add {c : Cursor} {m : Nat} (h : c.toNat + m < 2 ^ 33) :
    (c + BitVec.ofNat 33 m).toNat = c.toNat + m := by
  rw [BitVec.toNat_add, BitVec.toNat_ofNat, Nat.mod_eq_of_lt (show m < 2 ^ 33 by omega),
    Nat.mod_eq_of_lt h]

theorem cursor_add_one {c : Cursor} (h : c.toNat + 1 < 2 ^ 33) : (c + 1).toNat = c.toNat + 1 :=
  cursor_add h

theorem cursor_add_two {c : Cursor} (h : c.toNat + 2 < 2 ^ 33) : (c + 2).toNat = c.toNat + 2 :=
  cursor_add h

/-- A cursor below 2^32 as a register value. -/
theorem cursor_word {c : Cursor} (h : c.toNat < 2 ^ 32) : (c.setWidth 32).toNat = c.toNat := by
  rw [BitVec.toNat_setWidth, Nat.mod_eq_of_lt h]

end Sys2Proof
end

