-- ==== Sys2Proof/Laws/Invariant.lean ====
section
/-! SUPPORT. The parts of the invariant: which updates of an engine keep it legal, and which changes of the state keep
the invariant. -/

namespace Sys2Proof.Machine

/-! ## One engine -/

theorem Engine.reset_legal (b : Word) : (Engine.reset b).Legal where
  code_range := by show (0 : BitVec 4).toNat ≤ 2; decide
  code_zero := fun _ => rfl
  busy_not_done := fun h => by cases h
  marks_busy := fun h => by rcases h with h | h <;> cases h
  fault_decompress := fun h => by cases h
  dict_wf := rfl
  bitn_range := fun h => by cases h
  src_fits := fun h => by cases h
  dst_fits := fun h => by cases h
  disjoint := fun h => by cases h
  pos_range := fun h => by cases h
  group_room := fun h => by cases h
  ip_range := fun h => by cases h
  op_range := fun h => by cases h

/-- The end of an operation leaves a legal engine. -/
theorem Engine.endOperation_legal {e : Engine} (hd : Dict.wf e.dict = true) (hf : e.faulted = false)
    (hs : e.stuck = false) {code : BitVec 4} (hc : code.toNat ≤ 2) (r i : Word) : (e.endOperation code r i).Legal where
  code_range := hc
  code_zero := fun h => by cases h
  busy_not_done := fun h => by cases h
  marks_busy := fun h => by
    rcases h with h | h
    · exact absurd (h.symm.trans hf) (by decide)
    · exact absurd (h.symm.trans hs) (by decide)
  fault_decompress := fun h => absurd (h.symm.trans hf) (by decide)
  dict_wf := hd
  bitn_range := fun h => by cases h
  src_fits := fun h => by cases h
  dst_fits := fun h => by cases h
  disjoint := fun h => by cases h
  pos_range := fun h => by cases h
  group_room := fun h => by cases h
  ip_range := fun h => by cases h
  op_range := fun h => by cases h

theorem Engine.stick_legal {e : Engine} (h : e.Legal) (hb : e.engState = .busy) :
    ({ e with stuck := true } : Engine).Legal :=
  { h with marks_busy := fun _ => hb }

theorem Engine.overrun_legal {e : Engine} (h : e.Legal) (hb : e.engState = .busy)
    (ho : e.opl = .decompress) : ({ e with faulted := true } : Engine).Legal :=
  { h with marks_busy := fun _ => hb, fault_decompress := fun _ => ho }

/-- A step of COMPRESS leaves a legal engine where its cursors stay in range. -/
theorem Engine.compress_legal {e : Engine} (h : e.Legal) (ho : e.opl = .compress)
    {bitn : BitVec 4} {off : BitVec 10} {dict : Dict} {enc : EncRegs}
    (hd : Dict.wf dict = true) (hbn : bitn.toNat ≤ 8) (hp : enc.pos.toNat ≤ e.lat.srcLen.toNat)
    (hg : (bitn = 8 ∧ enc.opos = 0) ∨
      (enc.opos.toNat + 2 * (8 - bitn.toNat) < e.lat.dstSize.toNat ∧ enc.cmap.toNat < enc.opos.toNat)) :
    ({ e with bitn := bitn, off := off, dict := dict, enc := enc } : Engine).Legal :=
  { h with
    dict_wf := hd
    bitn_range := fun _ => hbn
    pos_range := fun _ _ => hp
    group_room := fun _ _ => hg
    ip_range := fun _ h' => absurd (ho.symm.trans h') (by decide)
    op_range := fun _ h' => absurd (ho.symm.trans h') (by decide) }

/-- A step of DECOMPRESS leaves a legal engine where its cursors stay in range. -/
theorem Engine.decompress_legal {e : Engine} (h : e.Legal) (ho : e.opl = .decompress)
    {bitn : BitVec 4} {off : BitVec 10} {dec : DecRegs}
    (hbn : bitn.toNat ≤ 8) (hi : dec.ip.toNat ≤ e.lat.srcLen.toNat)
    (hp : dec.op.toNat ≤ e.lat.dstSize.toNat) :
    ({ e with bitn := bitn, off := off, dec := dec } : Engine).Legal :=
  { h with
    bitn_range := fun _ => hbn
    pos_range := fun _ h' => absurd (ho.symm.trans h') (by decide)
    group_room := fun _ h' => absurd (ho.symm.trans h') (by decide)
    ip_range := fun _ _ => hi
    op_range := fun _ _ => hp }

/-- A change of CTRL.OP or of the operand registers leaves a legal engine. -/
theorem Engine.regs_legal {e e' : Engine} (h : e.Legal) (he : e' = { e with regs := e'.regs })
    (hd : e'.regs.done = e.regs.done) (hc : e'.regs.code = e.regs.code) : e'.Legal := by
  rw [he]
  exact { h with
    code_range := by show e'.regs.code.toNat ≤ 2; rw [hc]; exact h.code_range
    code_zero := fun hx => by show e'.regs.code = 0; rw [hc]; exact h.code_zero (hd ▸ hx)
    busy_not_done := fun hx => by show e'.regs.done = false; rw [hd]; exact h.busy_not_done hx }

/-! ## The whole state -/

theorem State.Inv.eng_legal {s : State} (h : s.Inv) : s.eng.Legal := h.legal _ (by simp [State.engines])

theorem Engine.apart_symm {e f : Engine} (h : e.apart f) : f.apart e := by
  intro hf he
  obtain ⟨h1, h2, h3⟩ := h he hf
  exact ⟨by rwa [spansMeet_comm], by rwa [spansMeet_comm], by rwa [spansMeet_comm]⟩

/-- The invariant does not depend on the order of the instances. -/
theorem State.Inv.perm {s t : State} (h : s.Inv) (hp : List.Perm t.engines s.engines)
    (hm : t.mem = s.mem) : t.Inv where
  mem_wf := by rw [hm]; exact h.mem_wf
  legal := fun e he => h.legal e (hp.mem_iff.1 he)
  apart := (hp.symm.pairwise h.apart (fun h => Engine.apart_symm h))

theorem State.Inv.focus {s t : State} {p} (h : s.Inv) (hf : s.focusBy p = some t) : t.Inv := by
  obtain ⟨h1, -, h2⟩ := State.focusBy_spec hf
  exact State.Inv.perm h h1 (by rw [h2])

/-- The invariant after a change of the acting engine that keeps the operands of a running operation, and of memory. -/
theorem State.Inv.setAll {s : State} (h : s.Inv) {e : Engine} (hl : e.Legal)
    (ha : e.engState = .busy → s.eng.engState = .busy ∧ e.lat = s.eng.lat)
    {m : Memory} (hm : Memory.wf m = true) {p i r d f} :
    (⟨e, s.others, m, p, i, r, d, f⟩ : State).Inv where
  mem_wf := hm
  legal := by
    intro f hf
    simp only [State.engines, List.mem_cons] at hf
    rcases hf with rfl | hf
    · exact hl
    · exact h.legal f (by simp [State.engines, hf])
  apart := by
    have := h.apart
    simp only [State.engines, List.pairwise_cons] at this ⊢
    refine ⟨fun f hf hb hbf => ?_, this.2⟩
    obtain ⟨h1, h2⟩ := ha hb
    rw [h2]
    exact this.1 f hf h1 hbf

theorem State.Inv.setEng {s : State} (h : s.Inv) {e : Engine} (hl : e.Legal)
    (ha : e.engState = .busy → s.eng.engState = .busy ∧ e.lat = s.eng.lat) : (s.setEng e).Inv :=
  State.Inv.setAll h hl ha h.mem_wf

theorem State.Inv.same {s t : State} (h : s.Inv) (he : t.engines = s.engines) (hm : t.mem = s.mem) :
    t.Inv := State.Inv.perm h (by rw [he]) hm

/-- What the placement checks have established when they pass. -/
theorem State.placement_none_spec {s : State} (h : s.placement = none) :
    s.eng.regs.srcAddr.toNat + s.eng.regs.srcLen.toNat ≤ 2 ^ 32 ∧
    s.eng.regs.dstAddr.toNat + s.eng.regs.dstSize.toNat ≤ 2 ^ 32 ∧
    spansMeet s.eng.regs.srcAddr.toNat s.eng.regs.srcLen.toNat
        s.eng.regs.dstAddr.toNat s.eng.regs.dstSize.toNat = false ∧
    ∀ r ∈ s.others, s.eng.clashes r = false := by
  unfold State.placement at h
  simp only [] at h
  split at h
  · cases h
  rename_i h1
  split at h
  · cases h
  rename_i h2
  split at h
  · cases h
  rename_i h3
  simp only [Config.addrW] at h1
  refine ⟨by omega, by omega, by simpa using h2, ?_⟩
  intro r hr
  simp only [List.any_eq_true, not_exists, not_and, Bool.not_eq_true] at h3
  exact h3 r hr

/-- A host access never decodes to an element of the stream. -/
theorem decodeAccess_host {a : BusAccess} {i : Instr} (h : decodeAccess a = .ok i) :
    (∀ k, i ≠ .ctl k) ∧ (∀ b, i ≠ .lit b) ∧ ∀ n o, i ≠ .matchTok n o := by
  unfold decodeAccess at h
  split at h
  · cases h
  split at h
  · cases h
  split at h
  · cases h
  · cases h; simp
  · cases h
    unfold decodeCtrl
    simp only []
    split
    · split <;> (try split) <;> (try split) <;> simp
    · simp
  · cases h; simp

end Sys2Proof.Machine
end

