-- ==== Sys2Proof/Laws/MatchSearch.lean ====
section
/-! SUPPORT. What the parts of the match search can answer: the byte comparisons, the candidate check, the match
extension and the attempt made of them. -/

namespace Sys2Proof.Machine

/-- The shifted bytes do not meet, so the three parts of h0 add up. -/
theorem hashWord_eq (b0 b1 b2 : Byte) : hashWord b0 b1 b2 =
    b0.toNat * 65536 + b1.toNat * 256 + b2.toNat := by
  have h1 := b1.isLt; have h2 := b2.isLt
  unfold hashWord
  rw [Nat.or_assoc, ← Nat.shiftLeft_add_eq_or_of_lt (i := 8) (b := b2.toNat) h2,
    ← Nat.shiftLeft_add_eq_or_of_lt (i := 16) (by rw [Nat.shiftLeft_eq]; omega)]
  simp only [Nat.shiftLeft_eq]; omega

/-- Bytes found equal are equal. -/
theorem sameBytes_true {rd : Nat → Option Byte} {n x y : Nat} (h : sameBytes rd n x y = some true) :
    ∀ k, k < n → rd (x + k) = rd (y + k) := by
  induction n generalizing x y with
  | zero => intro k hk; omega
  | succ n ih =>
    simp only [sameBytes, Option.bind_eq_some_iff] at h
    obtain ⟨a, ha, b, hb, h⟩ := h
    split at h
    · rename_i hab
      subst hab
      intro k hk
      cases k with
      | zero => simp [ha, hb]
      | succ k =>
        have := ih h k (by omega)
        rw [show x + (k + 1) = x + 1 + k by omega, show y + (k + 1) = y + 1 + k by omega]
        exact this
    · cases h

/-- Bytes found different differ somewhere. -/
theorem sameBytes_false {rd : Nat → Option Byte} {n x y : Nat} (h : sameBytes rd n x y = some false) :
    ∃ k, k < n ∧ rd (x + k) ≠ rd (y + k) := by
  induction n generalizing x y with
  | zero => cases h
  | succ n ih =>
    simp only [sameBytes, Option.bind_eq_some_iff] at h
    obtain ⟨a, ha, b, hb, h⟩ := h
    split at h
    · obtain ⟨k, hk, hne⟩ := ih h
      refine ⟨k + 1, by omega, ?_⟩
      rw [show x + (k + 1) = x + 1 + k by omega, show y + (k + 1) = y + 1 + k by omega]
      exact hne
    · rename_i hab
      exact ⟨0, by omega, by simpa [ha, hb] using hab⟩

/-- The comparison completes where every byte below a limit can be read and both runs lie below it. -/
theorem sameBytes_total {rd : Nat → Option Byte} {n x y lim : Nat} (hrd : ∀ i, i < lim → ∃ b, rd i =
    some b)
    (hx : x + n ≤ lim) (hy : y + n ≤ lim) : ∃ r, sameBytes rd n x y = some r := by
  induction n generalizing x y with
  | zero => exact ⟨_, rfl⟩
  | succ n ih =>
    obtain ⟨a, ha⟩ := hrd x (by omega)
    obtain ⟨b, hb⟩ := hrd y (by omega)
    simp only [sameBytes, ha, hb, Option.bind_some]
    split
    · exact ih (by omega) (by omega)
    · exact ⟨_, rfl⟩

/-- The extension stops at the first unequal byte or when no room is left. -/
theorem matchExtension_spec {rd : Nat → Option Byte} {pos cand room len m : Nat}
    (h : matchExtension rd pos cand room len = some m) :
    len ≤ m ∧ m ≤ len + room ∧ (∀ k, len ≤ k → k < m → rd (pos + k) = rd (cand + k)) ∧
      (m < len + room → rd (pos + m) ≠ rd (cand + m)) := by
  induction room generalizing len with
  | zero => cases h; exact ⟨le_rfl, le_rfl, fun k h1 h2 => by omega, fun h => by omega⟩
  | succ room ih =>
    simp only [matchExtension, Option.bind_eq_some_iff] at h
    obtain ⟨a, ha, b, hb, h⟩ := h
    split at h
    · rename_i hab
      subst hab
      obtain ⟨h1, h2, h3, h4⟩ := ih h
      refine ⟨by omega, by omega, fun k hk1 hk2 => ?_, fun hm => h4 (by omega)⟩
      by_cases hk : k = len
      · subst hk; rw [ha, hb]
      · exact h3 k (by omega) hk2
    · rename_i hab
      cases h
      exact ⟨le_rfl, by omega, fun k h1 h2 => by omega, fun _ => by simpa [ha, hb] using hab⟩

/-- The extension completes where every byte below a limit can be read. -/
theorem matchExtension_total {rd : Nat → Option Byte} {pos cand room len lim : Nat} (hrd : ∀ i,
    i < lim → ∃ b, rd i = some b)
    (hp : pos + len + room ≤ lim) (hc : cand ≤ pos) : ∃ m, matchExtension rd pos cand room len =
        some m := by
  induction room generalizing len with
  | zero => exact ⟨_, rfl⟩
  | succ room ih =>
    obtain ⟨a, ha⟩ := hrd (pos + len) (by omega)
    obtain ⟨b, hb⟩ := hrd (cand + len) (by omega)
    simp only [matchExtension, ha, hb, Option.bind_some]
    split
    · exact ih (by omega)
    · exact ⟨_, rfl⟩

/-- What an accepted candidate satisfies. -/
theorem candidateCheck_true {rd : Nat → Option Byte} {pos : Nat} {off : BitVec 10} {cand : Int}
    (h : candidateCheck rd pos off cand = some true) : 0 ≤ cand ∧ off ≠ 0 ∧
        sameBytes rd 3 cand.toNat pos = some true := by
  unfold candidateCheck at h
  split at h
  · cases h
  split at h
  · cases h
  exact ⟨by omega, ‹_›, h⟩

/-- The comparison depends only on the bytes below a limit both runs lie below. -/
theorem sameBytes_congr {rd rd' : Nat → Option Byte} {lim : Nat} (h : ∀ i, i < lim → rd i = rd' i)
    {n x y : Nat} (hx : x + n ≤ lim) (hy : y + n ≤ lim) :
    sameBytes rd n x y = sameBytes rd' n x y := by
  induction n generalizing x y with
  | zero => rfl
  | succ n ih =>
    simp only [sameBytes, h x (by omega), h y (by omega),
      ih (show x + 1 + n ≤ lim by omega) (show y + 1 + n ≤ lim by omega)]

/-- The extension depends only on the bytes below a limit. -/
theorem matchExtension_congr {rd rd' : Nat → Option Byte} {lim : Nat}
    (h : ∀ i, i < lim → rd i = rd' i) {pos cand room len : Nat} (hp : pos + len + room ≤ lim)
    (hc : cand ≤ pos) : matchExtension rd pos cand room len = matchExtension rd' pos cand room len := by
  induction room generalizing len with
  | zero => rfl
  | succ n ih =>
    simp only [matchExtension, h (pos + len) (by omega), h (cand + len) (by omega),
      ih (show pos + (len + 1) + n ≤ lim by omega)]

/-- The comparison has no answer where the first byte that is not read as equal cannot be read. -/
theorem sameBytes_none {rd : Nat → Option Byte} {n x y c : Nat} (hc : c < n)
    (heq : ∀ j, j < c → rd (x + j) = rd (y + j)) (h : rd (x + c) = none ∨ rd (y + c) = none) :
    sameBytes rd n x y = none := by
  induction n generalizing x y c with
  | zero => omega
  | succ n ih =>
    cases c with
    | zero =>
      rcases h with h | h
      · simp [sameBytes, show rd x = none from h]
      · simp [sameBytes, show rd y = none from h]
    | succ c =>
      have h0 : rd x = rd y := heq 0 (by omega)
      have hr : sameBytes rd n (x + 1) (y + 1) = none := by
        refine ih (c := c) (by omega) (fun j hj => ?_) ?_
        · rw [show x + 1 + j = x + (j + 1) by omega, show y + 1 + j = y + (j + 1) by omega]
          exact heq (j + 1) (by omega)
        · rwa [show x + 1 + c = x + (c + 1) by omega, show y + 1 + c = y + (c + 1) by omega]
      simp only [sameBytes, ← h0]
      cases rd x <;> simp [hr]

/-- The extension has no answer where the first byte that is not read as equal cannot be read. -/
theorem matchExtension_none {rd : Nat → Option Byte} {pos cand room len c : Nat}
    (h1 : len ≤ c) (h2 : c < len + room)
    (heq : ∀ j, len ≤ j → j < c → rd (cand + j) = rd (pos + j))
    (h : rd (cand + c) = none ∨ rd (pos + c) = none) : matchExtension rd pos cand room len = none := by
  induction room generalizing len with
  | zero => omega
  | succ room ih =>
    by_cases hlc : len = c
    · subst hlc
      rcases h with h | h
      · simp [matchExtension, h]
      · simp [matchExtension, h]
    · have h0 := heq len le_rfl (by omega)
      have hr := ih (len := len + 1) (by omega) (by omega) (fun j hj hj' => heq j (by omega) hj')
      simp only [matchExtension, h0]
      cases rd (pos + len) <;> simp [hr]

/-- Everything an attempt can answer: the three bytes are read, the slot is overwritten, and the token is the literal or
the match with the length the extension found. -/
theorem matchAttempt_cases {base : Nat} {s : State} {i : Instr} {e : Engine} (h : s.matchAttempt base =
    some (i, e)) :
   ∃ b0 b1 b2 : Byte, s.srcByte s.eng.enc.pos.toNat = some b0 ∧
      s.srcByte (s.eng.enc.pos.toNat + 1) = some b1 ∧
      s.srcByte (s.eng.enc.pos.toNat + 2) = some b2 ∧
      ∃ e', e' = s.eng.afterUpdate base (hashIndex b0 b1 b2) ∧
      ((candidateCheck s.srcByte s.eng.enc.pos.toNat e'.off e'.enc.cand = some false ∧ i = .lit b0 ∧
          e = e') ∨
       (candidateCheck s.srcByte s.eng.enc.pos.toNat e'.off e'.enc.cand = some true ∧
         ∃ len, matchedLength s.srcByte s.eng.enc.pos.toNat e'.enc.cand.toNat = some len ∧
           i = .matchTok (lengthField len) e'.off ∧ e = e'.setMlen len)) := by
  simp only [State.matchAttempt, Option.bind_eq_some_iff] at h
  obtain ⟨b0, h0, b1, h1, b2, h2, acc, hacc, h⟩ := h
  refine ⟨b0, b1, b2, h0, h1, h2, _, rfl, ?_⟩
  cases acc with
  | false =>
    simp at h
    exact .inl ⟨hacc, h.1.symm, h.2.symm⟩
  | true =>
    simp only [if_true, Option.map_eq_some_iff] at h
    obtain ⟨len, hl, h⟩ := h
    cases h
    exact .inr ⟨hacc, len, hl, rfl, rfl⟩

end Sys2Proof.Machine
end

