-- ==== Sys2Proof/Laws/PerInstr.lean ====
section
/-! SUPPORT. Statements made instruction by instruction. Shape: the code of an instruction has the width, the alignment
and the length that its format in the opcode table gives it (10_state.md R39, 30_encoding.md R98). -/

namespace Sys2Proof.Laws.Shape

/-- A host command is an aligned 32-bit access below offset 0x20; an element has the bytes its position asks for. -/
def Statement (i : Instr) : Prop :=
  match encode i with
  | .access a => a.width = 32 ∧ a.offset % 4 = 0 ∧ a.offset < 0x20
  | .element p bs => bs.length = p.length

theorem startCompress (ign : BitVec 29) : Statement (.startCompress ign) := ⟨rfl, rfl, Reg.offset_lt .ctrl⟩
theorem startDecompress (ign : BitVec 29) : Statement (.startDecompress ign) := ⟨rfl, rfl, Reg.offset_lt .ctrl⟩
theorem startBadop00 (ign : BitVec 29) : Statement (.startBadop00 ign) := ⟨rfl, rfl, Reg.offset_lt .ctrl⟩
theorem startBadop11 (ign : BitVec 29) : Statement (.startBadop11 ign) := ⟨rfl, rfl, Reg.offset_lt .ctrl⟩
theorem setOp (op : BitVec 2) (ign : BitVec 29) : Statement (.setOp op ign) := ⟨rfl, rfl, Reg.offset_lt .ctrl⟩
theorem writeReg (r : Reg) (v : Word) : Statement (.writeReg r v) :=
  ⟨rfl, r.offset_aligned, r.offset_lt⟩
theorem readReg (r : Reg) : Statement (.readReg r) := ⟨rfl, r.offset_aligned, r.offset_lt⟩
theorem ctl (k : Byte) : Statement (.ctl k) := rfl
theorem lit (b : Byte) : Statement (.lit b) := rfl
theorem matchTok (n : BitVec 6) (off : BitVec 10) : Statement (.matchTok n off) := rfl

end Sys2Proof.Laws.Shape
end

