-- ==== Sys2Proof/Laws/Reset.lean ====
section
/-! SUPPORT. What a draw of a destination and the platform's reset do to memory and to the rest of the state. -/

namespace Sys2Proof.Machine

/-- Each backed byte of a drawn region is its own draw. -/
theorem drawBytes_read (p : Platform) (base draw n : Nat) (m : Memory) (j : Nat) (hj : j < n)
    (ho : p.ordinary (base + j) = true) :
    Memory.read (drawBytes p base draw n m) (base + j) = Config.freeByte (draw + j) := by
  induction n with
  | zero => omega
  | succ n ih =>
    unfold drawBytes
    simp only []
    by_cases hjn : j = n
    · subst hjn
      rw [if_pos ho, Memory.read_write, if_pos rfl]
    · split
      · rw [Memory.read_write_ne _ _ (by omega), ih (by omega)]
      · exact ih (by omega)

/-- A draw of a destination changes memory and the number of draws only. -/
theorem State.drawDest_frame (s : State) (e : Engine) : s.drawDest e =
    { s with mem := (s.drawDest e).mem, draws := s.draws + e.lat.dstSize.toNat } := rfl

/-- A draw of a destination changes no byte outside it. -/
theorem State.drawDest_read_ne (s : State) (e : Engine) {a : Nat} (h : e.inDest a = false) :
    Memory.read (s.drawDest e).mem a = Memory.read s.mem a := by
  apply drawBytes_read_ne
  rw [← Bool.not_eq_true, Engine.inDest_iff] at h
  exact h

/-- Each backed byte of a drawn destination is its own draw. -/
theorem State.drawDest_read (s : State) (e : Engine) {j : Nat} (hj : j < e.lat.dstSize.toNat)
    (ho : s.platform.ordinary (e.lat.dstBase.toNat + j) = true) :
    Memory.read (s.drawDest e).mem (e.lat.dstBase.toNat + j) = Config.freeByte (s.draws + j) :=
  drawBytes_read _ _ _ _ _ _ hj ho

/-- A draw of a destination keeps memory canonical. -/
theorem State.drawDest_wf (s : State) (e : Engine) (h : Memory.wf s.mem = true) :
    Memory.wf (s.drawDest e).mem = true := drawBytes_wf _ _ _ _ _ h

/-- Abandoning an operation changes memory and the number of draws only. -/
theorem State.abandon_frame (s : State) (e : Engine) : s.abandon e =
    { s with mem := (s.abandon e).mem, draws := (s.abandon e).draws } := by
  unfold State.abandon; split <;> rfl

theorem State.abandon_all_frame (l : List Engine) (s : State) : l.foldl State.abandon s =
    { s with mem := (l.foldl State.abandon s).mem, draws := (l.foldl State.abandon s).draws } := by
  induction l generalizing s with
  | nil => rfl
  | cons e l ih => rw [List.foldl_cons, ih, State.abandon_frame]

/-- Abandoning an operation changes no byte outside its destination. -/
theorem State.abandon_read (s : State) (e : Engine) (a : Nat)
    (h : e.engState = .busy → e.faulted = false → e.inDest a = false) :
    Memory.read (s.abandon e).mem a = Memory.read s.mem a := by
  unfold State.abandon
  split
  · rename_i hb
    simp only [Bool.and_eq_true, Bool.not_eq_true', Engine.busy_iff] at hb
    exact s.drawDest_read_ne e (h hb.1 hb.2)
  · rfl

theorem State.abandon_all_read (l : List Engine) (s : State) (a : Nat)
    (h : ∀ e ∈ l, e.engState = .busy → e.faulted = false → e.inDest a = false) :
    Memory.read (l.foldl State.abandon s).mem a = Memory.read s.mem a := by
  induction l generalizing s with
  | nil => rfl
  | cons e l ih =>
    rw [List.foldl_cons, ih _ (fun e he => h e (List.mem_cons_of_mem _ he)),
        State.abandon_read _ _ _ (h e List.mem_cons_self)]

/-- Abandoning an operation keeps memory canonical. -/
theorem State.abandon_wf (s : State) (e : Engine) (h : Memory.wf s.mem = true) :
    Memory.wf (s.abandon e).mem = true := by
  unfold State.abandon
  split
  · exact s.drawDest_wf e h
  · exact h

theorem State.abandon_all_wf (l : List Engine) (s : State) (h : Memory.wf s.mem = true) :
    Memory.wf (l.foldl State.abandon s).mem = true := by
  induction l generalizing s with
  | nil => exact h
  | cons e l ih => exact ih _ (State.abandon_wf _ _ h)

end Sys2Proof.Machine
end

