-- ==== Sys2Proof/Laws/Step.lean ====
section
/-! SUPPORT. Everything a step of an engine can do, said once: the cases of COMPRESS and of DECOMPRESS. -/

namespace Sys2Proof.Machine

/-! ## What an element runs, by operation -/

theorem exec_ctl_compress {s : State} (k : Byte) (hm : s.eng.canMove = true)
    (ho : s.eng.opl = .compress) : exec (.ctl k) s = s.orStick (s.groupOpen k) := by
  simp only [exec, execCtl, hm, ho, if_true]

theorem exec_ctl_decompress {s : State} (k : Byte) (hm : s.eng.canMove = true)
    (ho : s.eng.opl = .decompress) : exec (.ctl k) s = .next (s.controlFetch k) := by
  simp only [exec, execCtl, hm, ho, if_true]

theorem exec_lit_compress {s : State} (b : Byte) (hm : s.eng.canMove = true)
    (ho : s.eng.opl = .compress) : exec (.lit b) s = s.orStick (s.emitLiteral b) := by
  simp only [exec, execLit, hm, ho, if_true]

theorem exec_lit_decompress {s : State} (b : Byte) (hm : s.eng.canMove = true)
    (ho : s.eng.opl = .decompress) : exec (.lit b) s = s.orStick (s.decodeLiteral b) := by
  simp only [exec, execLit, hm, ho, if_true]

theorem exec_match_compress {s : State} (n : BitVec 6) (off : BitVec 10) (hm : s.eng.canMove = true)
    (ho : s.eng.opl = .compress) : exec (.matchTok n off) s = s.orStick (s.emitMatch n off) := by
  simp only [exec, execMatch, hm, ho, if_true]

theorem exec_match_decompress {s : State} (n : BitVec 6) (off : BitVec 10)
    (hm : s.eng.canMove = true) (ho : s.eng.opl = .decompress) :
    exec (.matchTok n off) s = s.orStick (s.decodeMatch n off) := by
  simp only [exec, execMatch, hm, ho, if_true]

/-! ## COMPRESS -/

/-- The engine after a token was chosen differs in the working registers of the attempt and in the dictionary. -/
theorem State.nextToken_frame {s : State} {i : Instr} {e : Engine} (h : s.nextToken = some (i, e)) :
    e = { s.eng with
      off := e.off
      dict := e.dict
      enc := { s.eng.enc with hidx := e.enc.hidx, cand := e.enc.cand, mlen := e.enc.mlen } } ∧
    (Dict.wf s.eng.dict = true → Dict.wf e.dict = true) := by
  unfold State.nextToken at h
  split at h
  · simp only [Option.map_eq_some_iff] at h
    obtain ⟨b, -, h⟩ := h
    cases h
    exact ⟨rfl, id⟩
  · obtain ⟨b0, b1, b2, -, -, -, e', rfl, ⟨-, -, rfl⟩ | ⟨-, len, -, -, rfl⟩⟩ := matchAttempt_cases h
    · exact ⟨rfl, fun hd => Dict.wf_write _ _ _ hd⟩
    · exact ⟨rfl, fun hd => Dict.wf_write _ _ _ hd⟩

/-- The token chosen: the literal at POS, or a match that ends at or before src_len. -/
theorem State.nextToken_instr {s : State} {i : Instr} {e : Engine} (h : s.nextToken = some (i, e)) :
    (∃ b, i = .lit b ∧ s.srcByte s.eng.enc.pos.toNat = some b) ∨
    (∃ n off, i = .matchTok n off ∧ s.eng.enc.pos.toNat + matchLength n ≤ s.eng.lat.srcLen.toNat) := by
  unfold State.nextToken at h
  split at h
  · simp only [Option.map_eq_some_iff] at h
    obtain ⟨b, hb, h⟩ := h
    cases h
    exact .inl ⟨b, rfl, hb⟩
  · rename_i hg
    obtain ⟨b0, b1, b2, h0, -, -, e', -, ⟨-, rfl, -⟩ | ⟨-, len, hl, rfl, -⟩⟩ := matchAttempt_cases h
    · exact .inl ⟨b0, rfl, h0⟩
    · refine .inr ⟨_, _, rfl, ?_⟩
      have hg' : s.eng.enc.pos.toNat + 66 ≤ s.eng.lat.srcLen.toNat := by
        simpa [Engine.tailGuard, Config.matchMax, Config.matchMin, Config.matchBits] using hg
      have hn := (lengthField len).isLt
      simp only [matchLength, Config.matchMin]
      omega

/-- OFFSET AND UPDATE depends only on the working registers and the dictionary. -/
theorem Engine.afterUpdate_congr {e f : Engine} (h1 : f.enc = e.enc) (h2 : f.dict = e.dict)
    (base : Nat) (i : BitVec 10) :
    f.afterUpdate base i = { f with
      off := (e.afterUpdate base i).off
      dict := (e.afterUpdate base i).dict
      enc := (e.afterUpdate base i).enc } := by
  simp only [Engine.afterUpdate, h1, h2]

/-- The attempt depends only on the working registers, the dictionary and the bytes of the source. -/
theorem State.matchAttempt_congr {s u : State} {base : Nat} (h1 : u.eng.enc = s.eng.enc)
    (h2 : u.eng.dict = s.eng.dict) (hp : s.eng.enc.pos.toNat + 66 ≤ s.eng.lat.srcLen.toNat)
    (hrd : ∀ i, i < s.eng.lat.srcLen.toNat → s.srcByte i = u.srcByte i) :
    u.matchAttempt base = (s.matchAttempt base).map fun r =>
      (r.1, { u.eng with off := r.2.off, dict := r.2.dict, enc := r.2.enc }) := by
  simp only [State.matchAttempt, h1, ← hrd s.eng.enc.pos.toNat (by omega),
    ← hrd (s.eng.enc.pos.toNat + 1) (by omega), ← hrd (s.eng.enc.pos.toNat + 2) (by omega)]
  rcases s.srcByte s.eng.enc.pos.toNat with _ | b0
  · rfl
  rcases s.srcByte (s.eng.enc.pos.toNat + 1) with _ | b1
  · rfl
  rcases s.srcByte (s.eng.enc.pos.toNat + 2) with _ | b2
  · rfl
  simp only [Option.bind_some]
  have hcand : (s.eng.afterUpdate base (hashIndex b0 b1 b2)).enc.cand.toNat ≤
      s.eng.enc.pos.toNat := by
    simp [candidatePos]
  rw [Engine.afterUpdate_congr h1 h2 base (hashIndex b0 b1 b2)]
  generalize s.eng.afterUpdate base (hashIndex b0 b1 b2) = e at hcand ⊢
  have hcc : candidateCheck u.srcByte s.eng.enc.pos.toNat e.off e.enc.cand =
      candidateCheck s.srcByte s.eng.enc.pos.toNat e.off e.enc.cand := by
    unfold candidateCheck
    rw [sameBytes_congr hrd (by simp only [Config.matchMin]; omega)
      (by simp only [Config.matchMin]; omega)]
  have hml : matchedLength u.srcByte s.eng.enc.pos.toNat e.enc.cand.toNat =
      matchedLength s.srcByte s.eng.enc.pos.toNat e.enc.cand.toNat := by
    unfold matchedLength
    rw [matchExtension_congr hrd
      (by simp [Config.matchMax, Config.matchMin, Config.matchBits]; omega) hcand]
  rw [hcc, hml]
  rcases candidateCheck s.srcByte s.eng.enc.pos.toNat e.off e.enc.cand with _ | _ | _
  · rfl
  · rfl
  · simp only [Option.bind_some, if_true]
    rcases matchedLength s.srcByte s.eng.enc.pos.toNat e.enc.cand.toNat with _ | len <;> rfl

/-- The token chosen depends only on the working registers, the dictionary and the bytes of the source. -/
theorem State.nextToken_congr {s u : State} (h1 : u.eng.enc = s.eng.enc)
    (h2 : u.eng.dict = s.eng.dict) (h3 : u.eng.lat.srcLen = s.eng.lat.srcLen)
    (h4 : u.eng.off = s.eng.off) (hp : s.eng.enc.pos.toNat < s.eng.lat.srcLen.toNat)
    (hrd : ∀ i, i < s.eng.lat.srcLen.toNat → s.srcByte i = u.srcByte i) :
    u.nextToken = s.nextToken.map fun r =>
      (r.1, { u.eng with off := r.2.off, dict := r.2.dict, enc := r.2.enc }) := by
  have htg : u.eng.tailGuard = s.eng.tailGuard := by simp only [Engine.tailGuard, h1, h3]
  unfold State.nextToken
  rw [htg]
  split
  · rw [h1, ← hrd _ hp]
    rcases s.srcByte s.eng.enc.pos.toNat with _ | b
    · rfl
    · simp only [Option.map_some, ← h1, ← h2, ← h4]
  · rename_i hg
    exact State.matchAttempt_congr h1 h2 (by
      simpa [Engine.tailGuard, Config.matchMax, Config.matchMin, Config.matchBits] using hg) hrd

/-- Everything one step of COMPRESS can do. -/
theorem State.compressStep_cases {s t : State} (hm : s.eng.canMove = true)
    (ho : s.eng.opl = .compress) (h : s.compressStep = .next t) :
    (s.eng.lat.srcLen.toNat ≤ s.eng.enc.pos.toNat ∧ t = s.setEng s.eng.completeCompress) ∨
    (s.eng.enc.pos.toNat < s.eng.lat.srcLen.toNat ∧
      ((s.eng.bitn = 8 ∧ s.eng.lat.dstSize.toNat ≤ s.eng.enc.opos.toNat + 17 ∧
          t = s.setEng s.eng.sentinelAbort) ∨
       (s.eng.bitn = 8 ∧ s.eng.enc.opos.toNat + 17 < s.eng.lat.dstSize.toNat ∧
          s.orStick (s.groupOpen 0x00) = .next t) ∨
       (s.eng.bitn ≠ 8 ∧ s.nextToken = none ∧ t = s.stick) ∨
       (s.eng.bitn ≠ 8 ∧ ∃ b e, s.nextToken = some (.lit b, e) ∧
          (s.setEng e).orStick ((s.setEng e).emitLiteral b) = .next t) ∨
       (s.eng.bitn ≠ 8 ∧ ∃ n off e, s.nextToken = some (.matchTok n off, e) ∧
          s.eng.enc.pos.toNat + matchLength n ≤ s.eng.lat.srcLen.toNat ∧
          (s.setEng e).orStick ((s.setEng e).emitMatch n off) = .next t))) := by
  unfold State.compressStep at h
  simp only [] at h
  split at h
  · rename_i hp
    cases h
    exact .inl ⟨hp, rfl⟩
  rename_i hp
  refine .inr ⟨by omega, ?_⟩
  split at h
  · rename_i hb
    rw [Engine.groupFull_iff] at hb
    split at h
    · rename_i hc
      cases h
      exact .inl ⟨hb, by simpa [Engine.capacityExceeded, Config.capMargin] using hc, rfl⟩
    · rename_i hc
      refine .inr (.inl ⟨hb, by simpa [Engine.capacityExceeded, Config.capMargin] using hc, ?_⟩)
      rwa [exec_ctl_compress _ hm ho] at h
  · rename_i hb
    rw [Engine.groupFull_iff] at hb
    split at h
    · rename_i hn
      cases h
      exact .inr (.inr (.inl ⟨hb, hn, rfl⟩))
    · rename_i i e hn
      have hf := (State.nextToken_frame hn).1
      have hm' : (s.setEng e).eng.canMove = true := by
        show e.canMove = true
        rw [hf]
        exact hm
      have ho' : (s.setEng e).eng.opl = .compress := by
        show e.opl = .compress
        rw [hf]
        exact ho
      rcases State.nextToken_instr hn with ⟨b, rfl, -⟩ | ⟨n, off, rfl, hl⟩
      · refine .inr (.inr (.inr (.inl ⟨hb, b, e, hn, ?_⟩)))
        rwa [exec_lit_compress _ hm' ho'] at h
      · refine .inr (.inr (.inr (.inr ⟨hb, n, off, e, hn, hl, ?_⟩)))
        rwa [exec_match_compress _ _ hm' ho'] at h

/-! ## DECOMPRESS -/

/-- How many bytes the next element of the stream has. -/
theorem Engine.position_length (e : Engine) : e.position.length =
    if e.bitn ≠ 8 ∧ e.dec.ctl.getLsbD e.bitn.toNat = true then 2 else 1 := by
  unfold Engine.position controlBit
  by_cases h : e.bitn = 8
  · simp [Engine.groupFull, h, Position.length]
  · have hg : e.groupFull = false := by
      rw [← Bool.not_eq_true, Engine.groupFull_iff]
      exact h
    rw [hg]
    cases hc : e.dec.ctl.getLsbD e.bitn.toNat <;> simp [Position.length]
    exact h

/-- What DECOMPRESS fetches is what the bytes at IP decode to at its position. -/
theorem State.fetch_cases (s : State) :
    (s.eng.lat.srcLen.toNat < s.eng.dec.ip.toNat + s.eng.position.length ∧ s.fetch = .overrun) ∨
    (s.eng.dec.ip.toNat + s.eng.position.length ≤ s.eng.lat.srcLen.toNat ∧
      ((s.fetch = .stuck) ∨
       (s.eng.position = .control ∧ ∃ k, s.fetch = .element (.ctl k)) ∨
       (s.eng.position = .token false ∧ ∃ b, s.fetch = .element (.lit b)) ∨
       (s.eng.position = .token true ∧ ∃ n off, s.fetch = .element (.matchTok n off)))) := by
  unfold State.fetch
  by_cases hl : s.eng.dec.ip.toNat + s.eng.position.length > s.eng.lat.srcLen.toNat
  · exact .inl ⟨hl, by simp [hl]⟩
  · refine .inr ⟨by omega, ?_⟩
    simp only [hl, if_false]
    rcases hp : s.eng.position with _ | b
    · cases h0 : s.srcByte s.eng.dec.ip.toNat with
      | none => exact .inl (by simp [Position.length, readBytes, h0])
      | some k => exact .inr (.inl ⟨rfl, k, by simp [Position.length, readBytes, h0, decodeElement]⟩)
    · cases b with
      | false =>
        cases h0 : s.srcByte s.eng.dec.ip.toNat with
        | none => exact .inl (by simp [Position.length, readBytes, h0])
        | some k =>
          exact .inr (.inr (.inl ⟨rfl, k, by simp [Position.length, readBytes, h0, decodeElement]⟩))
      | true =>
        cases h0 : s.srcByte s.eng.dec.ip.toNat with
        | none => exact .inl (by simp [Position.length, readBytes, h0])
        | some k =>
          cases h1 : s.srcByte (s.eng.dec.ip.toNat + 1) with
          | none => exact .inl (by simp [Position.length, readBytes, h0, h1])
          | some k' =>
            exact .inr (.inr (.inr ⟨rfl, matchN k, matchOff k k', by
              simp [Position.length, readBytes, h0, h1, decodeElement]⟩))

/-- Everything one step of DECOMPRESS can do. -/
theorem State.decompressStep_cases {s t : State} (hm : s.eng.canMove = true)
    (ho : s.eng.opl = .decompress) (h : s.decompressStep = .next t) :
    (s.eng.lat.dstSize.toNat ≤ s.eng.dec.op.toNat ∧ t = s.setEng s.eng.completeDecompress) ∨
    (s.eng.dec.op.toNat < s.eng.lat.dstSize.toNat ∧
      ((s.eng.lat.srcLen.toNat < s.eng.dec.ip.toNat + s.eng.position.length ∧ t = s.overrun) ∨
       (s.eng.dec.ip.toNat + s.eng.position.length ≤ s.eng.lat.srcLen.toNat ∧
        (t = s.stick ∨
         (s.eng.position = .control ∧ ∃ k, t = s.controlFetch k) ∨
         (s.eng.position = .token false ∧ ∃ b, s.orStick (s.decodeLiteral b) = .next t) ∨
         (s.eng.position = .token true ∧ ∃ n off, s.orStick (s.decodeMatch n off) = .next t))))) := by
  unfold State.decompressStep at h
  simp only [] at h
  split at h
  · rename_i hp
    cases h
    exact .inl ⟨hp, rfl⟩
  rename_i hp
  refine .inr ⟨by omega, ?_⟩
  rcases s.fetch_cases with ⟨hl, hf⟩ | ⟨hl, hf | ⟨hp, k, hf⟩ | ⟨hp, b, hf⟩ | ⟨hp, n, off, hf⟩⟩
  · simp only [hf] at h
    cases h
    exact .inl ⟨hl, rfl⟩
  · simp only [hf] at h
    cases h
    exact .inr ⟨hl, .inl rfl⟩
  · simp only [hf, exec_ctl_decompress _ hm ho] at h
    cases h
    exact .inr ⟨hl, .inr (.inl ⟨hp, k, rfl⟩)⟩
  · simp only [hf, exec_lit_decompress _ hm ho] at h
    exact .inr ⟨hl, .inr (.inr (.inl ⟨hp, b, h⟩))⟩
  · simp only [hf, exec_match_decompress _ _ hm ho] at h
    exact .inr ⟨hl, .inr (.inr (.inr ⟨hp, n, off, h⟩))⟩

theorem State.engineStep_compress {s : State} (hm : s.eng.canMove = true)
    (ho : s.eng.opl = .compress) : s.engineStep = s.compressStep := by
  simp [State.engineStep, hm, ho]

theorem State.engineStep_decompress {s : State} (hm : s.eng.canMove = true)
    (ho : s.eng.opl = .decompress) : s.engineStep = s.decompressStep := by
  simp [State.engineStep, hm, ho]

theorem State.engineStep_rest {s : State} (hm : s.eng.canMove = false) : s.engineStep = .next s := by
  simp [State.engineStep, hm]

/-- A stream element always ends in a next state. -/
theorem exec_element_total {s : State} {i : Instr} (h : (∃ k, i = .ctl k) ∨ (∃ b, i = .lit b) ∨ ∃ n o,
    i = .matchTok n o) : ∃ t, exec i s = .next t := by
  rcases h with ⟨k, rfl⟩ | ⟨b, rfl⟩ | ⟨n, o, rfl⟩
  · simp only [exec, execCtl]; split
    · split
      · exact State.orStick_total _ _
      · exact ⟨_, rfl⟩
    · exact ⟨_, rfl⟩
  · simp only [exec, execLit]; split
    · split <;> exact State.orStick_total _ _
    · exact ⟨_, rfl⟩
  · simp only [exec, execMatch]; split
    · split <;> exact State.orStick_total _ _
    · exact ⟨_, rfl⟩

/-- An engine's step always ends in a next state. -/
theorem State.engineStep_total (s : State) : ∃ t, s.engineStep = .next t := by
  unfold State.engineStep
  split
  · split
    · unfold State.compressStep
      simp only []
      split
      · exact ⟨_, rfl⟩
      split
      · split
        · exact ⟨_, rfl⟩
        · exact exec_element_total (.inl ⟨_, rfl⟩)
      · split
        · exact ⟨_, rfl⟩
        · rename_i i e hn
          rcases State.nextToken_instr hn with ⟨b, rfl, -⟩ | ⟨n, off, rfl, -⟩
          · exact exec_element_total (.inr (.inl ⟨_, rfl⟩))
          · exact exec_element_total (.inr (.inr ⟨_, _, rfl⟩))
    · unfold State.decompressStep
      simp only []
      split
      · exact ⟨_, rfl⟩
      rcases s.fetch_cases with ⟨-, hf⟩ | ⟨-, hf | ⟨-, k, hf⟩ | ⟨-, b, hf⟩ | ⟨-, n, off, hf⟩⟩
          <;> simp only [hf]
      · exact ⟨_, rfl⟩
      · exact ⟨_, rfl⟩
      · exact exec_element_total (.inl ⟨_, rfl⟩)
      · exact exec_element_total (.inr (.inl ⟨_, rfl⟩))
      · exact exec_element_total (.inr (.inr ⟨_, _, rfl⟩))
  · exact ⟨_, rfl⟩

/-! ## The step of the machine, by what acts -/

/-- A state without the mark takes the step. -/
theorem State.unlessRefused_of_none {s : State} (o : Outcome) (h : s.refused = none) :
    s.unlessRefused o = o := by
  simp [State.unlessRefused, h]

theorem step_access {s : State} {addr width : Nat} {data : Option Word} {rest : List Input}
    (hr : s.refused = none) (hin : s.inputs = .access addr width data :: rest) :
    step s = State.accessStep { s with inputs := rest } addr width data := by
  unfold step
  rw [hin]
  exact State.unlessRefused_of_none _ hr

theorem step_poll {s : State} {addr : Nat} {rest : List Input}
    (hr : s.refused = none) (hin : s.inputs = .poll addr :: rest) :
    step s = State.pollStep { s with inputs := rest } addr := by
  unfold step
  rw [hin]
  exact State.unlessRefused_of_none _ hr

theorem step_load {s : State} {addr : Nat} {rest : List Input}
    (hr : s.refused = none) (hin : s.inputs = .load addr :: rest) :
    step s = State.loadStep { s with inputs := rest } addr := by
  unfold step
  rw [hin]
  exact State.unlessRefused_of_none _ hr

theorem step_store {s : State} {addr : Nat} {v : Byte} {rest : List Input}
    (hr : s.refused = none) (hin : s.inputs = .store addr v :: rest) :
    step s = State.storeStep { s with inputs := rest } addr v := by
  unfold step
  rw [hin]
  exact State.unlessRefused_of_none _ hr

theorem step_turn {s : State} {addr : Nat} {rest : List Input}
    (hr : s.refused = none) (hin : s.inputs = .turn addr :: rest) :
    step s = State.turnStep { s with inputs := rest } addr := by
  unfold step
  rw [hin]
  exact State.unlessRefused_of_none _ hr

theorem step_reset {s : State} {rest : List Input} (hin : s.inputs = .reset :: rest) :
    step s = .next (State.platformReset { s with inputs := rest }) := by
  unfold step
  rw [hin]
  rfl

theorem step_engines {s : State} (hr : s.refused = none) (hin : s.inputs = []) :
    step s = s.enginesStep := by
  unfold step
  rw [hin]
  exact State.unlessRefused_of_none _ hr

/-- With no input left, the instance in focus takes its step where it can. -/
theorem step_focused {s : State} (hr : s.refused = none) (hin : s.inputs = [])
    (hm : s.eng.canMove = true) : step s = s.engineStep := by
  rw [step_engines hr hin]
  unfold State.enginesStep
  rw [State.focusBy_of_holds hm]

/-- A step, then the rest of a run. -/
theorem run_succ {s t : State} (h : step s = .next t) (n : Nat) :
    core.run (n + 1) s = core.run n t := by
  have key : ∀ (M : Host.Core) (s t : M.State), M.step s = .next t → M.run (n + 1) s = M.run n t :=
    fun M s t h => by simp [Host.Core.run, h]
  exact key core s t h

/-- A run of no steps. -/
theorem run_zero {s t : State} (h : core.run 0 s = .next t) : t = s := by
  have key : ∀ (M : Host.Core) (s t : M.State), M.run 0 s = .next t → t = s := fun M s t h => by
    simp only [Host.Core.run, Host.Outcome.next.injEq] at h
    exact h.symm
  exact key core s t h

/-- The first step of a run that ends in a next state. -/
theorem run_succ_inv {s t : State} {n : Nat} (h : core.run (n + 1) s = .next t) :
    ∃ u, step s = .next u ∧ core.run n u = .next t := by
  have key : ∀ (M : Host.Core) (s t : M.State), M.run (n + 1) s = .next t →
      ∃ u, M.step s = .next u ∧ M.run n u = .next t := fun M s t h => by
    simp only [Host.Core.run] at h
    split at h
    · exact ⟨_, ‹_›, h⟩
    · cases h
    · cases h
  exact key core s t h

/-- With no input left and no engine that can move, a next state is the same state. -/
theorem step_of_rest {s t : State} (hr : s.refused = none) (hin : s.inputs = [])
    (hm : ∀ e ∈ s.engines, e.canMove = false) (h : step s = .next t) : t = s := by
  rw [step_engines hr hin] at h
  unfold State.enginesStep at h
  rw [State.focusBy_none.2 hm] at h
  simp only [] at h
  split at h
  · cases h
  · cases h
    rfl

/-- The same of a run. -/
theorem run_of_rest {n : Nat} {s t : State} (hr : s.refused = none) (hin : s.inputs = [])
    (hm : ∀ e ∈ s.engines, e.canMove = false) (h : core.run n s = .next t) : t = s := by
  induction n with
  | zero => exact run_zero h
  | succ n ih =>
    obtain ⟨u, hu, hn⟩ := run_succ_inv h
    rw [step_of_rest hr hin hm hu] at hn
    exact ih hn

/-! ## The step of the machine, whole -/

/-- A decoded access is 32 bits wide. -/
theorem decodeAccess_width {a : BusAccess} {i : Instr} (h : decodeAccess a = .ok i) : a.width = 32 := by
  unfold decodeAccess at h
  split at h
  · cases h
  · rename_i hw
    simpa using hw

/-- Every instruction completes in every state: a refusal is a mark in the next state. -/
theorem exec_total (i : Instr) (s : State) : ∃ t, exec i s = .next t := by
  cases i with
  | startCompress ign => exact startCommand_total s _
  | startDecompress ign => exact startCommand_total s _
  | startBadop00 ign => exact startCommand_total s _
  | startBadop11 ign => exact startCommand_total s _
  | setOp op ign => exact ⟨_, rfl⟩
  | writeReg r v =>
    cases r with
    | ctrl =>
      simp only [exec, execWriteReg]
      split
      · exact startCommand_total s _
      · exact ⟨_, rfl⟩
    | _ => exact ⟨_, rfl⟩
  | readReg r => exact ⟨_, rfl⟩
  | ctl k => exact exec_element_total (.inl ⟨k, rfl⟩)
  | lit b => exact exec_element_total (.inr (.inl ⟨b, rfl⟩))
  | matchTok n off => exact exec_element_total (.inr (.inr ⟨n, off, rfl⟩))

/-- An instruction leaves the other instances, the platform and the inputs as they are, and the REG_BASE of its own
instance. -/
theorem exec_frame {i : Instr} {s t : State} (h : exec i s = .next t) :
    t.eng.regBase = s.eng.regBase ∧
    t = { s with
      eng := t.eng, mem := t.mem, responses := t.responses, draws := t.draws
      refused := t.refused } := by
  have start : ∀ op, s.startCommand op = .next t → t.eng.regBase = s.eng.regBase ∧
      t = { s with
        eng := t.eng, mem := t.mem, responses := t.responses, draws := t.draws
        refused := t.refused } := by
    intro op h
    obtain ⟨h1, h2⟩ := startCommand_frame h
    refine ⟨h1, ?_⟩
    rw [h2]
  cases i with
  | startCompress ign => exact start _ h
  | startDecompress ign => exact start _ h
  | startBadop00 ign => exact start _ h
  | startBadop11 ign => exact start _ h
  | setOp op ign => cases h; exact ⟨rfl, rfl⟩
  | writeReg r v =>
    cases r with
    | ctrl =>
      simp only [exec, execWriteReg] at h
      split at h
      · exact start _ h
      · cases h; exact ⟨rfl, rfl⟩
    | _ => cases h; exact ⟨rfl, rfl⟩
  | readReg r =>
    simp only [exec, execReadReg, State.readRegister] at h
    split at h <;> cases h <;> exact ⟨rfl, rfl⟩
  | ctl k =>
    simp only [exec, execCtl] at h
    split at h
    · split at h
      · rcases State.orStick_eq_next.1 h with h | ⟨-, rfl⟩
        · obtain ⟨-, rfl⟩ := State.groupOpen_eq_some.1 h
          exact ⟨rfl, rfl⟩
        · exact ⟨rfl, rfl⟩
      · cases h; exact ⟨rfl, rfl⟩
    · cases h; exact ⟨rfl, rfl⟩
  | lit b =>
    simp only [exec, execLit] at h
    split at h
    · split at h
      · rcases State.orStick_eq_next.1 h with h | ⟨-, rfl⟩
        · obtain ⟨-, rfl⟩ := State.emitLiteral_eq_some.1 h
          exact ⟨rfl, rfl⟩
        · exact ⟨rfl, rfl⟩
      · rcases State.orStick_eq_next.1 h with h | ⟨-, rfl⟩
        · obtain ⟨-, rfl⟩ := State.decodeLiteral_eq_some.1 h
          exact ⟨rfl, rfl⟩
        · exact ⟨rfl, rfl⟩
    · cases h; exact ⟨rfl, rfl⟩
  | matchTok n off =>
    simp only [exec, execMatch] at h
    split at h
    · split at h
      · rcases State.orStick_eq_next.1 h with h | ⟨-, rfl⟩
        · obtain ⟨-, -, -, rfl⟩ := State.emitMatch_eq_some.1 h
          exact ⟨rfl, rfl⟩
        · exact ⟨rfl, rfl⟩
      · rcases State.orStick_eq_next.1 h with h | ⟨-, rfl⟩
        · rcases State.decodeMatch_cases h with ⟨-, rfl⟩ | ⟨-, u, hu, rfl⟩
          · exact ⟨rfl, rfl⟩
          · rw [State.overlapCopy_frame hu]
            exact ⟨rfl, rfl⟩
        · exact ⟨rfl, rfl⟩
    · cases h; exact ⟨rfl, rfl⟩
/-- A read changes the responses and the number of draws only. -/
theorem readReg_frame {s t : State} {r : Reg} (h : exec (.readReg r) s = .next t) :
    t = { s with responses := t.responses, draws := t.draws } := by
  simp only [exec, execReadReg, State.readRegister] at h
  split at h <;> cases h <;> rfl

/-- What a step that is no reset, no engine's step and no decoded access leaves: the instances in some order, and memory
but for a byte no running operation owns. -/
structure Quiet (s t : State) : Prop where
  perm : t.engines.Perm s.engines
  platform : t.platform = s.platform
  mem : t.mem = s.mem ∨ ∃ a v, s.ownedByOperation a = false ∧ t.mem = Memory.write s.mem a v

/-- Everything an input other than reset can do. -/
theorem inputStep_cases {s t : State} {i : Input} (hi : i ≠ .reset) (h : s.inputStep i = .next t) :
    (∃ u : State, u.engines.Perm s.engines ∧ u = { s with eng := u.eng, others := u.others } ∧
      u.engineStep = .next t) ∨
    (∃ (u : State) (j : Instr) (addr : Nat) (v : Option Word), i = .access addr 32 v ∧ s.focusAt addr = some u ∧
      decodeAccess ⟨addr - u.eng.regBase.toNat, 32, v⟩ = .ok j ∧ exec j u = .next t) ∨
    Quiet s t := by
  have un : ∀ {o}, s.unlessRefused o = .next t → o = .next t := by
    intro o ho
    unfold State.unlessRefused at ho
    split at ho
    · cases ho
    · exact ho
  have quiet : ∀ {u : State}, u.engines = s.engines → u.platform = s.platform → u.mem = s.mem →
      Quiet s u := fun h1 h2 h3 => ⟨by rw [h1], h2, .inl h3⟩
  cases i with
  | access addr width data =>
    replace h := un h
    unfold State.accessStep at h
    split at h
    · cases h
      exact .inr (.inr (quiet rfl rfl rfl))
    · rename_i u hu
      obtain ⟨hp, -, hfr⟩ := State.focusBy_spec hu
      split at h
      · cases h
        exact .inr (.inr ⟨hp, by rw [hfr]; rfl, .inl (by rw [hfr]; rfl)⟩)
      · rename_i j hd
        have hw := decodeAccess_width hd
        simp only at hw
        subst hw
        exact .inr (.inl ⟨u, j, addr, data, rfl, hu, hd, h⟩)
  | poll addr =>
    replace h := un h
    unfold State.pollStep at h
    split at h
    · cases h
      exact .inr (.inr (quiet rfl rfl rfl))
    · rename_i u hu
      obtain ⟨hp, -, hfr⟩ := State.focusBy_spec hu
      have hu1 : u.platform = s.platform := by rw [hfr]
      have hu2 : u.mem = s.mem := by rw [hfr]
      split at h
      · rename_i v hv
        have hv := readReg_frame hv
        have q : Quiet s v := by
          rw [hv]
          exact ⟨hp, hu1, .inl hu2⟩
        split at h <;> cases h
        · exact .inr (.inr q)
        · exact .inr (.inr ⟨q.perm, q.platform, q.mem⟩)
      · cases h
        exact .inr (.inr ⟨hp, hu1, .inl hu2⟩)
      · cases h
  | load addr =>
    replace h := un h
    unfold State.loadStep at h
    split at h
    · cases h
      exact .inr (.inr (quiet rfl rfl rfl))
    · split at h <;> cases h <;> exact .inr (.inr (quiet rfl rfl rfl))
  | store addr v =>
    replace h := un h
    unfold State.storeStep at h
    split at h
    · cases h
      exact .inr (.inr (quiet rfl rfl rfl))
    · rename_i ho
      split at h
      · cases h
        exact .inr (.inr (quiet rfl rfl rfl))
      · rename_i u hu
        cases h
        obtain ⟨-, rfl⟩ := State.memWrite_eq_some.1 hu
        exact .inr (.inr ⟨.refl _, rfl, .inr ⟨addr, v, by simpa using ho, rfl⟩⟩)
  | turn addr =>
    replace h := un h
    unfold State.turnStep at h
    split at h
    · rename_i u hu
      obtain ⟨hp, -, hfr⟩ := State.focusBy_spec hu
      exact .inl ⟨u, hp, hfr, h⟩
    · cases h
      exact .inr (.inr (quiet rfl rfl rfl))
  | reset => exact absurd rfl hi

/-- Everything a step of the machine can do: the reset; an engine's step, with that instance in focus; a decoded access,
with the instance it addresses in focus; or a step that leaves the instances as they are. -/
theorem step_cases {s t : State} (h : step s = .next t) :
    (∃ rest, s.inputs = .reset :: rest ∧ t = State.platformReset { s with inputs := rest }) ∨
    (∃ u : State, u.engines.Perm s.engines ∧
      u = { s with eng := u.eng, others := u.others, inputs := u.inputs } ∧ u.engineStep = .next t) ∨
    (∃ (u : State) (j : Instr) (addr : Nat) (v : Option Word) (rest : List Input),
      s.inputs = .access addr 32 v :: rest ∧
      State.focusAt { s with inputs := rest } addr = some u ∧
      decodeAccess ⟨addr - u.eng.regBase.toNat, 32, v⟩ = .ok j ∧ exec j u = .next t) ∨
    Quiet s t := by
  have h0 := h
  unfold step at h
  split at h
  · have h : s.enginesStep = .next t := by
      unfold State.unlessRefused at h
      split at h
      · cases h
      · exact h
    unfold State.enginesStep at h
    split at h
    · rename_i u hu
      obtain ⟨hp, -, hfr⟩ := State.focusBy_spec hu
      exact .inr (.inl ⟨u, hp, by rw [hfr], h⟩)
    · split at h
      · cases h
      · cases h
        exact .inr (.inr (.inr ⟨.refl _, rfl, .inl rfl⟩))
  · rename_i i rest hin
    by_cases hr : i = .reset
    · subst hr
      cases h
      exact .inl ⟨rest, hin, rfl⟩
    · rcases inputStep_cases hr h with ⟨u, hp, hu, hs⟩ | ⟨u, j, addr, v, rfl, hf, hd, he⟩ | q
      · exact .inr (.inl ⟨u, hp, by rw [hu], hs⟩)
      · exact .inr (.inr (.inl ⟨u, j, addr, v, rest, hin, hf, hd, he⟩))
      · exact .inr (.inr (.inr ⟨q.perm, q.platform, q.mem⟩))

/-! ## What DECOMPRESS fetches -/

theorem Engine.position_control {e : Engine} (h : e.bitn = 8) : e.position = .control := by
  simp [Engine.position, Engine.groupFull, h]

theorem Engine.position_token {e : Engine} (h : e.bitn ≠ 8) :
    e.position = .token (e.dec.ctl.getLsbD e.bitn.toNat) := by
  simp only [Engine.position, Engine.groupFull, h, controlBit, decide_false]
  rfl

theorem State.fetch_ctl {s : State} {k : Byte} (hp : s.eng.position = .control)
    (hl : s.eng.dec.ip.toNat + 1 ≤ s.eng.lat.srcLen.toNat)
    (h : s.srcByte s.eng.dec.ip.toNat = some k) : s.fetch = .element (.ctl k) := by
  unfold State.fetch
  simp only [hp, Position.length]
  rw [if_neg (by omega)]
  simp [readBytes, h, decodeElement]

theorem State.fetch_lit {s : State} {b : Byte} (hp : s.eng.position = .token false)
    (hl : s.eng.dec.ip.toNat + 1 ≤ s.eng.lat.srcLen.toNat)
    (h : s.srcByte s.eng.dec.ip.toNat = some b) : s.fetch = .element (.lit b) := by
  unfold State.fetch
  simp only [hp, Position.length]
  rw [if_neg (by omega)]
  simp [readBytes, h, decodeElement]

theorem State.fetch_match {s : State} {b0 b1 : Byte} (hp : s.eng.position = .token true)
    (hl : s.eng.dec.ip.toNat + 2 ≤ s.eng.lat.srcLen.toNat)
    (h0 : s.srcByte s.eng.dec.ip.toNat = some b0)
    (h1 : s.srcByte (s.eng.dec.ip.toNat + 1) = some b1) :
    s.fetch = .element (.matchTok (matchN b0) (matchOff b0 b1)) := by
  unfold State.fetch
  simp only [hp, Position.length]
  rw [if_neg (by omega)]
  simp [readBytes, h0, h1, decodeElement]

/-- Before dst_size, a step of DECOMPRESS runs what it fetches. -/
theorem State.engineStep_of_fetch {s : State} {i : Instr} (hm : s.eng.canMove = true)
    (ho : s.eng.opl = .decompress) (hlt : s.eng.dec.op.toNat < s.eng.lat.dstSize.toNat)
    (hf : s.fetch = .element i) : s.engineStep = exec i s := by
  rw [State.engineStep_decompress hm ho]
  unfold State.decompressStep
  simp only [hf]
  rw [if_neg (by omega)]

end Sys2Proof.Machine
end

