-- ==== Sys2Proof/Tests/Slice0.lean ====
section
/-! SUPPORT. The model's own tests: words of the encodings, one-step results of 95_test_vectors.md (its names V-… stand
beside them), and for each statement with hypotheses a concrete state and operands that meet them. -/

namespace Sys2Proof.Tests

open Sys2Proof Sys2Proof.Machine

/-! ## Helpers -/

/-- A value of the next state; none where the outcome is another. -/
def after {α : Type} (o : Outcome) (f : State → α) : Option α :=
  match o with
  | .next t => some (f t)
  | .fault _ => none
  | .refused _ => none

/-- The reset state with another instance in focus. -/
def stateOf (e : Engine) : State := { State.reset with eng := e }

/-- The reset state with the operand registers of program P1, or others. -/
def hostState (srcAddr srcLen dstAddr dstSize : Word) : State :=
  stateOf { Engine.reset 0 with
    regs := { Regs.reset with srcAddr, srcLen, dstAddr, dstSize } }

/-- An instance that runs an operation on the buffers of program P1, or on others. -/
def running (o : Operation) (bitn : BitVec 4) (srcLen dstSize : Word) : Engine :=
  { Engine.reset 0 with
    engState := .busy, opl := o, bitn := bitn, lat := ⟨0x1000, srcLen, 0x2000, dstSize⟩ }

/-- COMPRESS at a position, with a group open at DST[0] where BITN is not 8. -/
def compressing (bitn : BitVec 4) (srcLen dstSize : Word) (pos opos : Cursor) : State :=
  stateOf { running .compress bitn srcLen dstSize with
    enc := { EncRegs.reset with pos := pos, opos := opos } }

/-- DECOMPRESS at its cursors, under a control byte. -/
def decompressing (bitn : BitVec 4) (srcLen dstSize : Word) (ip op : Cursor) (k : Byte) : State :=
  stateOf { running .decompress bitn srcLen dstSize with
    dec := { DecRegs.reset with ip := ip, op := op, ctl := k } }

theorem ordinary_of_lt {a : Nat} (h : a < 2 ^ 32) : Platform.reset.ordinary a = true := by
  have h' : a < 4294967296 := h
  simp [Platform.ordinary, Platform.reset, Config.addrW, inSpan, h']

theorem stateOf_inv {e : Engine} (h : e.Legal) : (stateOf e).Inv where
  mem_wf := rfl
  legal := by
    intro f hf
    simp only [State.engines, stateOf, State.reset, Config.regBases, List.map, List.mem_cons,
      List.not_mem_nil, or_false] at hf
    rcases hf with rfl | rfl
    · exact h
    · exact Engine.reset_legal _
  apart := by
    refine List.pairwise_cons.2 ⟨fun f hf _ hb => ?_, List.pairwise_singleton _ _⟩
    simp only [stateOf, State.reset, Config.regBases, List.map, List.mem_cons, List.not_mem_nil,
      or_false] at hf
    subst hf
    cases hb

theorem compressing_legal {bitn : BitVec 4} {srcLen dstSize : Word} {pos opos : Cursor}
    (hb : bitn.toNat ≤ 8) (hs : srcLen.toNat ≤ 0x1000) (hd : dstSize.toNat ≤ 0x1000)
    (hp : pos.toNat ≤ srcLen.toNat)
    (hg : (bitn = 8 ∧ opos = 0) ∨
      (opos.toNat + 2 * (8 - bitn.toNat) < dstSize.toNat ∧ 0 < opos.toNat)) :
    (compressing bitn srcLen dstSize pos opos).eng.Legal where
  code_range := by show (0 : BitVec 4).toNat ≤ 2; decide
  code_zero := fun _ => rfl
  busy_not_done := fun _ => rfl
  marks_busy := fun _ => rfl
  fault_decompress := fun h => nomatch h
  dict_wf := rfl
  bitn_range := fun _ => hb
  src_fits := fun _ => by show 0x1000 + srcLen.toNat ≤ 2 ^ 32; omega
  dst_fits := fun _ => by show 0x2000 + dstSize.toNat ≤ 2 ^ 32; omega
  disjoint := fun _ => by
    show spansMeet 0x1000 srcLen.toNat 0x2000 dstSize.toNat = false
    simp only [spansMeet, decide_eq_false_iff_not]
    omega
  pos_range := fun _ _ => hp
  group_room := fun _ _ => hg
  ip_range := fun _ h => nomatch h
  op_range := fun _ h => nomatch h

theorem decompressing_legal {bitn : BitVec 4} {srcLen dstSize : Word} {ip op : Cursor} {k : Byte}
    (hb : bitn.toNat ≤ 8) (hs : srcLen.toNat ≤ 0x1000) (hd : dstSize.toNat ≤ 0x1000)
    (hi : ip.toNat ≤ srcLen.toNat) (hp : op.toNat ≤ dstSize.toNat) :
    (decompressing bitn srcLen dstSize ip op k).eng.Legal where
  code_range := by show (0 : BitVec 4).toNat ≤ 2; decide
  code_zero := fun _ => rfl
  busy_not_done := fun _ => rfl
  marks_busy := fun _ => rfl
  fault_decompress := fun h => nomatch h
  dict_wf := rfl
  bitn_range := fun _ => hb
  src_fits := fun _ => by show 0x1000 + srcLen.toNat ≤ 2 ^ 32; omega
  dst_fits := fun _ => by show 0x2000 + dstSize.toNat ≤ 2 ^ 32; omega
  disjoint := fun _ => by
    show spansMeet 0x1000 srcLen.toNat 0x2000 dstSize.toNat = false
    simp only [spansMeet, decide_eq_false_iff_not]
    omega
  pos_range := fun _ h => nomatch h
  group_room := fun _ h => nomatch h
  ip_range := fun _ _ => hi
  op_range := fun _ _ => hp

/-- A START is placed where its regions fit, do not meet, and lie in ordinary memory. -/
theorem hostState_placed {a n b m : Word} (h1 : a.toNat + n.toNat ≤ 2 ^ 32)
    (h2 : b.toNat + m.toNat ≤ 2 ^ 32)
    (h3 : ∀ x, ¬ ((a.toNat ≤ x ∧ x < a.toNat + n.toNat) ∧ (b.toNat ≤ x ∧ x < b.toNat + m.toNat))) :
    (hostState a n b m).placed := by
  refine ⟨?_, ?_, ?_, ?_⟩
  · rintro (h | h)
    · exact absurd h1 (Nat.not_le.2 h)
    · exact absurd h2 (Nat.not_le.2 h)
  · rintro ⟨x, hs, hd⟩
    exact h3 x ⟨hs, hd⟩
  · rintro ⟨r, hr, hb, -⟩
    simp only [hostState, stateOf, State.reset, Config.regBases, List.map, List.mem_cons,
      List.not_mem_nil, or_false] at hr
    subst hr
    cases hb
  · rintro ⟨g, hg, hk, -⟩
    simp only [hostState, stateOf, State.reset, Platform.reset, List.mem_cons, List.not_mem_nil,
      or_false] at hg
    subst hg
    exact hk rfl

/-! ## Well-formedness -/

/-- A WRITE_REG of CTRL is one of the CTRL rows and is refused. -/
theorem test_wellFormed_refuses_write_of_ctrl : (Instr.writeReg .ctrl 3).wellFormed = false := rfl
theorem test_wellFormed_write_of_srcLen : (Instr.writeReg .srcLen 3).wellFormed = true := rfl

/-! ## Decoding: words written out from the encodings of opcode_table.json and 30_encoding.md -/

theorem test_decode_startCompress :
    decodeCtrl 0b11111111111111111111111111111011 = .startCompress 0x1FFFFFFF := by decide
theorem test_decode_startDecompress :
    decodeCtrl 0b00000000000000000000000000000101 = .startDecompress 0 := by decide
theorem test_decode_startBadop00 :
    decodeCtrl 0b00000000000000000000000000001001 = .startBadop00 1 := by decide
theorem test_decode_startBadop11 :
    decodeCtrl 0b00000000000000000000000000000111 = .startBadop11 0 := by decide
theorem test_decode_setOp :
    decodeCtrl 0b00000000000000000000000000000100 = .setOp 0b10 0 := by decide
theorem test_decode_writeReg :
    decodeAccess ⟨0x14, 32, some 100⟩ = .ok (.writeReg .dstSize 100) := by decide
theorem test_decode_readReg : decodeAccess ⟨0x1C, 32, none⟩ = .ok (.readReg .inConsumed) := by decide
/-- V-F12 and 10_state.md R39. -/
theorem test_decode_refuses_bad_accesses :
    decodeAccess ⟨0x04, 8, none⟩ = .error .badWidth ∧
    decodeAccess ⟨0x20, 32, none⟩ = .error .offsetOutOfBlock ∧
    decodeAccess ⟨0x02, 32, some 0⟩ = .error .misaligned := by decide
theorem test_decode_ctl : decodeElement .control [0b00000010] = .ok (.ctl 2, []) := by decide
theorem test_decode_lit : decodeElement (.token false) [0x61, 1] = .ok (.lit 0x61, [1]) := by decide
/-- V-T7: NNNNNNHH = 000000 11, OOOOOOOO = 11111111. -/
theorem test_decode_match :
    decodeElement (.token true) [0b00000011, 0b11111111] = .ok (.matchTok 0 1023, []) := by decide
/-- V-T5: length 66, offset 256 is FD 00. -/
theorem test_encode_match :
    encode (.matchTok 63 256) = .element (.token true) [0xFD, 0x00] := by decide
theorem test_decode_short_stream :
    decodeElement (.token true) [0xFC] = .error .missingBytes := by decide

theorem test_decodeTableWord :
    decodeTableWord 32 0x3 = some (.startCompress 0) ∧
    decodeTableWord 32 0x5 = some (.startDecompress 0) ∧
    decodeTableWord 8 0x2 = some (.ctl 2) ∧
    decodeTableWord 16 0x01FC = some (.matchTok 63 1) := by decide

/-! ## One step from the state withFetchWord gives -/

theorem test_fetchWord_startCompress :
    after (step (State.reset.withFetchWord 32 0x3)) (fun t => (t.eng.engState, t.eng.opl)) =
      some (.busy, .compress) := by decide
theorem test_fetchWord_setOp :
    after (step (State.reset.withFetchWord 32 0x4)) (fun t => t.eng.regs.ctrlOp) = some 0b10 := by
  decide
theorem test_fetchWord_ctl :
    after (step (State.reset.withFetchWord 8 0x2)) (fun t => (t.eng.dec.ctl, t.eng.bitn)) =
      some (2, 0) := by decide +kernel
theorem test_fetchWord_match :
    after (step (State.reset.withFetchWord 16 0x01FC)) (fun t => (t.eng.dec.ip, t.eng.dec.op)) =
      some (2, 1089) := by decide +kernel

/-! ## Host commands -/

/-- V-R3: bits [31:3] are ignored, START reads 0. -/
theorem test_startCompress :
    after (exec (decodeCtrl 0xFFFFFFFB) State.reset)
      (fun t => (t.eng.readReg .ctrl, t.eng.readReg .status)) = some (2, 1) := by decide
/-- V-F6: the region passes 2^32. -/
theorem test_startCompress_bufferWrap :
    after (exec (.startCompress 0) (hostState 0xFFFFFFF0 0x11 0 0))
      (fun t => (t.refused, t.eng.regs.ctrlOp)) = some (some .bufferWrap, 1) := by decide
/-- V-F8: byte 0x100F is in both regions. -/
theorem test_startDecompress_bufferOverlap :
    after (exec (.startDecompress 0) (hostState 0x1000 0x10 0x100F 1))
      (fun t => (t.refused, t.eng.regs.ctrlOp)) = some (some .bufferOverlap, 2) := by decide
/-- V-F9: touching regions are accepted. -/
theorem test_startDecompress_touching :
    after (exec (.startDecompress 0) (hostState 0x1000 0x10 0x1010 1)) (fun t => t.eng.readReg .status) =
      some 1 := by decide
/-- V-R5. -/
theorem test_startBadop00 :
    after (exec (.startBadop00 0) State.reset) (fun t => (t.eng.readReg .status, t.eng.readReg .ctrl)) =
      some (0x22, 0) := by decide
/-- V-F11: BAD_OP is checked before the placement. -/
theorem test_startBadop11 :
    after (exec (.startBadop11 0) (hostState 0xFFFFFFF0 0x11 0 0))
      (fun t => (t.eng.readReg .status, t.eng.readReg .ctrl)) = some (0x22, 6) := by decide
/-- V-F5: StartWhileBusy is checked before OP. -/
theorem test_startBadop00_while_busy :
    after (exec (.startBadop00 0) (compressing 8 70 100 0 0)) State.refused =
      some (some .startWhileBusy) := by decide
/-- V-R2. -/
theorem test_setOp :
    after (exec (.setOp 0b10 0) State.reset) (fun t => (t.eng.readReg .ctrl, t.eng.readReg .status)) =
      some (4, 0) := by decide
/-- V-R10: a write while BUSY reaches the register, not the running operation. -/
theorem test_writeReg :
    after (exec (.writeReg .srcLen 5) (compressing 8 70 100 0 0))
      (fun t => (t.eng.readReg .srcLen, t.eng.lat.srcLen)) = some (5, 70) := by decide
/-- V-R6. -/
theorem test_writeReg_readOnly :
    after (exec (.writeReg .result 5) State.reset) (fun t => t.eng.readReg .result) = some 0 := by decide
/-- V-R11: CODE 1 and DONE. -/
theorem test_readReg :
    after (exec (.readReg .status) (stateOf ((running .decompress 0 0 0).endOperation 1 1 4)))
      (fun t => t.responses) = some [.reg 0x12] := by decide

/-! ## Match search (V-H, V-O) -/

theorem test_hash :
    hashIndex 0x61 0x61 0x61 = 673 ∧ hashIndex 0xFF 0xFF 0xFF = 1021 ∧
    hashIndex 0x61 0x62 0x63 = 940 ∧ hashIndex 0x80 0x00 0x00 = 512 ∧
    hashIndex 0x00 0x01 0x02 = hashIndex 0x55 0x56 0x57 := by decide
theorem test_offset :
    candidateOffset (slotTag 0 1031) 5 = 2 ∧ candidateOffset (slotTag 0 1024) 0 = 0 ∧
    candidateOffset (slotTag 0 70000) 4454 = 10 ∧ candidateOffset (slotTag 0 65540) 65530 = 10 ∧
    candidateOffset (slotTag 0x1234 2) 0 = 566 ∧ candidatePos 2 566 = -564 := by decide
/-- V-C3 on zero bytes: POS 1 of 70 equal bytes gives a match of 66 at offset 1. -/
theorem test_attempt_match :
    ((compressing 1 70 100 1 2).matchAttempt 0).map (·.1) = some (.matchTok 63 1) := by decide +kernel
/-- V-C2: OFF = 0 is rejected. -/
theorem test_attempt_offset_zero :
    ((compressing 0 70 100 0 1).matchAttempt 0).map (·.1) = some (.lit 0) := by decide +kernel

/-! ## Stream elements -/

/-- P1, token 0: the group opens at DST[0]. -/
theorem test_ctl_compress :
    after (exec (.ctl 0) (compressing 8 70 100 0 0))
      (fun t => (t.eng.enc.cmap, t.eng.enc.opos, t.eng.bitn)) = some (0, 1, 0) := by decide
/-- P1, token 1: M(1, 66, 1) at BITN 1 writes 02 at DST[0] and FC 01 at DST[2]. -/
theorem test_match_compress :
    after (exec (.matchTok 63 1) (compressing 1 70 100 1 2))
      (fun t => (t.mem, t.eng.enc.pos, t.eng.enc.opos)) =
      some ([(0x2000, 0x02), (0x2002, 0xFC), (0x2003, 0x01)], 67, 4) := by decide +kernel
/-- P1, token 0: the literal is written at DST[1]. -/
theorem test_lit_compress :
    after (exec (.lit 0x61) (compressing 0 70 100 0 1))
      (fun t => (t.mem, t.eng.enc.pos, t.eng.enc.opos, t.eng.bitn)) =
      some ([(0x2001, 0x61)], 1, 2, 1) := by decide +kernel
theorem test_lit_decompress :
    after (exec (.lit 0x41) (decompressing 0 7 70 1 0 2))
      (fun t => (t.mem, t.eng.dec.ip, t.eng.dec.op)) = some ([(0x2000, 0x41)], 2, 1) := by
  decide +kernel
/-- V-D2: 41, then 04 01 copies it four times. -/
theorem test_match_decompress :
    after (exec (.matchTok 1 1) { decompressing 1 4 5 2 1 2 with mem := [(0x2000, 0x41)] })
      (fun t => (t.mem, t.eng.dec.op)) =
      some ([(0x2000, 0x41), (0x2001, 0x41), (0x2002, 0x41), (0x2003, 0x41), (0x2004, 0x41)], 5) := by
  decide +kernel
/-- V-D13: OFF = 2 beyond OP = 1. -/
theorem test_match_corrupt :
    after (exec (.matchTok 0 2) (decompressing 1 4 4 2 1 2))
      (fun t => (t.eng.statusWord, t.eng.regs.result, t.eng.regs.inConsumed)) = some (0x12, 1, 4) := by
  decide
/-- V-D20: the missing second byte is found before the bad offset. -/
theorem test_short_stream :
    after (decompressing 1 3 5 2 1 2).engineStep (fun t => (t.eng.faulted, t.eng.dec.ip)) =
      some (true, 2) := by decide
/-- V-E5: cap 17 is the sentinel, cap 18 is not. -/
theorem test_capacity :
    after (compressing 8 70 17 0 0).engineStep (fun t => (t.eng.regs.result, t.eng.regs.inConsumed)) =
      some (70, 0) ∧
    after (compressing 8 70 18 0 0).engineStep (fun t => t.eng.engState) = some .busy := by
  decide +kernel
/-- V-I2: reset clears `faulted` and makes no memory access. -/
theorem test_reset_after_fault :
    after (step { decompressing 1 3 5 2 1 2 with
        inputs := [.reset], mem := [(0x2000, 0x41)]
        eng := { (decompressing 1 3 5 2 1 2).eng with faulted := true } })
      (fun t => (t.eng.faulted, t.eng.engState, t.mem)) =
      some (false, .idle, [(0x2000, 0x41)]) := by decide +kernel

/-! ## Witnesses: for each statement with hypotheses, a concrete state and operands that meet all of them -/

theorem test_witness_DecodeOfEncodeGivesTheInstructionBack :
    (Instr.writeReg .inConsumed 0xFFFFFFFF).wellFormed = true ∧
    (Instr.matchTok 63 1023).wellFormed = true := ⟨rfl, rfl⟩
theorem test_witness_EncodeOfDecodedGivesTheCodeBack :
    decode (.access ⟨0x00, 32, some 0xFFFFFFFB⟩) = .ok (.startCompress 0x1FFFFFFF, []) ∧
    decode (.element (.token true) [0xFF, 0xFF, 0x00]) = .ok (.matchTok 63 1023, [0x00]) := by decide
theorem test_witness_CtrlWritesAreSelectedByTheirLowBits :
    (0xFFFFFFFB : Word).toNat % 8 = 3 ∧ (5 : Word).toNat % 8 = 5 ∧ (1 : Word).toNat % 8 = 1 ∧
    (0xFFFFFFFF : Word).toNat % 8 = 7 ∧ (0 : Word).toNat % 2 = 0 ∧ (0xFFFFFFFE : Word).toNat % 2 = 0 := by
  decide
theorem test_witness_MatchTokenPacksLengthAndOffset :
    (3 ≤ 3 ∧ 3 ≤ 66 ∧ 1 ≤ 1 ∧ 1 ≤ 1023) ∧ (3 ≤ 66 ∧ 66 ≤ 66 ∧ 1 ≤ 1023 ∧ 1023 ≤ 1023) := by decide
theorem test_witness_BadRegisterAccessesAreRefused :
    (∃ t, State.reset.focusAt 0x20 = some t ∧ 0x20 ≤ 0x20 - t.eng.regBase.toNat) ∧
    (∃ t, State.reset.focusAt 0x1002 = some t ∧ (0x1002 - t.eng.regBase.toNat) % 4 ≠ 0) ∧
    ∃ t, State.reset.focusAt 0x4 = some t ∧ (8 : Nat) ≠ 32 := by
  refine ⟨⟨_, rfl, by decide⟩, ⟨_, rfl, by decide⟩, ⟨_, rfl, by decide⟩⟩
theorem test_witness_WriteRegReachesOnlyItsRegister : Reg.srcAddr ≠ .ctrl ∧ Reg.status ≠ .ctrl := by
  decide
theorem test_witness_ReadRegReturnsTheRegister :
    ((State.reset.eng.faulted = true → Reg.status ≠ .status ∧ Reg.status ≠ .result ∧
      Reg.status ≠ .inConsumed) ∧
    Reg.srcLen ≠ .status ∧ Reg.srcLen ≠ .result ∧ Reg.srcLen ≠ .inConsumed) := by decide
theorem test_witness_ReadOfAFaultedInstanceDrawsAFreeValue :
    (stateOf { running .decompress 8 0 1 with faulted := true }).eng.faulted = true := rfl
/-- V-F7: a region that ends at 2^32. -/
theorem test_witness_StartCompressIsAccepted :
    (hostState 0xFFFFFFF0 0x10 0x2000 0x40).eng.engState = .idle ∧
    (hostState 0xFFFFFFF0 0x10 0x2000 0x40).placed :=
  ⟨rfl, hostState_placed (by decide) (by decide) (by
    intro x
    show ¬ ((0xFFFFFFF0 ≤ x ∧ x < 0xFFFFFFF0 + 0x10) ∧ (0x2000 ≤ x ∧ x < 0x2000 + 0x40))
    omega)⟩
/-- V-F10: an empty region meets nothing. -/
theorem test_witness_StartDecompressIsAccepted :
    (hostState 0x1000 0 0x1000 0x10).eng.engState = .idle ∧ (hostState 0x1000 0 0x1000 0x10).placed :=
  ⟨rfl, hostState_placed (by decide) (by decide) (by
    intro x
    show ¬ ((0x1000 ≤ x ∧ x < 0x1000 + 0) ∧ (0x1000 ≤ x ∧ x < 0x1000 + 0x10))
    omega)⟩
theorem test_witness_ReservedOpCompletesAsBadOp : State.reset.eng.engState = .idle := rfl
theorem test_witness_StartWhileBusyIsRefused : (compressing 8 70 100 0 0).eng.engState = .busy := rfl
/-- The premise on the instruction holds of both operations. -/
theorem test_witness_BadPlacementIsRefusedInOrder_op :
    ((.startCompress 0 : Instr) = .startCompress 0 ∧ (0b01 : BitVec 2) = 0b01) ∧
    ((.startDecompress 0 : Instr) = .startDecompress 0 ∧ (0b10 : BitVec 2) = 0b10) :=
  ⟨⟨rfl, rfl⟩, rfl, rfl⟩
/-- V-F6, the first clause. -/
theorem test_witness_BadPlacementIsRefusedInOrder_wrap :
    (hostState 0xFFFFFFF0 0x11 0 0).eng.engState = .idle ∧ (hostState 0xFFFFFFF0 0x11 0 0).eng.wraps :=
  ⟨rfl, .inl (by decide)⟩
/-- V-F8, the second clause: one shared byte. -/
theorem test_witness_BadPlacementIsRefusedInOrder_overlap :
    (hostState 0x1000 0x10 0x100F 1).eng.engState = .idle ∧
    ¬ (hostState 0x1000 0x10 0x100F 1).eng.wraps ∧
    (hostState 0x1000 0x10 0x100F 1).eng.selfOverlaps := by
  refine ⟨rfl, ?_, 0x100F, ?_, ?_⟩
  · rintro (h | h) <;> exact absurd h (by decide)
  · exact (by decide : 0x1000 ≤ 0x100F ∧ 0x100F < 0x1000 + 0x10)
  · exact (by decide : 0x100F ≤ 0x100F ∧ 0x100F < 0x100F + 1)
/-- The second clause again: the destination meets another running operation's source in one byte. -/
theorem test_witness_BadPlacementIsRefusedInOrder_other :
    ∃ s : State, s.eng.engState = .idle ∧ ¬ s.eng.wraps ∧ s.otherOverlaps := by
  refine ⟨{ hostState 0 0 0x0FFF 2 with others := [running .compress 8 70 100] }, rfl, ?_, ?_⟩
  · rintro (h | h) <;> exact absurd h (by decide)
  · refine ⟨_, List.mem_singleton.2 rfl, rfl, 0x1000, .inl ⟨?_, .inl (by decide)⟩⟩
    exact (by decide : 0x0FFF ≤ 0x1000 ∧ 0x1000 < 0x0FFF + 2)
/-- The third clause: the source meets a device's range in one byte. -/
theorem test_witness_BadPlacementIsRefusedInOrder_nonMemory :
    ∃ s : State, s.eng.engState = .idle ∧ ¬ s.eng.wraps ∧ ¬ s.eng.selfOverlaps ∧ ¬ s.otherOverlaps ∧
      s.nonMemory := by
  refine ⟨{ hostState 0x1000 0x10 0x2000 1 with
    platform := { Platform.reset with map := [⟨0x100F, 4, .device⟩] } }, rfl, ?_, ?_, ?_, ?_⟩
  · rintro (h | h) <;> exact absurd h (by decide)
  · rintro ⟨x, hs, hd⟩
    have hs' : 0x1000 ≤ x ∧ x < 0x1000 + 0x10 := hs
    have hd' : 0x2000 ≤ x ∧ x < 0x2000 + 1 := hd
    omega
  · rintro ⟨r, hr, hb, -⟩
    simp only [hostState, stateOf, State.reset, Config.regBases, List.map, List.mem_cons,
      List.not_mem_nil, or_false] at hr
    subst hr
    cases hb
  · refine ⟨_, List.mem_singleton.2 rfl, by decide, 0x100F, by decide, .inl ?_⟩
    exact (by decide : 0x1000 ≤ 0x100F ∧ 0x100F < 0x1000 + 0x10)
/-- A START by the host, as an instruction and as a step of the machine. -/
theorem test_witness_OnlyAStartLeavesIdle :
    (∃ t, exec (.startCompress 0) State.reset = .next t ∧ State.reset.eng.engState = .idle ∧
      t.eng.engState = .busy) ∧
    ∃ t, step { State.reset with inputs := [.access 0 32 (some 3)] } = .next t ∧
      State.reset.eng.engState = .idle ∧ t.eng.engState = .busy :=
  ⟨⟨_, rfl, rfl, rfl⟩, _, rfl, rfl, rfl⟩
/-- An instruction, the engine's own last step, and a reset. -/
theorem test_witness_ResultsAreWrittenOnlyAtTheEnd :
    (∃ s t, exec (.startBadop11 0) s = .next t ∧ t.eng.regs.result ≠ s.eng.regs.result) ∧
    (∃ t, step (compressing 8 70 17 0 0) = .next t ∧
      t.eng.regs.result ≠ (compressing 8 70 17 0 0).eng.regs.result) ∧
    ∃ s t, step s = .next t ∧ s.inputs = [.reset] ∧ t.eng.regs.result ≠ s.eng.regs.result :=
  ⟨⟨stateOf { Engine.reset 0 with regs := { Regs.reset with result := 7 } }, _, rfl, by decide⟩,
   ⟨_, rfl, by decide⟩,
   ⟨{ stateOf { Engine.reset 0 with regs := { Regs.reset with result := 7 } } with
        inputs := [.reset] }, _, rfl, rfl, by decide⟩⟩
theorem test_witness_AttemptOverwritesExactlyOneSlot :
    ∃ r, (compressing 1 70 100 1 2).matchAttempt 0 = some r := by
  have h := test_attempt_match
  cases hr : (compressing 1 70 100 1 2).matchAttempt 0 with
  | none => rw [hr] at h; cases h
  | some r => exact ⟨r, rfl⟩
theorem test_witness_EmittedMatchNamesTheLongestEqualRun :
    ∃ e, (compressing 1 70 100 1 2).matchAttempt 0 = some (.matchTok 63 1, e) := by
  have h := test_attempt_match
  obtain ⟨r, hr, h⟩ := Option.map_eq_some_iff.1 h
  exact ⟨r.2, by rw [hr, ← h]⟩
theorem test_witness_RejectedCandidateGivesTheLiteral :
    ∃ e, (compressing 0 70 100 0 1).matchAttempt 0 = some (.lit 0, e) := by
  have h := test_attempt_offset_zero
  obtain ⟨r, hr, h⟩ := Option.map_eq_some_iff.1 h
  exact ⟨r.2, by rw [hr, ← h]⟩
/-- The last position the tail guard allows. -/
theorem test_witness_AttemptReadsOnlyTheSource :
    (compressing 0 70 100 4 5).eng.enc.pos.toNat + 66 ≤
        (compressing 0 70 100 4 5).eng.lat.srcLen.toNat ∧
    ∀ i, i < (compressing 0 70 100 4 5).eng.lat.srcLen.toNat →
      ∃ b, (compressing 0 70 100 4 5).srcByte i = some b := by
  refine ⟨by decide, fun i hi => ⟨_, State.memRead_of_ordinary (ordinary_of_lt ?_)⟩⟩
  have hi' : i < 70 := hi
  show 0x1000 + i < 2 ^ 32
  omega
theorem test_witness_ControlByteOpensAGroup :
    (compressing 8 70 100 0 0).eng.canMove = true ∧ (compressing 8 70 100 0 0).eng.opl = .compress ∧
    Platform.reset.ordinary (0x2000 + 0) = true := ⟨rfl, rfl, ordinary_of_lt (by decide)⟩
theorem test_witness_LiteralIsEmittedVerbatim :
    (compressing 7 70 100 7 8).eng.canMove = true ∧ (compressing 7 70 100 7 8).eng.opl = .compress ∧
    Platform.reset.ordinary (0x2000 + 8) = true := ⟨rfl, rfl, ordinary_of_lt (by decide)⟩
theorem test_witness_MatchIsEmittedUnderItsControlBit :
    (compressing 1 70 100 1 2).eng.canMove = true ∧ (compressing 1 70 100 1 2).eng.opl = .compress ∧
    Platform.reset.ordinary (0x2000 + 0) = true ∧ Platform.reset.ordinary (0x2000 + 2) = true ∧
    Platform.reset.ordinary (0x2000 + (2 + 1)) = true :=
  ⟨rfl, rfl, ordinary_of_lt (by decide), ordinary_of_lt (by decide), ordinary_of_lt (by decide)⟩
/-- V-E5: cap 17. -/
theorem test_witness_SentinelAbortReturnsTheSourceLength :
    (compressing 8 70 17 0 0).eng.canMove = true ∧ (compressing 8 70 17 0 0).eng.opl = .compress ∧
    (compressing 8 70 17 0 0).eng.enc.pos.toNat < (compressing 8 70 17 0 0).eng.lat.srcLen.toNat ∧
    (compressing 8 70 17 0 0).eng.bitn = 8 ∧
    (compressing 8 70 17 0 0).eng.enc.opos.toNat + 17 ≥
      (compressing 8 70 17 0 0).eng.lat.dstSize.toNat := by decide
/-- P1 before its last step, and V-E1. -/
theorem test_witness_CompressCompletesWithTheStreamLength :
    ((compressing 5 70 100 70 7).Inv ∧ (compressing 5 70 100 70 7).eng.canMove = true ∧
      (compressing 5 70 100 70 7).eng.lat.srcLen.toNat ≤
        (compressing 5 70 100 70 7).eng.enc.pos.toNat) ∧
    (compressing 8 0 0 0 0).Inv ∧ (compressing 8 0 0 0 0).eng.canMove = true ∧
      (compressing 8 0 0 0 0).eng.lat.srcLen.toNat ≤ (compressing 8 0 0 0 0).eng.enc.pos.toNat :=
  ⟨⟨stateOf_inv (compressing_legal (by decide) (by decide) (by decide) (by decide)
      (.inr (by decide))), rfl, by decide⟩,
   stateOf_inv (compressing_legal (by decide) (by decide) (by decide) (by decide)
      (.inl (by decide))), rfl, by decide⟩
/-- The first position of 70 that the tail guard stops. -/
theorem test_witness_TailGuardEmitsTheLiteral :
    (compressing 5 70 100 5 6).eng.canMove = true ∧ (compressing 5 70 100 5 6).eng.opl = .compress ∧
    (compressing 5 70 100 5 6).eng.enc.pos.toNat < (compressing 5 70 100 5 6).eng.lat.srcLen.toNat ∧
    (compressing 5 70 100 5 6).eng.bitn ≠ 8 ∧
    (compressing 5 70 100 5 6).eng.lat.srcLen.toNat <
      (compressing 5 70 100 5 6).eng.enc.pos.toNat + 66 ∧
    (compressing 5 70 100 5 6).srcByte 5 = some 0 := by decide
/-- Cap 18 for the first clause; the last position the tail guard allows for the second. -/
theorem test_witness_CompressStepRunsTheElementItEmits :
    ((compressing 8 70 18 0 0).eng.bitn = 8 ∧
      (compressing 8 70 18 0 0).eng.enc.opos.toNat + 17 <
        (compressing 8 70 18 0 0).eng.lat.dstSize.toNat) ∧
    (compressing 1 67 100 1 2).eng.bitn ≠ 8 ∧
      (compressing 1 67 100 1 2).eng.enc.pos.toNat + 66 ≤
        (compressing 1 67 100 1 2).eng.lat.srcLen.toNat ∧
      ((compressing 1 67 100 1 2).matchAttempt 0).map (·.1) = some (.matchTok 63 1) := by
  decide +kernel
theorem test_witness_ControlByteIsFetched :
    (decompressing 8 7 70 0 0 0).eng.canMove = true ∧
    (decompressing 8 7 70 0 0 0).eng.opl = .decompress := ⟨rfl, rfl⟩
theorem test_witness_LiteralIsDecodedVerbatim :
    (decompressing 0 7 70 1 0 2).eng.canMove = true ∧
    (decompressing 0 7 70 1 0 2).eng.opl = .decompress ∧
    Platform.reset.ordinary (0x2000 + 0) = true := ⟨rfl, rfl, ordinary_of_lt (by decide)⟩
/-- V-D12 and V-D13: offset 0, and the first offset beyond OP. -/
theorem test_witness_BadOffsetIsCorruptStream :
    (decompressing 1 4 4 2 1 2).eng.canMove = true ∧ (decompressing 1 4 4 2 1 2).eng.opl = .decompress ∧
    (decompressing 1 4 4 2 1 2).eng.dec.op.toNat < (2 : BitVec 10).toNat ∧ (0 : BitVec 10) = 0 := by
  decide
/-- V-D2 and V-D6: offset equal to OP, and a match cut off at dst_size. -/
theorem test_witness_OverlapCopyRepeatsTheOutput :
    (decompressing 1 4 10 2 1 2).eng.canMove = true ∧
    (decompressing 1 4 10 2 1 2).eng.opl = .decompress ∧
    1 ≤ (1 : BitVec 10).toNat ∧
    (1 : BitVec 10).toNat ≤ (decompressing 1 4 10 2 1 2).eng.dec.op.toNat ∧
    (decompressing 1 4 10 2 1 2).eng.dec.op.toNat ≤ (decompressing 1 4 10 2 1 2).eng.lat.dstSize.toNat ∧
    ∀ a, (decompressing 1 4 10 2 1 2).eng.inDest a = true →
      (decompressing 1 4 10 2 1 2).platform.ordinary a = true := by
  refine ⟨rfl, rfl, by decide, by decide, by decide, fun a ha => ordinary_of_lt ?_⟩
  have h : 0x2000 ≤ a ∧ a < 0x2000 + 10 := Engine.inDest_iff.1 ha
  omega
theorem test_witness_DecompressCompletesAtDstSize :
    (decompressing 5 7 70 7 70 2).Inv ∧ (decompressing 5 7 70 7 70 2).eng.canMove = true ∧
    (decompressing 5 7 70 7 70 2).eng.opl = .decompress ∧
    (decompressing 5 7 70 7 70 2).eng.lat.dstSize.toNat ≤
      (decompressing 5 7 70 7 70 2).eng.dec.op.toNat :=
  ⟨stateOf_inv (decompressing_legal (by decide) (by decide) (by decide) (by decide) (by decide)), rfl,
   rfl, by decide⟩
/-- V-D17 (a control byte is missing) and V-D20 (the second byte of a match). -/
theorem test_witness_ShortStreamSetsTheFaultedMark :
    ((decompressing 8 0 1 0 0 0).eng.canMove = true ∧
      (decompressing 8 0 1 0 0 0).eng.dec.op.toNat < (decompressing 8 0 1 0 0 0).eng.lat.dstSize.toNat ∧
      (decompressing 8 0 1 0 0 0).eng.lat.srcLen.toNat < 0 + 1) ∧
    (decompressing 1 3 5 2 1 2).eng.canMove = true ∧
      (decompressing 1 3 5 2 1 2).eng.bitn ≠ 8 ∧
      (decompressing 1 3 5 2 1 2).eng.dec.ctl.getLsbD 1 = true ∧
      (decompressing 1 3 5 2 1 2).eng.lat.srcLen.toNat <
        (decompressing 1 3 5 2 1 2).eng.dec.ip.toNat + 2 ∧
      (decompressing 1 3 5 2 1 2).eng.inDest 0x2005 = false ∧
      (4 < (decompressing 1 3 5 2 1 2).eng.lat.dstSize.toNat ∧
        (decompressing 1 3 5 2 1 2).platform.ordinary (0x2000 + 4) = true) := by decide
theorem test_witness_StepRunsTheDecodedAccess :
    ∃ t, ({ State.reset with inputs := [] } : State).focusAt 0x1000 = some t ∧
      decodeAccess ⟨0x1000 - t.eng.regBase.toNat, 32, some 3⟩ = .ok (.startCompress 0) :=
  ⟨_, rfl, by decide⟩
/-- The state withFetchWord gives for the token FC 01. -/
theorem test_witness_StepRunsTheFetchedElement :
    ∃ t : State, ({ State.reset.withFetchWord 16 0x01FC with inputs := [] } : State).focusAt 0 = some t ∧
      t.eng.canMove = true ∧ t.eng.opl = .decompress ∧
      t.eng.dec.op.toNat < t.eng.lat.dstSize.toNat ∧ t.eng.bitn ≠ 8 ∧
      t.eng.dec.ctl.getLsbD t.eng.bitn.toNat = true ∧
      t.eng.dec.ip.toNat + 2 ≤ t.eng.lat.srcLen.toNat ∧
      t.srcByte t.eng.dec.ip.toNat = some 0xFC ∧ t.srcByte (t.eng.dec.ip.toNat + 1) = some 0x01 ∧
      decode (.element (.token true) [0xFC, 0x01]) = .ok (.matchTok 63 1, []) :=
  ⟨_, rfl, by decide +kernel⟩
theorem test_witness_RefusedStateOnlyResets :
    (State.reset.refuse .regAccess).refused = some .regAccess ∧
    ({ State.reset.refuse .regAccess with inputs := [.reset] } : State).inputs = [.reset] ∧
    ∀ rest, (State.reset.refuse .regAccess).inputs ≠ .reset :: rest := by
  refine ⟨rfl, rfl, fun rest h => ?_⟩
  cases h
/-- The faulted instance in focus, and not in focus. -/
theorem test_witness_FaultedInstanceStopsTheMachine :
    (∃ s : State, s.inputs = [] ∧ s.refused = none ∧ (∀ e ∈ s.engines, e.canMove = false) ∧
      s.eng.faulted = true) ∧
    ∃ s : State, s.inputs = [] ∧ s.refused = none ∧ (∀ e ∈ s.engines, e.canMove = false) ∧
      s.eng.faulted = false ∧ ∃ e ∈ s.engines, e.faulted = true := by
  refine ⟨⟨stateOf { running .decompress 8 0 1 with faulted := true }, rfl, rfl, fun e he => ?_, rfl⟩,
    { State.reset with others := [{ running .decompress 8 0 1 with faulted := true }] }, rfl, rfl,
    fun e he => ?_, rfl, _, List.mem_cons_of_mem _ (List.mem_singleton.2 rfl), rfl⟩
  all_goals
    simp only [State.engines, stateOf, State.reset, Config.regBases, List.map, List.mem_cons,
      List.not_mem_nil, or_false] at he
    rcases he with rfl | rfl <;> rfl
theorem test_witness_FinalStateRests : State.reset.final := by
  refine ⟨fun e he => ?_, rfl, rfl⟩
  simp only [State.engines, State.reset, Config.regBases, List.map, List.mem_cons, List.not_mem_nil,
    or_false] at he
  rcases he with rfl | rfl <;> exact ⟨rfl, rfl⟩
/-- A platform that backs the addresses below `n`. -/
def backs (n : Nat) : Platform := { Platform.reset with map := [⟨0, n, .ordinary⟩] }
/-- V-F14: on a platform that backs nothing, the first store of each element. -/
theorem test_witness_AccessWithoutMemoryStallsTheEngine :
    (∃ s : State, s.Inv ∧ s.eng.canMove = true ∧ s.eng.opl = .compress ∧
      s.platform.ordinary (s.eng.lat.dstBase.toNat + s.eng.enc.opos.toNat) = false) ∧
    ∃ s : State, s.Inv ∧ s.eng.canMove = true ∧ s.eng.opl = .decompress ∧
      s.platform.ordinary (s.eng.lat.dstBase.toNat + s.eng.dec.op.toNat) = false ∧
      1 ≤ s.eng.dec.op.toNat ∧ s.eng.dec.op.toNat < s.eng.lat.dstSize.toNat :=
  ⟨⟨{ compressing 8 70 100 0 0 with platform := backs 0 },
      State.Inv.same (stateOf_inv (compressing_legal (by decide) (by decide) (by decide) (by decide)
        (.inl (by decide)))) rfl rfl, rfl, rfl, rfl⟩,
   ⟨{ decompressing 1 4 5 2 1 2 with platform := backs 0 },
      State.Inv.same (stateOf_inv (decompressing_legal (by decide) (by decide) (by decide) (by decide)
        (by decide))) rfl rfl, rfl, rfl, rfl, by decide, by decide⟩⟩
/-- MATCH in COMPRESS whose control byte alone is missing, and whose last byte alone is; MATCH in DECOMPRESS whose third
byte is the first that is missing, with the offset equal to OP. -/
theorem test_witness_AccessWithoutMemoryStallsTheEngine_later :
    (∃ s : State, s.eng.canMove = true ∧ s.eng.opl = .compress ∧
      s.platform.ordinary (s.eng.lat.dstBase.toNat + s.eng.enc.cmap.toNat) = false ∧
      s.platform.ordinary (s.eng.lat.dstBase.toNat + s.eng.enc.opos.toNat) = true ∧
      s.platform.ordinary (s.eng.lat.dstBase.toNat + (s.eng.enc.opos.toNat + 1)) = true) ∧
    (∃ s : State, s.eng.canMove = true ∧ s.eng.opl = .compress ∧
      s.platform.ordinary (s.eng.lat.dstBase.toNat + s.eng.enc.cmap.toNat) = true ∧
      s.platform.ordinary (s.eng.lat.dstBase.toNat + s.eng.enc.opos.toNat) = true ∧
      s.platform.ordinary (s.eng.lat.dstBase.toNat + (s.eng.enc.opos.toNat + 1)) = false) ∧
    ∃ s : State, s.eng.canMove = true ∧ s.eng.opl = .decompress ∧
      (1 : BitVec 10).toNat ≤ s.eng.dec.op.toNat ∧
      2 < min ((1 : BitVec 6).toNat + 3) (s.eng.lat.dstSize.toNat - s.eng.dec.op.toNat) ∧
      s.platform.ordinary (s.eng.lat.dstBase.toNat + (s.eng.dec.op.toNat + 1)) = true ∧
      s.platform.ordinary (s.eng.lat.dstBase.toNat + (s.eng.dec.op.toNat + 2)) = false :=
  ⟨⟨{ compressing 1 70 100 1 2 with platform := { Platform.reset with map := [⟨0x2002, 2, .ordinary⟩] } },
      by decide⟩,
   ⟨{ compressing 1 70 100 1 2 with platform := backs 0x2003 }, by decide⟩,
   ⟨{ decompressing 1 4 5 2 1 2 with platform := backs 0x2003 }, by decide⟩⟩
/-- Each clause of COMPRESS: the literal under the tail guard at its first position; the third byte of a hash; and, at a
candidate one position back over zero bytes, the last byte a match of 66 reads. -/
theorem test_witness_UnreadableSourceStallsTheEngine_compress :
    (∃ s : State, s.eng.canMove = true ∧ s.eng.opl = .compress ∧ s.eng.bitn ≠ 8 ∧
      s.eng.enc.pos.toNat < s.eng.lat.srcLen.toNat ∧
      s.eng.lat.srcLen.toNat < s.eng.enc.pos.toNat + 66 ∧ s.srcByte s.eng.enc.pos.toNat = none) ∧
    (∃ s : State, s.eng.canMove = true ∧ s.eng.opl = .compress ∧ s.eng.bitn ≠ 8 ∧
      s.eng.enc.pos.toNat + 66 ≤ s.eng.lat.srcLen.toNat ∧
      s.srcByte (s.eng.enc.pos.toNat + 1) = some 0 ∧ s.srcByte (s.eng.enc.pos.toNat + 2) = none) ∧
    ∃ s : State, s.eng.canMove = true ∧ s.eng.opl = .compress ∧ s.eng.bitn ≠ 8 ∧
      s.eng.enc.pos.toNat + 66 ≤ s.eng.lat.srcLen.toNat ∧
      s.srcByte s.eng.enc.pos.toNat = some 0 ∧ s.srcByte (s.eng.enc.pos.toNat + 1) = some 0 ∧
      s.srcByte (s.eng.enc.pos.toNat + 2) = some 0 ∧
      1 = (s.eng.enc.pos.toNat % 65536 + 65536 -
        (Dict.read s.eng.dict (hashIndex 0 0 0)).toNat) % 1024 ∧ 1 ≤ s.eng.enc.pos.toNat ∧
      (∀ j, j < 65 → s.srcByte (s.eng.enc.pos.toNat - 1 + j) = s.srcByte (s.eng.enc.pos.toNat + j)) ∧
      s.srcByte (s.eng.enc.pos.toNat + 65) = none := by
  refine ⟨⟨{ compressing 5 70 100 5 6 with platform := backs 0x1005 }, by decide⟩,
    ⟨{ compressing 5 71 100 5 6 with platform := backs 0x1007 }, by decide⟩,
    ⟨{ compressing 1 70 100 1 2 with platform := backs 0x1042 }, rfl, rfl, by decide, by decide,
      by decide, by decide, by decide, by decide, by decide, by decide +kernel, by decide⟩⟩
/-- DECOMPRESS: the control byte, and the second byte of a match token. -/
theorem test_witness_UnreadableSourceStallsTheEngine_decompress :
    (∃ s : State, s.eng.canMove = true ∧ s.eng.opl = .decompress ∧ s.eng.bitn = 8 ∧
      s.eng.dec.op.toNat < s.eng.lat.dstSize.toNat ∧
      s.eng.dec.ip.toNat + 1 ≤ s.eng.lat.srcLen.toNat ∧ s.srcByte s.eng.dec.ip.toNat = none) ∧
    ∃ s : State, s.eng.canMove = true ∧ s.eng.opl = .decompress ∧ s.eng.bitn ≠ 8 ∧
      s.eng.dec.ctl.getLsbD s.eng.bitn.toNat = true ∧
      s.eng.dec.op.toNat < s.eng.lat.dstSize.toNat ∧
      s.eng.dec.ip.toNat + 2 ≤ s.eng.lat.srcLen.toNat ∧
      s.srcByte s.eng.dec.ip.toNat = some 0 ∧ s.srcByte (s.eng.dec.ip.toNat + 1) = none :=
  ⟨⟨{ decompressing 8 7 70 0 0 0 with platform := backs 0x1000 }, by decide⟩,
   ⟨{ decompressing 1 4 5 2 1 2 with platform := backs 0x1003 }, by decide⟩⟩
theorem test_witness_RestingEngineIgnoresElements :
    State.reset.eng.engState = .idle ∧ State.reset.overrun.eng.faulted = true ∧
    State.reset.stick.eng.stuck = true := ⟨rfl, rfl, rfl⟩
/-- The first byte of the source and the last byte of the destination. -/
theorem test_witness_BuffersOfARunningOperationAreItsOwn :
    (compressing 8 70 100 0 0).eng ∈ (compressing 8 70 100 0 0).engines ∧
    (compressing 8 70 100 0 0).eng.engState = .busy ∧
    (compressing 8 70 100 0 0).eng.inSource 0x1000 = true ∧
    (compressing 8 70 100 0 0).eng.inDest 0x2063 = true :=
  ⟨by simp [State.engines], rfl, by decide, by decide⟩
/-- The byte after the destination. -/
theorem test_witness_HostMemoryAccessesArePlain :
    (∀ e ∈ (compressing 8 70 100 0 0).engines, e.engState = .busy →
      e.inSource 0x2064 = false ∧ e.inDest 0x2064 = false) ∧
    (compressing 8 70 100 0 0).platform.ordinary 0x2064 = true := by
  refine ⟨fun e he hb => ?_, ordinary_of_lt (by decide)⟩
  simp only [State.engines, compressing, stateOf, State.reset, Config.regBases, List.map,
    List.mem_cons, List.not_mem_nil, or_false] at he
  rcases he with rfl | rfl
  · decide
  · cases hb
theorem test_witness_PollRepeatsUntilDone :
    (∃ t, (compressing 8 70 100 0 0).focusAt 4 = some t ∧ t.eng.faulted = false ∧
      t.eng.regs.done = false) ∧
    ∃ t, (stateOf (running .compress 8 70 100).completeCompress).focusAt 4 = some t ∧
      t.eng.faulted = false ∧ t.eng.regs.done = true := ⟨⟨_, rfl, rfl, rfl⟩, ⟨_, rfl, rfl, rfl⟩⟩
theorem test_witness_StepKeepsTheInvariant :
    (compressing 8 70 100 0 0).Inv ∧ ∃ t, step (compressing 8 70 100 0 0) = .next t := by
  refine ⟨stateOf_inv (compressing_legal (by decide) (by decide) (by decide) (by decide)
    (.inl (by decide))), ?_⟩
  rw [step_focused rfl rfl rfl]
  exact State.engineStep_total _
theorem test_witness_EngineWritesOnlyItsDestination :
    (compressing 7 70 100 7 8).Inv ∧ (compressing 7 70 100 7 8).eng.canMove = true ∧
    (∃ t, (compressing 7 70 100 7 8).engineStep = .next t) ∧
    (compressing 7 70 100 7 8).eng.inDest 0x2064 = false ∧
    (compressing 7 70 100 7 8).eng.lat.dstSize.toNat ≤ 99 + 1 :=
  ⟨stateOf_inv (compressing_legal (by decide) (by decide) (by decide) (by decide)
    (.inr (by decide))), rfl, State.engineStep_total _, by decide, by decide⟩
/-- The last clause with a step that sets no mark. -/
theorem test_witness_EngineStepTouchesOnlyItsOwnState :
    ∃ t, (compressing 8 70 17 0 0).engineStep = .next t ∧
      t.eng.faulted = (compressing 8 70 17 0 0).eng.faulted := ⟨_, rfl, rfl⟩
/-- Two running operations whose destinations touch the other's regions nowhere. -/
theorem test_witness_RunningOperationsDoNotInterfere :
    ∃ (s t : State) (e : Engine), s.Inv ∧ s.eng.canMove = true ∧ s.engineStep = .next t ∧
      e ∈ s.others ∧ e.engState = .busy ∧ e.inSource 0x2064 = true := by
  have h0 := compressing_legal (bitn := 8) (srcLen := 70) (dstSize := 100) (pos := 0) (opos := 0)
    (by decide) (by decide) (by decide) (by decide) (.inl (by decide))
  obtain ⟨t, ht⟩ := State.engineStep_total { compressing 8 70 100 0 0 with
    others := [{ (compressing 8 70 100 0 0).eng with lat := ⟨0x2064, 70, 0x3000, 100⟩ }] }
  refine ⟨_, t, _, ⟨rfl, ?_, ?_⟩, rfl, ht, List.mem_singleton.2 rfl, rfl, by decide⟩
  · intro f hf
    simp only [State.engines, List.mem_cons, List.not_mem_nil, or_false] at hf
    rcases hf with rfl | rfl
    · exact h0
    · exact { h0 with
        src_fits := fun _ => by decide
        dst_fits := fun _ => by decide
        disjoint := fun _ => by decide
        pos_range := fun _ _ => by decide
        group_room := fun _ _ => .inl (by decide)
        ip_range := fun _ h => nomatch h
        op_range := fun _ h => nomatch h }
  · refine List.pairwise_cons.2 ⟨fun f hf _ _ => ?_, List.pairwise_singleton _ _⟩
    rw [List.mem_singleton.1 hf]
    decide
theorem test_witness_PlatformResetClearsEverything :
    ∀ e ∈ (compressing 8 70 100 0 0).engines, e.engState = .busy → e.faulted = false →
      e.inDest 0x1FFF = false := by
  intro e he hb _
  simp only [State.engines, compressing, stateOf, State.reset, Config.regBases, List.map,
    List.mem_cons, List.not_mem_nil, or_false] at he
  rcases he with rfl | rfl
  · decide
  · cases hb
/-- The last byte of the second of three running operations, none of them in focus. -/
theorem test_witness_AbandonedDestinationIsFreelyDrawn :
    ∃ (s : State) (l₁ l₂ : List Engine) (e : Engine), s.engines = l₁ ++ e :: l₂ ∧
      e.engState = .busy ∧ e.faulted = false ∧
      (∀ f ∈ l₂, f.engState = .busy → f.inDest (e.lat.dstBase.toNat + 99) = false) ∧
      99 < e.lat.dstSize.toNat ∧ s.platform.ordinary (e.lat.dstBase.toNat + 99) = true ∧
      (∃ f ∈ l₁, f.engState = .busy) ∧ ∃ f ∈ l₂, f.engState = .busy := by
  refine ⟨{ State.reset with others := [running .compress 8 70 100,
      { running .compress 8 70 100 with lat := ⟨0x1000, 70, 0x2064, 100⟩ },
      { running .compress 8 70 100 with lat := ⟨0x1000, 70, 0x20C8, 100⟩ }] },
    [Engine.reset Config.regBase0, running .compress 8 70 100], [_], _, rfl, rfl, rfl, fun f hf _ => ?_,
    by decide, by decide, ⟨_, List.mem_cons_of_mem _ (List.mem_singleton.2 rfl), rfl⟩,
    ⟨_, List.mem_singleton.2 rfl, rfl⟩⟩
  rw [List.mem_singleton.1 hf]
  decide
theorem test_witness_CompressEnds :
    ∃ s : State, s.refused = none ∧ s.inputs = [] ∧ s.eng.canMove = true ∧ s.eng.opl = .compress ∧
      s.eng.enc.pos.toNat ≤ s.eng.lat.srcLen.toNat :=
  ⟨compressing 8 70 100 0 0, rfl, rfl, rfl, rfl, by decide⟩
theorem test_witness_DecompressEnds :
    ∃ s : State, s.refused = none ∧ s.inputs = [] ∧ s.eng.canMove = true ∧ s.eng.opl = .decompress ∧
      s.eng.dec.op.toNat ≤ s.eng.lat.dstSize.toNat :=
  ⟨decompressing 8 7 70 0 0 0, rfl, rfl, rfl, rfl, by decide⟩

theorem compressing_backed {bitn : BitVec 4} {srcLen dstSize : Word} {pos opos : Cursor}
    (hs : srcLen.toNat ≤ 0x1000) (hd : dstSize.toNat ≤ 0x1000) :
    (compressing bitn srcLen dstSize pos opos).backed := by
  rintro a (ha | ha)
  · have h : 0x1000 ≤ a ∧ a < 0x1000 + srcLen.toNat := Engine.inSource_iff.1 ha
    exact ordinary_of_lt (by omega)
  · have h : 0x2000 ≤ a ∧ a < 0x2000 + dstSize.toNat := Engine.inDest_iff.1 ha
    exact ordinary_of_lt (by omega)

theorem decompressing_backed {bitn : BitVec 4} {srcLen dstSize : Word} {ip op : Cursor} {k : Byte}
    (hs : srcLen.toNat ≤ 0x1000) (hd : dstSize.toNat ≤ 0x1000) :
    (decompressing bitn srcLen dstSize ip op k).backed :=
  compressing_backed (bitn := 0) (pos := 0) (opos := 0) hs hd

theorem test_witness_BackedOperationsAreNeverStuck :
    (∃ s : State, s.Inv ∧ s.refused = none ∧ s.inputs = [] ∧ s.eng.canMove = true ∧ s.backed ∧
      s.eng.opl = .compress ∧ ∃ t, s.engineStep = .next t) ∧
    ∃ s : State, s.Inv ∧ s.refused = none ∧ s.inputs = [] ∧ s.eng.canMove = true ∧ s.backed ∧
      s.eng.opl = .decompress ∧ ∃ t, s.engineStep = .next t :=
  ⟨⟨compressing 8 70 100 0 0, stateOf_inv (compressing_legal (by decide) (by decide) (by decide)
      (by decide) (.inl (by decide))), rfl, rfl, rfl, compressing_backed (by decide) (by decide), rfl,
      State.engineStep_total _⟩,
   ⟨decompressing 8 7 70 0 0 0, stateOf_inv (decompressing_legal (by decide) (by decide) (by decide)
      (by decide) (by decide)), rfl, rfl, rfl, decompressing_backed (by decide) (by decide), rfl,
      State.engineStep_total _⟩⟩
/-- The second engine stands elsewhere: another block, other registers and other buffers. -/
theorem test_witness_CompressStepDependsOnlyOnTheSourceBytes :
    ∃ s₁ s₂ t₁ : State, s₁.Inv ∧ s₂.Inv ∧ s₁.backed ∧ s₂.backed ∧ s₁.eng.canMove = true ∧
      s₁.eng.opl = .compress ∧
      s₂.eng = { s₁.eng with
        regBase := s₂.eng.regBase
        regs := s₂.eng.regs
        dec := s₂.eng.dec
        lat := { s₁.eng.lat with srcBase := s₂.eng.lat.srcBase, dstBase := s₂.eng.lat.dstBase } } ∧
      s₁.eng.lat.srcBase ≠ s₂.eng.lat.srcBase ∧ s₁.eng.lat.dstBase ≠ s₂.eng.lat.dstBase ∧
      (∀ i, i < s₁.eng.lat.srcLen.toNat → s₁.srcByte i = s₂.srcByte i) ∧
      s₁.engineStep = .next t₁ := by
  have h0 := compressing_legal (bitn := 8) (srcLen := 70) (dstSize := 100) (pos := 0) (opos := 0)
    (by decide) (by decide) (by decide) (by decide) (.inl (by decide))
  obtain ⟨t, ht⟩ := State.engineStep_total (compressing 8 70 100 0 0)
  let e : Engine := { (compressing 8 70 100 0 0).eng with
    regBase := 0x5000, lat := ⟨0x3000, 70, 0x1000, 100⟩ }
  refine ⟨compressing 8 70 100 0 0, stateOf e, t, stateOf_inv h0, ?_, compressing_backed (by decide) (by decide), ?_, rfl, rfl, rfl, by decide, by decide, ?_, ht⟩
  · exact stateOf_inv { h0 with
      src_fits := fun _ => by decide
      dst_fits := fun _ => by decide
      disjoint := fun _ => by decide
      pos_range := fun _ _ => by decide
      group_room := fun _ _ => .inl (by decide)
      ip_range := fun _ h => nomatch h
      op_range := fun _ h => nomatch h }
  · rintro a (ha | ha)
    · have h : 0x3000 ≤ a ∧ a < 0x3000 + 70 := Engine.inSource_iff.1 ha
      exact ordinary_of_lt (by omega)
    · have h : 0x1000 ≤ a ∧ a < 0x1000 + 100 := Engine.inDest_iff.1 ha
      exact ordinary_of_lt (by omega)
  · intro i hi
    have hi' : i < 70 := hi
    have e1 : (compressing 8 70 100 0 0).srcByte i = some 0 :=
      State.memRead_of_ordinary (ordinary_of_lt (by show 0x1000 + i < 2 ^ 32; omega))
    have e2 : (stateOf e).srcByte i = some 0 :=
      State.memRead_of_ordinary (ordinary_of_lt (by show 0x3000 + i < 2 ^ 32; omega))
    rw [e1, e2]

/-- The source is the one byte 0x61, its stream is 00 61. -/
theorem test_witness_DecompressUndoesCompress :
    ∃ (s t u : State) (n : Nat), s.Inv ∧ s.refused = none ∧ s.inputs = [] ∧
      (∀ e ∈ s.others, e.canMove = false) ∧ s.eng.canMove = true ∧ s.eng.opl = .compress ∧
      s.eng.bitn = 8 ∧ s.eng.enc.pos = 0 ∧ s.eng.enc.opos = 0 ∧ core.run n s = .next t ∧
      t.eng.ended ∧ t.eng.regs.inConsumed = s.eng.lat.srcLen ∧ u.Inv ∧ u.backed ∧
      u.refused = none ∧ u.inputs = [] ∧ u.eng.canMove = true ∧ u.eng.opl = .decompress ∧
      u.eng.bitn = 8 ∧ u.eng.dec.ip = 0 ∧ u.eng.dec.op = 0 ∧
      u.eng.lat.srcLen = t.eng.regs.result ∧ u.eng.lat.dstSize = s.eng.lat.srcLen ∧
      ∀ j, j < t.eng.regs.result.toNat →
        u.srcByte j = some (Memory.read t.mem (s.eng.lat.dstBase.toNat + j)) := by
  have h1 := compressing_legal (bitn := 8) (srcLen := 1) (dstSize := 100) (pos := 0) (opos := 0)
    (by decide) (by decide) (by decide) (by decide) (.inl (by decide))
  have h2 := decompressing_legal (bitn := 8) (srcLen := 2) (dstSize := 1) (ip := 0) (op := 0) (k := 0)
    (by decide) (by decide) (by decide) (by decide) (by decide)
  let s : State := { compressing 8 1 100 0 0 with mem := [(0x1000, 0x61)] }
  let u : State := { decompressing 8 2 1 0 0 0 with mem := [(0x1001, 0x61)] }
  have hs : ∃ t, core.run 3 s = .next t ∧ t.eng.ended ∧ t.eng.regs.inConsumed = 1 ∧
      t.eng.regs.result = 2 ∧ t.mem = [(0x1000, 0x61), (0x2001, 0x61)] :=
    ⟨_, rfl, ⟨rfl, rfl⟩, rfl, rfl, rfl⟩
  obtain ⟨t, hrun, hend, hic, hres, hmem⟩ := hs
  refine ⟨s, t, u, 3, ⟨rfl, (stateOf_inv h1).legal, (stateOf_inv h1).apart⟩, rfl, rfl, ?_, rfl, rfl,
    rfl, rfl, rfl, hrun, hend, hic, ⟨rfl, (stateOf_inv h2).legal, (stateOf_inv h2).apart⟩, ?_, rfl, rfl,
    rfl, rfl, rfl, rfl, rfl, by rw [hres]; rfl, rfl, ?_⟩
  · intro e he
    have : e = Engine.reset 0x1000 := List.mem_singleton.1 he
    subst this
    rfl
  · rintro a (ha | ha)
    · have h : 0x1000 ≤ a ∧ a < 0x1000 + 2 := Engine.inSource_iff.1 ha
      exact ordinary_of_lt (by omega)
    · have h : 0x2000 ≤ a ∧ a < 0x2000 + 1 := Engine.inDest_iff.1 ha
      exact ordinary_of_lt (by omega)
  · rw [hres, hmem]
    intro j hj
    have hj : j < 2 := hj
    interval_cases j <;> rfl

end Sys2Proof.Tests
end

/-! SUPPORT and PROOFS of the statements of 10_state.md. First what a step of an engine can do to its own registers and
leaves of everything else; then that every step keeps the invariant; then the statements. -/

namespace Sys2Proof.Machine

/-! ## What an engine's step touches -/

/-- RESULT and IN_CONSUMED of `f` are those of `e`, unless `f` has just ended an operation (10_state.md R37, R38). -/
def Engine.ResultsAtEnd (e f : Engine) : Prop :=
  f.regs.result ≠ e.regs.result ∨ f.regs.inConsumed ≠ e.regs.inConsumed → f.ended

theorem Engine.ResultsAtEnd.of_regs {e f : Engine} (hr : f.regs.result = e.regs.result)
    (hn : f.regs.inConsumed = e.regs.inConsumed) : e.ResultsAtEnd f :=
  fun h => h.elim (absurd hr) (absurd hn)

/-- The working registers, the dictionary, memory and the mark `stuck` may change, or the operation ends, or the engine
faults and draws its destination; nothing else (10_state.md R22, R25, R30, R37, R38). -/
structure OwnStep (s t : State) : Prop where
  frame : t = { s with eng := t.eng, mem := t.mem, draws := t.draws }
  lat : t.eng.lat = s.eng.lat
  opl : t.eng.opl = s.eng.opl
  regBase : t.eng.regBase = s.eng.regBase
  regs : t.eng.regs = s.eng.regs ∨
    t.eng.engState = .idle ∧ ∃ c r n, t.eng.regs = (s.eng.endOperation c r n).regs
  draws : t.eng.faulted = s.eng.faulted → t.draws = s.draws

namespace OwnStep

theorem refl (s : State) : OwnStep s s := ⟨rfl, rfl, rfl, rfl, .inl rfl, fun _ => rfl⟩

theorem stick (s : State) : OwnStep s s.stick := ⟨rfl, rfl, rfl, rfl, .inl rfl, fun _ => rfl⟩

theorem endOperation (s : State) (c : BitVec 4) (r n : Word) :
    OwnStep s (s.setEng (s.eng.endOperation c r n)) :=
  ⟨rfl, rfl, rfl, rfl, .inr ⟨rfl, c, r, n, rfl⟩, fun _ => rfl⟩

theorem overrun {s : State} (hf : s.eng.faulted = false) : OwnStep s s.overrun :=
  ⟨rfl, rfl, rfl, rfl, .inl rfl, fun h => absurd (h.trans hf) (by simp)⟩

theorem orStick {s t : State} {o : Option State} (h : s.orStick o = .next t)
    (ho : o = some t → OwnStep s t) : OwnStep s t := by
  rcases State.orStick_eq_next.1 h with h | ⟨-, rfl⟩
  · exact ho h
  · exact stick s

theorem groupOpen {s t : State} {k : Byte} (h : s.groupOpen k = some t) : OwnStep s t := by
  obtain ⟨-, rfl⟩ := State.groupOpen_eq_some.1 h
  exact ⟨rfl, rfl, rfl, rfl, .inl rfl, fun _ => rfl⟩

theorem emitLiteral {s t : State} {b : Byte} (h : s.emitLiteral b = some t) : OwnStep s t := by
  obtain ⟨-, rfl⟩ := State.emitLiteral_eq_some.1 h
  exact ⟨rfl, rfl, rfl, rfl, .inl rfl, fun _ => rfl⟩

theorem emitMatch {s t : State} {n : BitVec 6} {off : BitVec 10} (h : s.emitMatch n off = some t) :
    OwnStep s t := by
  obtain ⟨-, -, -, rfl⟩ := State.emitMatch_eq_some.1 h
  exact ⟨rfl, rfl, rfl, rfl, .inl rfl, fun _ => rfl⟩

theorem controlFetch (s : State) (k : Byte) : OwnStep s (s.controlFetch k) :=
  ⟨rfl, rfl, rfl, rfl, .inl rfl, fun _ => rfl⟩

theorem decodeLiteral {s t : State} {b : Byte} (h : s.decodeLiteral b = some t) : OwnStep s t := by
  obtain ⟨-, rfl⟩ := State.decodeLiteral_eq_some.1 h
  exact ⟨rfl, rfl, rfl, rfl, .inl rfl, fun _ => rfl⟩

theorem decodeMatch {s t : State} {n : BitVec 6} {off : BitVec 10}
    (h : s.decodeMatch n off = some t) : OwnStep s t := by
  rcases State.decodeMatch_cases h with ⟨-, rfl⟩ | ⟨-, u, hu, rfl⟩
  · exact ⟨rfl, rfl, rfl, rfl, .inr ⟨rfl, _, _, _, rfl⟩, fun _ => rfl⟩
  · rw [State.overlapCopy_frame hu]
    exact ⟨rfl, rfl, rfl, rfl, .inl rfl, fun _ => rfl⟩

/-- A step from the engine a token choice has updated is a step from the engine before the choice. -/
theorem of_nextToken {s t : State} {i : Instr} {e : Engine} (hn : s.nextToken = some (i, e))
    (h : OwnStep (s.setEng e) t) : OwnStep s t := by
  obtain ⟨he, -⟩ := State.nextToken_frame hn
  rw [he] at h
  exact ⟨h.frame, h.lat, h.opl, h.regBase, h.regs, h.draws⟩

/-- The results change only where the operation has ended. -/
theorem results {s t : State} (h : OwnStep s t) : s.eng.ResultsAtEnd t.eng := by
  rcases h.regs with hr | ⟨hi, c, r, n, hr⟩
  · exact .of_regs (by rw [hr]) (by rw [hr])
  · exact fun _ => ⟨hi, by rw [hr]; rfl⟩

end OwnStep

/-- A stream element on an engine that takes no step does nothing (log 12). -/
theorem exec_element_of_rest {s : State} {i : Instr}
    (hi : (∃ k, i = .ctl k) ∨ (∃ b, i = .lit b) ∨ ∃ n off, i = .matchTok n off)
    (hm : s.eng.canMove = false) : exec i s = .next s := by
  obtain ⟨k, rfl⟩ | ⟨b, rfl⟩ | ⟨n, off, rfl⟩ := hi
  · simp [exec, execCtl, hm]
  · simp [exec, execLit, hm]
  · simp [exec, execMatch, hm]

/-- A stream element touches only what an engine's own step may touch. -/
theorem exec_element_ownStep {s t : State} {i : Instr}
    (hi : (∃ k, i = .ctl k) ∨ (∃ b, i = .lit b) ∨ ∃ n off, i = .matchTok n off)
    (h : exec i s = .next t) : OwnStep s t := by
  cases hm : s.eng.canMove with
  | false =>
    rw [exec_element_of_rest hi hm] at h
    cases h
    exact .refl s
  | true =>
    cases ho : s.eng.opl with
    | compress =>
      obtain ⟨k, rfl⟩ | ⟨b, rfl⟩ | ⟨n, off, rfl⟩ := hi
      · exact .orStick (exec_ctl_compress k hm ho ▸ h) .groupOpen
      · exact .orStick (exec_lit_compress b hm ho ▸ h) .emitLiteral
      · exact .orStick (exec_match_compress n off hm ho ▸ h) .emitMatch
    | decompress =>
      obtain ⟨k, rfl⟩ | ⟨b, rfl⟩ | ⟨n, off, rfl⟩ := hi
      · rw [exec_ctl_decompress k hm ho] at h
        cases h
        exact .controlFetch s k
      · exact .orStick (exec_lit_decompress b hm ho ▸ h) .decodeLiteral
      · exact .orStick (exec_match_decompress n off hm ho ▸ h) .decodeMatch

theorem compressStep_ownStep {s t : State} (hm : s.eng.canMove = true)
    (ho : s.eng.opl = .compress) (h : s.compressStep = .next t) : OwnStep s t := by
  rcases State.compressStep_cases hm ho h with ⟨-, rfl⟩ | ⟨-, ⟨-, -, rfl⟩ | ⟨-, -, h⟩ |
    ⟨-, -, rfl⟩ | ⟨-, b, e, hn, h⟩ | ⟨-, n, off, e, hn, -, h⟩⟩
  · exact .endOperation s _ _ _
  · exact .endOperation s _ _ _
  · exact .orStick h .groupOpen
  · exact .stick s
  · exact .of_nextToken hn (.orStick h .emitLiteral)
  · exact .of_nextToken hn (.orStick h .emitMatch)

theorem decompressStep_ownStep {s t : State} (hm : s.eng.canMove = true)
    (ho : s.eng.opl = .decompress) (h : s.decompressStep = .next t) : OwnStep s t := by
  rcases State.decompressStep_cases hm ho h with ⟨-, rfl⟩ | ⟨-, ⟨-, rfl⟩ | ⟨-, rfl |
    ⟨-, k, rfl⟩ | ⟨-, b, h⟩ | ⟨-, n, off, h⟩⟩⟩
  · exact .endOperation s _ _ _
  · exact .overrun (Engine.canMove_iff.1 hm).2.1
  · exact .stick s
  · exact .controlFetch s k
  · exact .orStick h .decodeLiteral
  · exact .orStick h .decodeMatch

theorem engineStep_ownStep {s t : State} (h : s.engineStep = .next t) : OwnStep s t := by
  cases hm : s.eng.canMove with
  | false =>
    rw [State.engineStep_rest hm] at h
    cases h
    exact .refl s
  | true =>
    cases ho : s.eng.opl with
    | compress => exact compressStep_ownStep hm ho (State.engineStep_compress hm ho ▸ h)
    | decompress => exact decompressStep_ownStep hm ho (State.engineStep_decompress hm ho ▸ h)

/-- Settles O52: every case of an engine's step changes only working registers, marks, memory and the flags and results
of an operation's end. -/
theorem engineStepTouchesOnlyItsOwnState : Obligations.EngineStepTouchesOnlyItsOwnState := by
  intro s t h
  have o := engineStep_ownStep h
  refine ⟨o.frame, o.lat, o.opl, o.regBase, ?_, o.draws⟩
  rcases o.regs with hr | ⟨-, c, r, n, hr⟩
  · rw [hr]
  · rw [hr]; rfl

/-! ## Every step keeps the invariant -/

/-- An idle legal engine carries no mark. -/
theorem Engine.Legal.unmarked {e : Engine} (h : e.Legal) (hi : e.engState = .idle) :
    e.faulted = false ∧ e.stuck = false := by
  constructor <;> rw [← Bool.not_eq_true] <;> intro hm
  · exact absurd (hi.symm.trans (h.marks_busy (.inl hm))) (by decide)
  · exact absurd (hi.symm.trans (h.marks_busy (.inr hm))) (by decide)

/-- The invariant does not depend on the order of the engines nor on what canonical memory holds. -/
theorem State.Inv.of_perm {s t : State} (h : s.Inv) (hp : t.engines.Perm s.engines)
    (hm : Memory.wf t.mem = true) : t.Inv :=
  { h.perm (t := { t with mem := s.mem }) hp rfl with mem_wf := hm }

theorem Quiet.inv {s t : State} (q : Quiet s t) (h : s.Inv) : t.Inv := by
  refine h.of_perm q.perm ?_
  rcases q.mem with hm | ⟨a, v, -, hm⟩ <;> rw [hm]
  · exact h.mem_wf
  · exact Memory.wf_write _ _ _ h.mem_wf

theorem Engine.bitn_ne_of_token {e : Engine} {b : Bool} (h : e.position = .token b) : e.bitn ≠ 8 := by
  intro h8
  rw [Engine.position_control h8] at h
  cases h

/-! ### The reset -/

theorem State.platformReset_engines (s : State) :
    s.platformReset.engines = s.engines.map fun e => Engine.reset e.regBase := rfl

theorem State.platformReset_mem (s : State) :
    s.platformReset.mem = (s.engines.foldl State.abandon s).mem := rfl

/-- Engines fresh from reset meet their part of the invariant, wherever their register blocks lie. -/
theorem State.inv_of_reset {s : State} {bases : List Word} (he : s.engines = bases.map Engine.reset)
    (hm : Memory.wf s.mem = true) : s.Inv where
  mem_wf := hm
  legal := by
    rw [he]
    exact List.forall_mem_map.2 fun b _ => Engine.reset_legal b
  apart := by
    rw [he]
    exact List.pairwise_map.2 (List.pairwise_of_forall fun _ _ hb => nomatch hb)

theorem State.platformReset_inv {s : State} (hm : Memory.wf s.mem = true) : s.platformReset.Inv :=
  State.inv_of_reset (bases := s.engines.map Engine.regBase)
    (by rw [State.platformReset_engines, List.map_map]; rfl)
    (State.platformReset_mem s ▸ State.abandon_all_wf _ _ hm)

/-! ### The steps of an engine -/

/-- The end of an operation, at an unmarked engine, whatever of its working registers has changed. -/
theorem State.Inv.endOperation {s : State} (h : s.Inv) {e : Engine} (hd : Dict.wf e.dict = true)
    (hm : e.faulted = false ∧ e.stuck = false) {c : BitVec 4} (hc : c.toNat ≤ 2) (r n : Word) :
    (s.setEng (e.endOperation c r n)).Inv :=
  h.setEng (Engine.endOperation_legal hd hm.1 hm.2 hc r n) fun hb => nomatch hb

section
variable {s t : State} (h : s.Inv) (hm : s.eng.canMove = true)
include h hm

theorem State.Inv.stick : s.stick.Inv :=
  h.setEng (Engine.stick_legal h.eng_legal (Engine.canMove_iff.1 hm).1)
    fun _ => ⟨(Engine.canMove_iff.1 hm).1, rfl⟩

theorem State.Inv.orStick {o : Option State} (ht : s.orStick o = .next t) (ho : o = some t → t.Inv) :
    t.Inv := by
  rcases State.orStick_eq_next.1 ht with ht | ⟨-, rfl⟩
  · exact ho ht
  · exact h.stick hm

/-- A step of COMPRESS that leaves the cursors in range and room for the open group. -/
theorem State.Inv.compressed {e : Engine} {p i r d f} {mem : Memory} (ho : s.eng.opl = .compress)
    (he : e = { s.eng with bitn := e.bitn, off := e.off, dict := e.dict, enc := e.enc })
    (hmem : Memory.wf mem = true) (hdict : Dict.wf e.dict = true) (hbit : e.bitn.toNat ≤ 8)
    (hpos : e.enc.pos.toNat ≤ s.eng.lat.srcLen.toNat)
    (hroom : (e.bitn = 8 ∧ e.enc.opos = 0) ∨
      (e.enc.opos.toNat + 2 * (8 - e.bitn.toNat) < s.eng.lat.dstSize.toNat ∧
        e.enc.cmap.toNat < e.enc.opos.toNat)) :
    (⟨e, s.others, mem, p, i, r, d, f⟩ : State).Inv := by
  rw [he]
  exact h.setAll (Engine.compress_legal h.eng_legal ho hdict hbit hpos hroom)
    (fun _ => ⟨(Engine.canMove_iff.1 hm).1, rfl⟩) hmem

/-- The capacity check has left room for the group that opens. -/
theorem State.Inv.groupOpen {k : Byte} (ho : s.eng.opl = .compress)
    (hcap : s.eng.enc.opos.toNat + 17 < s.eng.lat.dstSize.toNat) (ht : s.groupOpen k = some t) :
    t.Inv := by
  obtain ⟨-, rfl⟩ := State.groupOpen_eq_some.1 ht
  have hb := (Engine.canMove_iff.1 hm).1
  have hsz := s.eng.lat.dstSize.isLt
  have hopos := cursor_add_one (c := s.eng.enc.opos) (by omega)
  have hcmap := cursor_word (c := s.eng.enc.opos) (by omega)
  refine h.compressed hm ho rfl (Memory.wf_write _ _ _ h.mem_wf) h.eng_legal.dict_wf
    (by decide : (0 : BitVec 4).toNat ≤ 8) (h.eng_legal.pos_range hb ho) (.inr ⟨?_, ?_⟩)
  · simp only [hopos]; omega
  · simp only [hopos, hcmap]; omega

/-- A token of `w` bytes, one or two, that covers `m` bytes of the source: the room of the open group pays for it. -/
theorem State.Inv.token {e : Engine} {w m : Nat} {p i r d f} {mem : Memory}
    (ho : s.eng.opl = .compress) (h8 : s.eng.bitn ≠ 8) (hw1 : 1 ≤ w) (hw2 : w ≤ 2)
    (hp : s.eng.enc.pos.toNat + m ≤ s.eng.lat.srcLen.toNat) (hmem : Memory.wf mem = true)
    (hcmap : e.enc.cmap = s.eng.enc.cmap) (hopos : e.enc.opos = s.eng.enc.opos + BitVec.ofNat 33 w)
    (hpos : e.enc.pos = s.eng.enc.pos + BitVec.ofNat 33 m)
    (he : e = { s.eng with bitn := s.eng.bitn + 1, enc := e.enc }) :
    (⟨e, s.others, mem, p, i, r, d, f⟩ : State).Inv := by
  have hb := (Engine.canMove_iff.1 hm).1
  have hl := h.eng_legal
  have hsz := s.eng.lat.dstSize.isLt
  have hsl := s.eng.lat.srcLen.isLt
  obtain ⟨hbit, hlt⟩ := bit_succ (hl.bitn_range hb) h8
  obtain ⟨hroom, hcm⟩ := (hl.group_room hb ho).resolve_left fun hn => h8 hn.1
  have hopos' : e.enc.opos.toNat = s.eng.enc.opos.toNat + w := by rw [hopos, cursor_add (by omega)]
  have hpos' : e.enc.pos.toNat = s.eng.enc.pos.toNat + m := by rw [hpos, cursor_add (by omega)]
  have hbit' : e.bitn.toNat = s.eng.bitn.toNat + 1 := by rw [he]; exact hbit
  refine h.compressed hm ho (by rw [he]) hmem (by rw [he]; exact hl.dict_wf) (by omega) (by omega)
    (.inr ⟨by omega, ?_⟩)
  rw [hcmap]
  omega

theorem State.Inv.emitLiteral {b : Byte} (ho : s.eng.opl = .compress) (h8 : s.eng.bitn ≠ 8)
    (hp : s.eng.enc.pos.toNat < s.eng.lat.srcLen.toNat) (ht : s.emitLiteral b = some t) : t.Inv := by
  obtain ⟨-, rfl⟩ := State.emitLiteral_eq_some.1 ht
  exact h.token hm (w := 1) (m := 1) ho h8 (by decide) (by decide) hp
    (Memory.wf_write _ _ _ h.mem_wf) rfl rfl rfl rfl

theorem State.Inv.emitMatch {n : BitVec 6} {off : BitVec 10} (ho : s.eng.opl = .compress)
    (h8 : s.eng.bitn ≠ 8) (hp : s.eng.enc.pos.toNat + matchLength n ≤ s.eng.lat.srcLen.toNat)
    (ht : s.emitMatch n off = some t) : t.Inv := by
  obtain ⟨-, -, -, rfl⟩ := State.emitMatch_eq_some.1 ht
  exact h.token hm (w := 2) ho h8 (by decide) (by decide) hp
    (Memory.wf_write _ _ _ (Memory.wf_write _ _ _ (Memory.wf_write _ _ _ h.mem_wf))) rfl rfl rfl rfl

/-- Choosing a token keeps the invariant, and that the engine runs, and moves no cursor. -/
theorem State.Inv.nextToken {i : Instr} {e : Engine} (ho : s.eng.opl = .compress)
    (hn : s.nextToken = some (i, e)) :
    (s.setEng e).Inv ∧ e.canMove = true ∧ e.opl = .compress ∧ e.bitn = s.eng.bitn ∧
      e.lat = s.eng.lat ∧ e.enc.pos = s.eng.enc.pos := by
  have hb := (Engine.canMove_iff.1 hm).1
  have hl := h.eng_legal
  obtain ⟨he, hd⟩ := State.nextToken_frame hn
  refine ⟨h.compressed hm ho ?_ h.mem_wf (hd hl.dict_wf) ?_ ?_ ?_, ?_⟩ <;> rw [he]
  · exact hl.bitn_range hb
  · exact hl.pos_range hb ho
  · exact hl.group_room hb ho
  · exact ⟨hm, ho, rfl, rfl, rfl⟩

theorem State.Inv.compressStep (ho : s.eng.opl = .compress) (ht : s.compressStep = .next t) :
    t.Inv := by
  rcases State.compressStep_cases hm ho ht with ⟨-, rfl⟩ | ⟨hp, ⟨-, -, rfl⟩ | ⟨-, hcap, ht⟩ |
    ⟨-, -, rfl⟩ | ⟨h8, b, e, hn, ht⟩ | ⟨h8, n, off, e, hn, hlen, ht⟩⟩
  · exact h.endOperation h.eng_legal.dict_wf (Engine.canMove_iff.1 hm).2 (by decide) _ _
  · exact h.endOperation h.eng_legal.dict_wf (Engine.canMove_iff.1 hm).2 (by decide) _ _
  · exact h.orStick hm ht (h.groupOpen hm ho hcap)
  · exact h.stick hm
  · obtain ⟨h', hm', ho', hbit, hlat, hpos⟩ := h.nextToken hm ho hn
    exact h'.orStick hm' ht (h'.emitLiteral hm' ho' (hbit ▸ h8) (by simpa [hlat, hpos] using hp))
  · obtain ⟨h', hm', ho', hbit, hlat, hpos⟩ := h.nextToken hm ho hn
    exact h'.orStick hm' ht (h'.emitMatch hm' ho' (hbit ▸ h8) (by simpa [hlat, hpos] using hlen))

theorem State.Inv.overrun (ho : s.eng.opl = .decompress) : s.overrun.Inv := by
  have hb := (Engine.canMove_iff.1 hm).1
  exact h.setAll (Engine.overrun_legal h.eng_legal hb ho) (fun _ => ⟨hb, rfl⟩)
    (s.drawDest_wf _ h.mem_wf)

/-- A step of DECOMPRESS that leaves the cursors in range. -/
theorem State.Inv.decoded {e : Engine} {p i r d f} {mem : Memory} (ho : s.eng.opl = .decompress)
    (hmem : Memory.wf mem = true) (hbit : e.bitn.toNat ≤ 8)
    (hip : e.dec.ip.toNat ≤ s.eng.lat.srcLen.toNat) (hop : e.dec.op.toNat ≤ s.eng.lat.dstSize.toNat)
    (he : e = { s.eng with bitn := e.bitn, off := e.off, dec := e.dec }) :
    (⟨e, s.others, mem, p, i, r, d, f⟩ : State).Inv := by
  rw [he]
  exact h.setAll (Engine.decompress_legal h.eng_legal ho hbit hip hop)
    (fun _ => ⟨(Engine.canMove_iff.1 hm).1, rfl⟩) hmem

theorem State.Inv.controlFetch {k : Byte} (ho : s.eng.opl = .decompress)
    (hip : s.eng.dec.ip.toNat + 1 ≤ s.eng.lat.srcLen.toNat) : (s.controlFetch k).Inv := by
  have hsl := s.eng.lat.srcLen.isLt
  exact h.decoded hm ho h.mem_wf (by decide : (0 : BitVec 4).toNat ≤ 8)
    ((cursor_add_one (by omega)).trans_le hip)
    (h.eng_legal.op_range (Engine.canMove_iff.1 hm).1 ho) rfl

theorem State.Inv.decodeLiteral {b : Byte} (ho : s.eng.opl = .decompress) (h8 : s.eng.bitn ≠ 8)
    (hip : s.eng.dec.ip.toNat + 1 ≤ s.eng.lat.srcLen.toNat)
    (hop : s.eng.dec.op.toNat < s.eng.lat.dstSize.toNat) (ht : s.decodeLiteral b = some t) :
    t.Inv := by
  obtain ⟨-, rfl⟩ := State.decodeLiteral_eq_some.1 ht
  have hsl := s.eng.lat.srcLen.isLt
  have hsz := s.eng.lat.dstSize.isLt
  obtain ⟨hbit, hlt⟩ := bit_succ (h.eng_legal.bitn_range (Engine.canMove_iff.1 hm).1) h8
  exact h.decoded hm ho (Memory.wf_write _ _ _ h.mem_wf) (hbit.trans_le hlt)
    ((cursor_add_one (by omega)).trans_le hip) ((cursor_add_one (by omega)).trans_le hop) rfl

theorem State.Inv.decodeMatch {n : BitVec 6} {off : BitVec 10} (ho : s.eng.opl = .decompress)
    (h8 : s.eng.bitn ≠ 8) (hip : s.eng.dec.ip.toNat + 2 ≤ s.eng.lat.srcLen.toNat)
    (hop : s.eng.dec.op.toNat < s.eng.lat.dstSize.toNat) (ht : s.decodeMatch n off = some t) :
    t.Inv := by
  rcases State.decodeMatch_cases ht with ⟨-, rfl⟩ | ⟨-, u, hu, rfl⟩
  · exact h.endOperation (e := s.eng.unpackMatch n off) (c := codeCorruptStream)
      h.eng_legal.dict_wf (Engine.canMove_iff.1 hm).2 (by decide) _ _
  have hsl := s.eng.lat.srcLen.isLt
  have hsz := s.eng.lat.dstSize.isLt
  obtain ⟨hbit, hlt⟩ := bit_succ (h.eng_legal.bitn_range (Engine.canMove_iff.1 hm).1) h8
  obtain ⟨m, hmin, he, hst, hwf, -⟩ := State.overlapCopy_spec hu (Nat.le_of_lt hop)
  rw [hst, he]
  refine h.decoded hm ho (hwf h.mem_wf) (hbit.trans_le hlt)
    ((cursor_add_two (by omega)).trans_le hip) ?_ rfl
  have hle : m ≤ s.eng.lat.dstSize.toNat - s.eng.dec.op.toNat := hmin.trans_le (Nat.min_le_right _ _)
  show (s.eng.dec.op + BitVec.ofNat 33 m).toNat ≤ _
  rw [cursor_add (by omega)]
  omega

theorem State.Inv.decompressStep (ho : s.eng.opl = .decompress) (ht : s.decompressStep = .next t) :
    t.Inv := by
  rcases State.decompressStep_cases hm ho ht with ⟨-, rfl⟩ | ⟨hop, ⟨-, rfl⟩ | ⟨hip, rfl |
    ⟨hpos, k, rfl⟩ | ⟨hpos, b, ht⟩ | ⟨hpos, n, off, ht⟩⟩⟩
  · exact h.endOperation h.eng_legal.dict_wf (Engine.canMove_iff.1 hm).2 (by decide) _ _
  · exact h.overrun hm ho
  · exact h.stick hm
  · exact h.controlFetch hm ho (by rwa [hpos] at hip)
  · rw [hpos] at hip
    exact h.orStick hm ht (h.decodeLiteral hm ho (Engine.bitn_ne_of_token hpos) hip hop)
  · rw [hpos] at hip
    exact h.orStick hm ht (h.decodeMatch hm ho (Engine.bitn_ne_of_token hpos) hip hop)

end

theorem State.Inv.engineStep {s t : State} (h : s.Inv) (ht : s.engineStep = .next t) : t.Inv := by
  cases hm : s.eng.canMove with
  | false =>
    rw [State.engineStep_rest hm] at ht
    cases ht
    exact h
  | true =>
    cases ho : s.eng.opl with
    | compress => exact h.compressStep hm ho (State.engineStep_compress hm ho ▸ ht)
    | decompress => exact h.decompressStep hm ho (State.engineStep_decompress hm ho ▸ ht)

/-! ### The host commands -/

/-- A latched operation is legal where its regions neither wrap nor meet and its own cursors start at 0. -/
theorem Engine.latch_legal {e : Engine} (h : e.Legal) (hi : e.engState = .idle) (o : Operation)
    (hsrc : e.regs.srcAddr.toNat + e.regs.srcLen.toNat ≤ 2 ^ 32)
    (hdst : e.regs.dstAddr.toNat + e.regs.dstSize.toNat ≤ 2 ^ 32)
    (hmeet : spansMeet e.regs.srcAddr.toNat e.regs.srcLen.toNat
      e.regs.dstAddr.toNat e.regs.dstSize.toNat = false) {dict : Dict} {enc : EncRegs} {dec : DecRegs}
    (hdict : Dict.wf dict = true) (henc : o = .compress → enc.pos = 0 ∧ enc.opos = 0)
    (hdec : o = .decompress → dec.ip = 0 ∧ dec.op = 0) :
    ({ e.latch o with bitn := 8, dict := dict, enc := enc, dec := dec } : Engine).Legal where
  code_range := Nat.zero_le 2
  code_zero := fun _ => rfl
  busy_not_done := fun _ => rfl
  marks_busy := fun _ => rfl
  fault_decompress := fun hf => absurd (hf.symm.trans (h.unmarked hi).1) (by decide)
  dict_wf := hdict
  bitn_range := fun _ => Nat.le_refl 8
  src_fits := fun _ => hsrc
  dst_fits := fun _ => hdst
  disjoint := fun _ => hmeet
  pos_range := fun _ ho => by simp [(henc ho).1]
  group_room := fun _ ho => .inl ⟨rfl, (henc ho).2⟩
  ip_range := fun _ ho => by simp [(hdec ho).1]
  op_range := fun _ ho => by simp [(hdec ho).2]

/-- An acceptance leaves a legal engine where the registers describe regions that neither wrap nor meet. -/
theorem Engine.accept_legal {e : Engine} (h : e.Legal) (hi : e.engState = .idle) (o : Operation)
    (hsrc : e.regs.srcAddr.toNat + e.regs.srcLen.toNat ≤ 2 ^ 32)
    (hdst : e.regs.dstAddr.toNat + e.regs.dstSize.toNat ≤ 2 ^ 32)
    (hmeet : spansMeet e.regs.srcAddr.toNat e.regs.srcLen.toNat
      e.regs.dstAddr.toNat e.regs.dstSize.toNat = false) : (e.accept o).Legal := by
  cases o with
  | compress =>
    exact Engine.latch_legal h hi .compress hsrc hdst hmeet Dict.wf_nil (fun _ => ⟨rfl, rfl⟩)
      fun ho => nomatch ho
  | decompress =>
    exact Engine.latch_legal h hi .decompress hsrc hdst hmeet h.dict_wf (fun ho => nomatch ho)
      fun _ => ⟨rfl, rfl⟩

/-- An acceptance latches the operand registers. -/
theorem Engine.accept_lat (e : Engine) (o : Operation) : (e.accept o).lat =
    ⟨e.regs.srcAddr, e.regs.srcLen, e.regs.dstAddr, e.regs.dstSize⟩ := by
  cases o <;> rfl

/-- An accepted operation keeps apart from a running engine its registers do not clash with. -/
theorem Engine.accept_apart {e f : Engine} (o : Operation) (h : e.clashes f = false) :
    (e.accept o).apart f := by
  intro _ hf
  simpa [Engine.clashes, Engine.busy_iff.2 hf, Engine.accept_lat, and_comm, and_left_comm,
    and_assoc] using h

section
variable {s t : State} (h : s.Inv)
include h

theorem State.Inv.setRegs {e : Engine} (he : e = { s.eng with regs := e.regs })
    (hd : e.regs.done = s.eng.regs.done) (hc : e.regs.code = s.eng.regs.code) : (s.setEng e).Inv :=
  h.setEng (Engine.regs_legal h.eng_legal he hd hc) fun hb => by
    rw [he] at hb ⊢
    exact ⟨hb, rfl⟩

theorem State.Inv.accept (o : Operation) (hi : s.eng.engState = .idle) (hp : s.placement = none) :
    (s.setEng (s.eng.accept o)).Inv := by
  obtain ⟨hsrc, hdst, hmeet, hclash⟩ := State.placement_none_spec hp
  refine ⟨h.mem_wf, ?_, ?_⟩
  · exact List.forall_mem_cons.2 ⟨Engine.accept_legal h.eng_legal hi o hsrc hdst hmeet,
      (List.forall_mem_cons.1 h.legal).2⟩
  · exact List.pairwise_cons.2 ⟨fun f hf => Engine.accept_apart o (hclash f hf),
      (List.pairwise_cons.1 h.apart).2⟩

theorem State.Inv.startCommand {op : BitVec 2} (ht : s.startCommand op = .next t) : t.Inv := by
  have hop : (s.setEng (s.eng.setCtrlOp op)).Inv := h.setRegs rfl rfl rfl
  rcases startCommand_cases ht with ⟨-, rfl⟩ | ⟨hi, ⟨-, rfl⟩ | ⟨o, -, ⟨r, -, rfl⟩ | ⟨hp, rfl⟩⟩⟩
  · exact hop.same rfl rfl
  · exact h.endOperation (e := s.eng.setCtrlOp op) (c := codeBadOp) h.eng_legal.dict_wf
      (h.eng_legal.unmarked hi) (by decide) _ _
  · exact hop.same rfl rfl
  · exact hop.accept o hi hp

theorem State.Inv.writeReg {r : Reg} {v : Word} (ht : execWriteReg r v s = .next t) : t.Inv := by
  cases r with
  | ctrl =>
    simp only [execWriteReg] at ht
    split at ht
    · exact h.startCommand ht
    · cases ht
      exact h.setRegs rfl rfl rfl
  | status | result | inConsumed => cases ht; exact h
  | srcAddr | srcLen | dstAddr | dstSize => cases ht; exact h.setRegs rfl rfl rfl

/-- A decoded host access keeps the invariant. -/
theorem State.Inv.exec_access {a : BusAccess} {i : Instr} (hd : decodeAccess a = .ok i)
    (ht : exec i s = .next t) : t.Inv := by
  obtain ⟨hctl, hlit, hmatch⟩ := decodeAccess_host hd
  cases i with
  | startCompress | startDecompress | startBadop00 | startBadop11 => exact h.startCommand ht
  | setOp => cases ht; exact h.setRegs rfl rfl rfl
  | writeReg => exact h.writeReg ht
  | readReg =>
    rw [readReg_frame ht]
    exact h.same rfl rfl
  | ctl k => exact absurd rfl (hctl k)
  | lit b => exact absurd rfl (hlit b)
  | matchTok n off => exact absurd rfl (hmatch n off)

end

/-- Settles O50, by what acts in the step: the reset, an engine, a decoded access, or nothing that touches an engine. -/
theorem stepKeepsTheInvariant : Obligations.StepKeepsTheInvariant := by
  intro s t h ht
  rcases step_cases ht with ⟨rest, -, rfl⟩ | ⟨u, hp, hu, ht⟩ | ⟨u, j, addr, v, rest, -, hf, hd, ht⟩ | q
  · exact State.platformReset_inv h.mem_wf
  · exact (h.perm hp (by rw [hu])).engineStep ht
  · exact ((h.same (t := { s with inputs := rest }) rfl rfl).focus hf).exec_access hd ht
  · exact q.inv h

/-- Settles O49: the state after reset is engines fresh from reset over empty memory. -/
theorem resetMeetsTheInvariant : Obligations.ResetMeetsTheInvariant :=
  State.inv_of_reset (bases := Config.regBase0 :: Config.regBases) rfl Memory.wf_nil

/-! ## RESULT and IN_CONSUMED -/

theorem startCommand_results {s t : State} {op : BitVec 2} (h : s.startCommand op = .next t) :
    s.eng.ResultsAtEnd t.eng := by
  rcases startCommand_cases h with ⟨-, rfl⟩ | ⟨-, ⟨-, rfl⟩ | ⟨o, -, ⟨r, -, rfl⟩ | ⟨-, rfl⟩⟩⟩
  · exact .of_regs rfl rfl
  · exact fun _ => ⟨rfl, rfl⟩
  · exact .of_regs rfl rfl
  · cases o <;> exact .of_regs rfl rfl

theorem execWriteReg_results {s t : State} {r : Reg} {v : Word} (h : execWriteReg r v s = .next t) :
    s.eng.ResultsAtEnd t.eng := by
  cases r with
  | ctrl =>
    simp only [execWriteReg] at h
    split at h
    · exact startCommand_results h
    · cases h
      exact .of_regs rfl rfl
  | _ => cases h; exact .of_regs rfl rfl

theorem exec_results {i : Instr} {s t : State} (h : exec i s = .next t) :
    s.eng.ResultsAtEnd t.eng := by
  cases i with
  | startCompress | startDecompress | startBadop00 | startBadop11 => exact startCommand_results h
  | setOp => cases h; exact .of_regs rfl rfl
  | writeReg => exact execWriteReg_results h
  | readReg =>
    rw [readReg_frame h]
    exact .of_regs rfl rfl
  | ctl k => exact (exec_element_ownStep (.inl ⟨k, rfl⟩) h).results
  | lit b => exact (exec_element_ownStep (.inr (.inl ⟨b, rfl⟩)) h).results
  | matchTok n off => exact (exec_element_ownStep (.inr (.inr ⟨n, off, rfl⟩)) h).results

/-- A relation that holds of the acting engine before and after, and of every engine and itself, holds of all the
engines where the others are left alone. -/
theorem State.engines_forall₂ {R : Engine → Engine → Prop} {s t : State} (hR : ∀ e, R e e)
    (he : R s.eng t.eng) (ho : t.others = s.others) : List.Forall₂ R s.engines t.engines := by
  rw [State.engines, State.engines, ho]
  exact .cons he (List.forall₂_same.2 fun e _ => hR e)

/-- Settles O18: of each instruction by its cases, of each step by what acts in it. -/
theorem resultsAreWrittenOnlyAtTheEnd : Obligations.ResultsAreWrittenOnlyAtTheEnd := by
  refine ⟨fun i s t h => exec_results h, fun s t h => ?_⟩
  have ended : ∀ {e f : Engine}, e.ResultsAtEnd f → f.regs.result ≠ e.regs.result ∨
      f.regs.inConsumed ≠ e.regs.inConsumed → f.engState = .idle ∧ (f.regs.done = true ∨
        (∃ rest : List Input, s.inputs = .reset :: rest) ∧ f = Engine.reset e.regBase) :=
    fun hef hne => ⟨(hef hne).1, .inl (hef hne).2⟩
  have same : ∀ e : Engine, e.ResultsAtEnd e := fun _ => .of_regs rfl rfl
  rcases step_cases h with ⟨rest, hin, rfl⟩ | ⟨u, hp, -, h⟩ | ⟨u, j, addr, v, rest, -, hf, -, h⟩ | q
  · refine ⟨s.engines, .refl _, ?_⟩
    rw [State.platformReset_engines]
    exact List.forall₂_map_right_iff.2 (List.forall₂_same.2 fun e _ =>
      ⟨rfl, fun _ => ⟨rfl, .inr ⟨⟨rest, hin⟩, rfl⟩⟩⟩)
  · have o := engineStep_ownStep h
    exact ⟨u.engines, hp, State.engines_forall₂ (fun e => ⟨rfl, ended (same e)⟩)
      ⟨o.regBase, ended o.results⟩ (by rw [o.frame])⟩
  · obtain ⟨hbase, hfr⟩ := exec_frame h
    exact ⟨u.engines, (State.focusBy_spec hf).1, State.engines_forall₂
      (fun e => ⟨rfl, ended (same e)⟩) ⟨hbase, ended (exec_results h)⟩ (by rw [hfr])⟩
  · exact ⟨t.engines, q.perm, List.forall₂_same.2 fun e _ => ⟨rfl, ended (same e)⟩⟩

/-! ## Register accesses -/

/-- The offsets that name no register. -/
theorem regAt_eq_none {o : Nat} : regAt o = none ↔ o % 4 ≠ 0 ∨ 0x20 ≤ o := by
  constructor
  · contrapose!
    rintro ⟨h4, h32⟩
    obtain ⟨k, rfl⟩ := Nat.dvd_of_mod_eq_zero h4
    have hk : k < 8 := by omega
    interval_cases k <;> simp [regAt]
  · intro h
    cases hr : regAt o with
    | none => rfl
    | some r =>
      have := regAt_some o r hr
      have := r.offset_aligned
      have := r.offset_lt
      omega

/-- When the decoder refuses a host access (10_state.md R39). -/
theorem decodeAccess_error_iff {a : BusAccess} : (∃ e, decodeAccess a = .error e) ↔
    (a.width ≠ 32 ∨ a.offset % 4 ≠ 0 ∨ 0x20 ≤ a.offset) := by
  rw [← regAt_eq_none]
  unfold decodeAccess
  by_cases hw : a.width = 32
  · cases hr : regAt a.offset with
    | none => by_cases h4 : a.offset % 4 = 0 <;> simp [hw, h4]
    | some r =>
      have h4 : a.offset % 4 = 0 := regAt_some _ _ hr ▸ r.offset_aligned
      cases a.data with
      | none => simp [hw, h4]
      | some v => cases r <;> simp [hw, h4]
  · simp [hw]

/-- Settles O7: the refused accesses are those the decoder answers an error for. -/
theorem badRegisterAccessesAreRefused : Obligations.BadRegisterAccessesAreRefused := by
  refine ⟨fun a => decodeAccess_error_iff, fun s t addr width data hf hbad => ?_⟩
  obtain ⟨e, he⟩ := (decodeAccess_error_iff (a := ⟨addr - t.eng.regBase.toNat, width, data⟩)).2 hbad
  simp only [State.accessStep, hf, he]
  rfl

/-- Settles O37: the step takes the access off the list, focuses the engine at its address and runs what it decodes to. -/
theorem stepRunsTheDecodedAccess : Obligations.StepRunsTheDecodedAccess := by
  intro s t addr data rest i hr hin hf hd
  rw [step_access hr hin]
  simp only [State.accessStep, hf, hd]

/-! ## The state after reset -/

theorem Engine.reset_readReg (b : Word) (r : Reg) : (Engine.reset b).readReg r = 0 := by
  cases r <;> rfl

/-- Settles O48: every engine of the state after reset is one fresh from reset. -/
theorem resetStateReadsZero : Obligations.ResetStateReadsZero := by
  refine ⟨rfl, ?_⟩
  have he : State.reset.engines = (Config.regBase0 :: Config.regBases).map Engine.reset := rfl
  rw [he]
  exact List.forall_mem_map.2 fun b _ => ⟨rfl, rfl, Engine.reset_readReg b⟩

end Sys2Proof.Machine

/-! SUPPORT and PROOFS of the statements of 20_memory.md. First when the match search reads only the source; then what
stalls an engine; then which bytes a step of an engine can change; then the host's accesses. -/

namespace Sys2Proof.Machine

/-! ## What a match attempt reads -/

/-- With OFF not 0 and the candidate in the source, the candidate check is the comparison of the first three bytes. -/
theorem candidateCheck_eq_sameBytes {rd : Nat → Option Byte} {pos : Nat} {off : BitVec 10} {cand : Int}
    (hc : 0 ≤ cand) (ho : off ≠ 0) : candidateCheck rd pos off cand = sameBytes rd 3 cand.toNat pos := by
  unfold candidateCheck
  rw [if_neg (by omega), if_neg ho]
  rfl

/-- The candidate check completes where every byte below a limit can be read. -/
theorem candidateCheck_total {rd : Nat → Option Byte} {pos lim : Nat} (off : BitVec 10) {cand : Int}
    (hrd : ∀ i, i < lim → ∃ b, rd i = some b) (hp : pos + 3 ≤ lim) (hc : cand ≤ pos) :
    ∃ r, candidateCheck rd pos off cand = some r := by
  by_cases h0 : cand < 0
  · exact ⟨false, if_pos h0⟩
  · by_cases ho : off = 0
    · exact ⟨false, (if_neg h0).trans (if_pos ho)⟩
    · rw [candidateCheck_eq_sameBytes (by omega) ho]
      exact sameBytes_total hrd (by omega) hp

/-- A candidate does not lie after the position. -/
theorem candidatePos_le (pos : Nat) (off : BitVec 10) : candidatePos pos off ≤ pos := by
  unfold candidatePos
  omega

/-- Settles O23: the hash, the candidate check and the extension each complete on the bytes below src_len. -/
theorem attemptReadsOnlyTheSource : Obligations.AttemptReadsOnlyTheSource := by
  intro base s hp hrd
  obtain ⟨b0, h0⟩ := hrd s.eng.enc.pos.toNat (by omega)
  obtain ⟨b1, h1⟩ := hrd (s.eng.enc.pos.toNat + 1) (by omega)
  obtain ⟨b2, h2⟩ := hrd (s.eng.enc.pos.toNat + 2) (by omega)
  simp only [State.matchAttempt, h0, h1, h2, Option.bind_some]
  generalize he : s.eng.afterUpdate base (hashIndex b0 b1 b2) = e
  have hcand : e.enc.cand ≤ s.eng.enc.pos.toNat := he ▸ candidatePos_le _ _
  obtain ⟨accepted, hacc⟩ := candidateCheck_total e.off hrd (by omega) hcand
  rw [hacc, Option.bind_some]
  cases accepted with
  | false => exact ⟨_, _, rfl, .inl ⟨_, rfl⟩⟩
  | true =>
    obtain ⟨len, hlen⟩ : ∃ len, matchedLength s.srcByte s.eng.enc.pos.toNat e.enc.cand.toNat = some len :=
      matchExtension_total hrd hp (by omega)
    rw [hlen]
    exact ⟨_, _, rfl, .inr ⟨_, _, rfl⟩⟩

/-! ## What stalls an engine -/

/-- A stuck engine takes no step. -/
theorem State.engineStep_stick (s : State) : s.stick.engineStep = .next s.stick :=
  State.engineStep_rest (by simp [Engine.canMove])

/-- An action without a result leaves the engine stuck. -/
theorem State.orStick_eq_stick {s : State} {o : Option State} (h : ∀ t, o ≠ some t) :
    s.orStick o = .next s.stick := by
  rw [Option.eq_none_iff_forall_ne_some.2 h]
  rfl

/-- The host reads STATUS of a running operation that has not faulted as BUSY alone. -/
theorem exec_readStatus_of_busy {s : State} (hl : s.eng.Legal) (hb : s.eng.engState = .busy)
    (hf : s.eng.faulted = false) :
    exec (.readReg .status) s = .next (s.respond (.reg 0x00000001)) := by
  have hd := hl.busy_not_done hb
  have hw : s.eng.statusWord = 0x00000001 := by
    simp [Engine.statusWord, hd, hl.code_zero hd, Engine.busy_iff.2 hb]
  simp [exec, execReadReg, State.readRegister, hf, Engine.readReg, hw]

/-- CPY of a legal offset, as a natural number (43_decoder.md R219). -/
theorem Engine.setCopy_cpy_toNat {e : Engine} {off : BitVec 10} (h : off.toNat ≤ e.dec.op.toNat) :
    (e.setCopy off).dec.cpy.toNat = e.dec.op.toNat - off.toNat := by
  have := off.isLt
  have := e.dec.op.isLt
  rw [Engine.setCopy_dec_cpy, BitVec.toNat_sub, BitVec.toNat_setWidth]
  omega

/-- A match of a legal offset that is decoded has reached backed bytes only, read or written. -/
theorem State.decodeMatch_ordinary {s t : State} {n : BitVec 6} {off : BitVec 10}
    (h : s.decodeMatch n off = some t) (h1 : 1 ≤ off.toNat) (ho : off.toNat ≤ s.eng.dec.op.toNat) {c : Nat}
    (hc : c < min (n.toNat + 3) (s.eng.lat.dstSize.toNat - s.eng.dec.op.toNat)) :
    s.platform.ordinary (s.eng.lat.dstBase.toNat + (s.eng.dec.op.toNat - off.toNat + c)) = true ∧
      s.platform.ordinary (s.eng.lat.dstBase.toNat + (s.eng.dec.op.toNat + c)) = true := by
  rcases State.decodeMatch_cases h with ⟨hbad, -⟩ | ⟨-, u, hu, -⟩
  · rcases (Engine.badOffset_iff _ _).1 hbad with hbad | rfl
    · exact absurd ho (Nat.not_le.2 hbad)
    · exact absurd h1 (by decide)
  · have hcpy := Engine.setCopy_cpy_toNat (e := s.eng.unpackMatch n off) ho
    have := State.overlapCopy_ordinary hu (by simp only [State.setEng_eng, hcpy]; exact Nat.sub_le _ _) c hc
    rwa [State.setEng_eng, hcpy] at this

/-- Settles O42: an element completes only where each of its accesses is backed. -/
theorem accessWithoutMemoryStallsTheEngine : Obligations.AccessWithoutMemoryStallsTheEngine := by
  intro k b n off s hm
  obtain ⟨hb, hf, -⟩ := Engine.canMove_iff.1 hm
  have backed : ∀ {a}, s.platform.ordinary a = false → s.platform.ordinary a ≠ true :=
    fun h => by simp [h]
  refine ⟨fun ho hmiss => ⟨?_, ?_⟩, fun ho hmiss => ?_, fun ho hmiss => ?_, fun ho h1 hop hmiss => ?_,
    s.engineStep_stick, fun hinv => ?_⟩
  · rw [exec_ctl_compress k hm ho]
    exact State.orStick_eq_stick fun t ht => backed hmiss (State.groupOpen_eq_some.1 ht).1
  · rw [exec_lit_compress b hm ho]
    exact State.orStick_eq_stick fun t ht => backed hmiss (State.emitLiteral_eq_some.1 ht).1
  · rw [exec_match_compress n off hm ho]
    refine State.orStick_eq_stick fun t ht => ?_
    obtain ⟨hcmap, hopos, hnext, -⟩ := State.emitMatch_eq_some.1 ht
    rcases hmiss with hmiss | hmiss | hmiss
    · exact backed hmiss hcmap
    · exact backed hmiss hopos
    · exact backed hmiss hnext
  · rw [exec_lit_decompress b hm ho]
    exact State.orStick_eq_stick fun t ht => backed hmiss (State.decodeLiteral_eq_some.1 ht).1
  · rw [exec_match_decompress n off hm ho]
    refine State.orStick_eq_stick fun t ht => ?_
    obtain ⟨c, hc, hmiss⟩ := hmiss
    obtain ⟨hread, hwritten⟩ := State.decodeMatch_ordinary ht h1 hop hc
    rcases hmiss with hmiss | hmiss
    · exact backed hmiss hwritten
    · exact backed hmiss hread
  · exact exec_readStatus_of_busy (Engine.stick_legal hinv.eng_legal hb) hb hf

/-- Where no token can be chosen, the step of COMPRESS with a group open leaves the engine stuck. -/
theorem State.engineStep_of_nextToken_none {s : State} (hm : s.eng.canMove = true)
    (ho : s.eng.opl = .compress) (hp : s.eng.enc.pos.toNat < s.eng.lat.srcLen.toNat)
    (h8 : s.eng.bitn ≠ 8) (h : s.nextToken = none) : s.engineStep = .next s.stick := by
  rw [State.engineStep_compress hm ho]
  unfold State.compressStep
  rw [if_neg (by omega), if_neg (by rwa [Engine.groupFull_iff]), h]

theorem Engine.tailGuard_iff {e : Engine} :
    e.tailGuard = true ↔ e.lat.srcLen.toNat < e.enc.pos.toNat + 66 := by
  simp [Engine.tailGuard, Config.matchMax, Config.matchMin, Config.matchBits]

/-- Under the tail guard the token is the literal SRC[POS], so it needs that byte. -/
theorem State.nextToken_of_tail {s : State} (hg : s.eng.lat.srcLen.toNat < s.eng.enc.pos.toNat + 66)
    (h : s.srcByte s.eng.enc.pos.toNat = none) : s.nextToken = none := by
  unfold State.nextToken
  rw [if_pos (Engine.tailGuard_iff.2 hg), h]
  rfl

/-- Before the tail the token is that of the attempt. -/
theorem State.nextToken_of_attempt {s : State} (hg : s.eng.enc.pos.toNat + 66 ≤ s.eng.lat.srcLen.toNat) :
    s.nextToken = s.matchAttempt Config.slotBase := by
  unfold State.nextToken
  rw [if_neg (by rw [Engine.tailGuard_iff]; omega)]

/-- An attempt needs the three bytes of the hash (41_match_search.md R150). -/
theorem State.matchAttempt_none_of_hash {s : State} {base c : Nat} (hc : c < 3)
    (h : s.srcByte (s.eng.enc.pos.toNat + c) = none) : s.matchAttempt base = none := by
  refine Option.eq_none_iff_forall_ne_some.2 fun r hr => ?_
  obtain ⟨b0, b1, b2, h0, h1, h2, -⟩ := matchAttempt_cases hr
  interval_cases c
  · exact nomatch h0.symm.trans h
  · exact nomatch h1.symm.trans h
  · exact nomatch h2.symm.trans h

/-- OFF at SLOT_BASE 0, as a natural number (41_match_search.md R152). -/
theorem candidateOffset_toNat (pos : Nat) (old : Slot) :
    (candidateOffset (slotTag Config.slotBase pos) old).toNat =
      (pos % 65536 + 65536 - old.toNat) % 1024 := by
  have := old.isLt
  simp only [candidateOffset, slotTag, Config.slotBase, BitVec.toNat_setWidth, BitVec.toNat_sub,
    BitVec.toNat_ofNat]
  omega

/-- A candidate in the source is neither rejected nor measured past the first byte that cannot be read. -/
theorem candidate_undecided_of_unreadable {rd : Nat → Option Byte} {pos c : Nat} {off : BitVec 10} {cand : Int}
    (hcand : 0 ≤ cand) (hoff : off ≠ 0) (hc : c < 66)
    (heq : ∀ j, j < c → rd (cand.toNat + j) = rd (pos + j))
    (h : rd (cand.toNat + c) = none ∨ rd (pos + c) = none) :
    candidateCheck rd pos off cand ≠ some false ∧
      (candidateCheck rd pos off cand = some true → matchedLength rd pos cand.toNat = none) := by
  rw [candidateCheck_eq_sameBytes hcand hoff]
  by_cases h3 : c < 3
  · rw [sameBytes_none h3 heq h]
    exact ⟨nofun, nofun⟩
  · refine ⟨fun hs => ?_, fun _ => matchExtension_none (by simp [Config.matchMin]; omega)
      (by simp [Config.matchMax, Config.matchMin, Config.matchBits]; omega) (fun j _ hj => heq j hj) h⟩
    obtain ⟨k, hk, hne⟩ := sameBytes_false hs
    exact hne (heq k (by omega))

/-- An attempt needs the first byte of either run that its candidate's check or extension comes to. -/
theorem State.matchAttempt_none_of_run {s : State} {b0 b1 b2 : Byte} {off c : Nat}
    (h0 : s.srcByte s.eng.enc.pos.toNat = some b0) (h1 : s.srcByte (s.eng.enc.pos.toNat + 1) = some b1)
    (h2 : s.srcByte (s.eng.enc.pos.toNat + 2) = some b2)
    (hoff : off = (s.eng.enc.pos.toNat % 65536 + 65536 -
      (Dict.read s.eng.dict (hashIndex b0 b1 b2)).toNat) % 1024)
    (hpos : 1 ≤ off) (hle : off ≤ s.eng.enc.pos.toNat) (hc : c < 66)
    (heq : ∀ j, j < c → s.srcByte (s.eng.enc.pos.toNat - off + j) = s.srcByte (s.eng.enc.pos.toNat + j))
    (h : s.srcByte (s.eng.enc.pos.toNat - off + c) = none ∨ s.srcByte (s.eng.enc.pos.toNat + c) = none) :
    s.matchAttempt Config.slotBase = none := by
  refine Option.eq_none_iff_forall_ne_some.2 fun r hr => ?_
  obtain ⟨_, _, _, h0', h1', h2', e, he, hr⟩ := matchAttempt_cases hr
  cases h0.symm.trans h0'
  cases h1.symm.trans h1'
  cases h2.symm.trans h2'
  have hoff' : e.off.toNat = off := by rw [he, hoff]; exact candidateOffset_toNat _ _
  have hcand : e.enc.cand = (s.eng.enc.pos.toNat - off : Nat) := by
    have : e.enc.cand = candidatePos s.eng.enc.pos.toNat e.off := by rw [he]; rfl
    rw [this, candidatePos, hoff']
    omega
  have hne : e.off ≠ 0 := fun h0 => by
    rw [h0] at hoff'
    exact absurd (hoff' ▸ hpos) (by decide)
  obtain ⟨hrejected, haccepted⟩ := candidate_undecided_of_unreadable (rd := s.srcByte) (cand := e.enc.cand)
    (by omega) hne hc (by rwa [hcand, Int.toNat_natCast]) (by rwa [hcand, Int.toNat_natCast])
  rcases hr with ⟨hno, -, -⟩ | ⟨hyes, len, hlen, -, -⟩
  · exact hrejected hno
  · exact nomatch (haccepted hyes).symm.trans hlen

theorem readBytes_eq_none {rd : Nat → Option Byte} {n i c : Nat} (hc : c < n) (h : rd (i + c) = none) :
    readBytes rd n i = none := by
  induction n generalizing i c with
  | zero => omega
  | succ n ih =>
    cases c with
    | zero => simp [readBytes, show rd i = none from h]
    | succ c =>
      have hr := ih (i := i + 1) (c := c) (by omega) (by rwa [Nat.add_assoc, Nat.add_comm 1])
      cases hi : rd i <;> simp [readBytes, hi, hr]

/-- A fetch needs every byte of the next element (43_decoder.md R212 to R214). -/
theorem State.fetch_stuck {s : State} {c : Nat}
    (hl : s.eng.dec.ip.toNat + s.eng.position.length ≤ s.eng.lat.srcLen.toNat)
    (hc : c < s.eng.position.length) (h : s.srcByte (s.eng.dec.ip.toNat + c) = none) :
    s.fetch = .stuck := by
  unfold State.fetch
  simp only [readBytes_eq_none hc h]
  rw [if_neg (by omega)]

/-- Where the fetch is stuck before dst_size, the step of DECOMPRESS leaves the engine stuck. -/
theorem State.engineStep_of_fetch_stuck {s : State} (hm : s.eng.canMove = true)
    (ho : s.eng.opl = .decompress) (hlt : s.eng.dec.op.toNat < s.eng.lat.dstSize.toNat)
    (h : s.fetch = .stuck) : s.engineStep = .next s.stick := by
  rw [State.engineStep_decompress hm ho]
  unfold State.decompressStep
  rw [if_neg (by omega), h]

/-- Settles O43: the choice of a token, or the fetch of an element, has no answer without the byte. -/
theorem unreadableSourceStallsTheEngine : Obligations.UnreadableSourceStallsTheEngine := by
  intro s hm
  refine ⟨fun ho hp h8 => ?_, fun ho hlt => ?_, s.engineStep_stick⟩
  · have stuck : s.nextToken = none → s.engineStep = .next s.stick :=
      State.engineStep_of_nextToken_none hm ho hp h8
    refine ⟨fun hg h => stuck (State.nextToken_of_tail hg h), fun hg => ?_⟩
    rw [State.nextToken_of_attempt hg] at stuck
    exact ⟨fun c hc h => stuck (State.matchAttempt_none_of_hash hc h),
      fun b0 b1 b2 off c h0 h1 h2 hoff hpos hle hc heq h =>
        stuck (State.matchAttempt_none_of_run h0 h1 h2 hoff hpos hle hc heq h)⟩
  · rw [← s.eng.position_length]
    rintro len hl ⟨c, hc, h⟩
    exact State.engineStep_of_fetch_stuck hm ho hlt (State.fetch_stuck hl hc h)

/-! ## Which bytes a step of an engine can change -/

/-- A byte an engine's action keeps is kept where the engine is stuck instead. -/
theorem State.orStick_read {s t : State} {o : Option State} {a : Nat} (h : s.orStick o = .next t)
    (ho : o = some t → Memory.read t.mem a = Memory.read s.mem a) :
    Memory.read t.mem a = Memory.read s.mem a := by
  rcases State.orStick_eq_next.1 h with h | ⟨-, rfl⟩
  · exact ho h
  · rfl

/-- GROUP OPEN writes DST[OPOS] only (42_encoder.md R182). -/
theorem State.groupOpen_read_ne {s t : State} {k : Byte} {a : Nat} (h : s.groupOpen k = some t)
    (ha : a ≠ s.eng.dstAddress s.eng.enc.opos.toNat) : Memory.read t.mem a = Memory.read s.mem a := by
  obtain ⟨-, rfl⟩ := State.groupOpen_eq_some.1 h
  exact Memory.read_write_ne _ _ ha

/-- EMIT LITERAL writes DST[OPOS] only (42_encoder.md R186). -/
theorem State.emitLiteral_read_ne {s t : State} {b : Byte} {a : Nat} (h : s.emitLiteral b = some t)
    (ha : a ≠ s.eng.dstAddress s.eng.enc.opos.toNat) : Memory.read t.mem a = Memory.read s.mem a := by
  obtain ⟨-, rfl⟩ := State.emitLiteral_eq_some.1 h
  exact Memory.read_write_ne _ _ ha

/-- EMIT MATCH writes DST[CMAP], DST[OPOS] and DST[OPOS + 1] only (42_encoder.md R187). -/
theorem State.emitMatch_read_ne {s t : State} {n : BitVec 6} {off : BitVec 10} {a : Nat}
    (h : s.emitMatch n off = some t) (hc : a ≠ s.eng.dstAddress s.eng.enc.cmap.toNat)
    (h0 : a ≠ s.eng.dstAddress s.eng.enc.opos.toNat)
    (h1 : a ≠ s.eng.dstAddress (s.eng.enc.opos.toNat + 1)) :
    Memory.read t.mem a = Memory.read s.mem a := by
  obtain ⟨-, -, -, rfl⟩ := State.emitMatch_eq_some.1 h
  exact (Memory.read_write_ne _ _ h1).trans
    ((Memory.read_write_ne _ _ h0).trans (Memory.read_write_ne _ _ hc))

/-- DECODE LITERAL writes DST[OP] only (43_decoder.md R213). -/
theorem State.decodeLiteral_read_ne {s t : State} {b : Byte} {a : Nat} (h : s.decodeLiteral b = some t)
    (ha : a ≠ s.eng.dstAddress s.eng.dec.op.toNat) : Memory.read t.mem a = Memory.read s.mem a := by
  obtain ⟨-, rfl⟩ := State.decodeLiteral_eq_some.1 h
  exact Memory.read_write_ne _ _ ha

/-- A match in DECOMPRESS writes only the destination, whose end cuts the copy off (43_decoder.md R219). -/
theorem State.decodeMatch_read_ne {s t : State} {n : BitVec 6} {off : BitVec 10} {a : Nat}
    (h : s.decodeMatch n off = some t) (hop : s.eng.dec.op.toNat ≤ s.eng.lat.dstSize.toNat)
    (ha : s.eng.inDest a = false) : Memory.read t.mem a = Memory.read s.mem a := by
  rcases State.decodeMatch_cases h with ⟨-, rfl⟩ | ⟨-, u, hu, rfl⟩
  · rfl
  · obtain ⟨m, hm, -, -, -, hfr⟩ := State.overlapCopy_spec hu hop
    have hle : m ≤ s.eng.lat.dstSize.toNat - s.eng.dec.op.toNat := hm.trans_le (Nat.min_le_right _ _)
    rw [← Bool.not_eq_true, Engine.inDest_iff] at ha
    refine hfr a fun (hin : s.eng.lat.dstBase.toNat + s.eng.dec.op.toNat ≤ a ∧
      a < s.eng.lat.dstBase.toNat + s.eng.dec.op.toNat + m) => ha ?_
    omega

section
variable {s t : State} {a : Nat} (h : s.Inv) (hm : s.eng.canMove = true)
include h hm

/-- The open group has room for the two bytes of a token below the last byte of the destination. -/
theorem State.Inv.token_room (ho : s.eng.opl = .compress) (h8 : s.eng.bitn ≠ 8) :
    s.eng.enc.opos.toNat + 2 < s.eng.lat.dstSize.toNat ∧
      s.eng.enc.cmap.toNat < s.eng.enc.opos.toNat := by
  have hb := (Engine.canMove_iff.1 hm).1
  obtain ⟨-, hlt⟩ := bit_succ (h.eng_legal.bitn_range hb) h8
  obtain ⟨hroom, hcmap⟩ := (h.eng_legal.group_room hb ho).resolve_left fun hn => h8 hn.1
  exact ⟨by omega, hcmap⟩

section
variable (ho : s.eng.opl = .compress)
  (ha : ¬ (s.eng.lat.dstBase.toNat ≤ a ∧ a + 1 < s.eng.lat.dstBase.toNat + s.eng.lat.dstSize.toNat))
include ho ha

theorem State.Inv.emitLiteral_read {b : Byte} (h8 : s.eng.bitn ≠ 8) (ht : s.emitLiteral b = some t) :
    Memory.read t.mem a = Memory.read s.mem a := by
  obtain ⟨hroom, -⟩ := h.token_room hm ho h8
  exact State.emitLiteral_read_ne ht (by rw [Engine.dstAddress]; omega)

theorem State.Inv.emitMatch_read {n : BitVec 6} {off : BitVec 10} (h8 : s.eng.bitn ≠ 8)
    (ht : s.emitMatch n off = some t) : Memory.read t.mem a = Memory.read s.mem a := by
  obtain ⟨hroom, hcmap⟩ := h.token_room hm ho h8
  exact State.emitMatch_read_ne ht (by rw [Engine.dstAddress]; omega)
    (by rw [Engine.dstAddress]; omega) (by rw [Engine.dstAddress]; omega)

/-- COMPRESS changes bytes of its destination only, and not the last one (42_encoder.md R190). -/
theorem State.Inv.compressStep_read (ht : s.compressStep = .next t) :
    Memory.read t.mem a = Memory.read s.mem a := by
  rcases State.compressStep_cases hm ho ht with ⟨-, rfl⟩ | ⟨-, ⟨-, -, rfl⟩ | ⟨-, hcap, ht⟩ |
    ⟨-, -, rfl⟩ | ⟨h8, b, e, hn, ht⟩ | ⟨h8, n, off, e, hn, -, ht⟩⟩
  · rfl
  · rfl
  · exact State.orStick_read ht fun ht => State.groupOpen_read_ne ht (by rw [Engine.dstAddress]; omega)
  · rfl
  · obtain ⟨h', hm', ho', hbit, hlat, -⟩ := h.nextToken hm ho hn
    exact State.orStick_read (s := s.setEng e) ht
      (h'.emitLiteral_read hm' ho' (by rwa [State.setEng_eng, hlat]) (hbit ▸ h8))
  · obtain ⟨h', hm', ho', hbit, hlat, -⟩ := h.nextToken hm ho hn
    exact State.orStick_read (s := s.setEng e) ht
      (h'.emitMatch_read hm' ho' (by rwa [State.setEng_eng, hlat]) (hbit ▸ h8))

end

omit h in
/-- DECOMPRESS changes bytes of its destination only (43_decoder.md R224). -/
theorem State.decompressStep_read (ho : s.eng.opl = .decompress) (ht : s.decompressStep = .next t)
    (ha : s.eng.inDest a = false) : Memory.read t.mem a = Memory.read s.mem a := by
  rcases State.decompressStep_cases hm ho ht with ⟨-, rfl⟩ | ⟨hop, ⟨-, rfl⟩ | ⟨-, rfl |
    ⟨-, k, rfl⟩ | ⟨-, b, ht⟩ | ⟨-, n, off, ht⟩⟩⟩
  · rfl
  · exact s.drawDest_read_ne s.eng ha
  · rfl
  · rfl
  · refine State.orStick_read ht fun ht => State.decodeLiteral_read_ne ht ?_
    rintro rfl
    exact absurd ha (by simp [Engine.inDest, inSpan, Engine.dstAddress, hop])
  · exact State.orStick_read ht fun ht => State.decodeMatch_read_ne ht (Nat.le_of_lt hop) ha

theorem State.Inv.engineStep_read (ht : s.engineStep = .next t) (ha : s.eng.inDest a = false) :
    Memory.read t.mem a = Memory.read s.mem a := by
  cases ho : s.eng.opl with
  | compress =>
    rw [State.engineStep_compress hm ho] at ht
    rw [← Bool.not_eq_true, Engine.inDest_iff] at ha
    exact h.compressStep_read hm ho (by omega) ht
  | decompress => exact State.decompressStep_read hm ho (State.engineStep_decompress hm ho ▸ ht) ha

end

/-- Settles O51, by the bytes each case of a step writes. -/
theorem engineWritesOnlyItsDestination : Obligations.EngineWritesOnlyItsDestination := by
  intro s t h hm ht
  refine ⟨fun a ha => h.engineStep_read hm ht ha, fun ho j hj => ?_⟩
  exact h.compressStep_read hm ho (by omega) (State.engineStep_compress hm ho ▸ ht)

/-- Under the invariant a byte of another running operation's regions is outside the destination. -/
theorem State.Inv.not_inDest_of_other {s : State} {e : Engine} {a : Nat} (h : s.Inv)
    (hb : s.eng.engState = .busy) (he : e ∈ s.others) (heb : e.engState = .busy)
    (ha : e.inSource a = true ∨ e.inDest a = true) : s.eng.inDest a = false := by
  obtain ⟨hdest, hsource, -⟩ := (List.pairwise_cons.1 h.apart).1 e he hb heb
  rcases ha with ha | ha
  · exact spansMeet_false (spansMeet_comm .. ▸ hsource) ha
  · exact spansMeet_false (spansMeet_comm .. ▸ hdest) ha

/-- Settles O53: an engine writes only its destination, which meets no other running operation's region. -/
theorem runningOperationsDoNotInterfere : Obligations.RunningOperationsDoNotInterfere := by
  intro s t e h hm ht he heb a ha
  exact h.engineStep_read hm ht (h.not_inDest_of_other (Engine.canMove_iff.1 hm).1 he heb ha)

/-! ## The host's accesses to memory -/

/-- Settles O46: no running operation owns the byte and the platform backs it. -/
theorem hostMemoryAccessesArePlain : Obligations.HostMemoryAccessesArePlain := by
  intro s a v hfree hord
  have hown : s.ownedByOperation a = false := by
    rw [← Bool.not_eq_true, State.ownedByOperation_iff]
    rintro ⟨e, he, hb, hin⟩
    simp [hfree e he hb] at hin
  refine ⟨?_, { s with mem := Memory.write s.mem a v }, ?_, rfl, fun b => Memory.read_write _ _ _ _⟩
  · simp [State.loadStep, hown, State.memRead_of_ordinary hord, State.respond]
  · simp [State.storeStep, hown, State.memWrite_of_ordinary v hord]

end Sys2Proof.Machine

/-! SUPPORT and PROOFS of the statements of 30_encoding.md. First what the decoder reads from each encoding, and what it
can answer; then the fields of a CTRL write and of a match token; then POLL. -/

namespace Sys2Proof.Machine

/-! ## Decoding and encoding undo each other -/

@[simp] theorem decode_encodeWrite_ctrl (v : Word) :
    decode (encodeWrite .ctrl v) = .ok (decodeCtrl v, []) := rfl

theorem decode_encodeWrite {r : Reg} (h : r ≠ .ctrl) (v : Word) :
    decode (encodeWrite r v) = .ok (.writeReg r v, []) := by
  simp [decode, encodeWrite, decodeAccess, regAt_offset, Reg.offset_aligned, Except.map]

@[simp] theorem decode_encode_readReg (r : Reg) :
    decode (encode (.readReg r)) = .ok (.readReg r, []) := by
  cases r <;> rfl

@[simp] theorem decode_encode_matchTok (n : BitVec 6) (off : BitVec 10) :
    decode (encode (.matchTok n off)) = .ok (.matchTok n off, []) := by
  simp [encode, decode, decodeElement, matchN_byte0, matchOff_bytes]

/-- Settles O1: a CTRL row by the fields of its word, a register access by its offset, an element by its bytes. -/
theorem decodeOfEncodeGivesTheInstructionBack : Obligations.DecodeOfEncodeGivesTheInstructionBack := by
  intro i hi
  cases i with
  | startCompress ign => simp [encode, decodeCtrl_ctrlWord_true]
  | startDecompress ign => simp [encode, decodeCtrl_ctrlWord_true]
  | startBadop00 ign => simp [encode, decodeCtrl_ctrlWord_true]
  | startBadop11 ign => simp [encode, decodeCtrl_ctrlWord_true]
  | setOp op ign => simp [encode, decodeCtrl_ctrlWord_false]
  | writeReg r v => exact decode_encodeWrite (of_decide_eq_true hi) v
  | readReg r => exact decode_encode_readReg r
  | ctl k => rfl
  | lit b => rfl
  | matchTok n off => exact decode_encode_matchTok n off

/-- A host access leaves no bytes over. -/
theorem decode_access_eq_ok {a : BusAccess} {i : Instr} {rest : List Byte} :
    decode (.access a) = .ok (i, rest) ↔ decodeAccess a = .ok i ∧ rest = [] := by
  cases hd : decodeAccess a <;> simp [decode, hd, Except.map, eq_comm]

/-- What a host access can decode to: a read of the register at its offset, a write of CTRL, or a write of another
register (30_encoding.md R107, R108). -/
theorem decodeAccess_cases {a : BusAccess} {i : Instr} (h : decodeAccess a = .ok i) :
    (∃ r, a = ⟨r.offset, 32, none⟩ ∧ i = .readReg r) ∨
    (∃ v, a = ⟨Reg.ctrl.offset, 32, some v⟩ ∧ i = decodeCtrl v) ∨
    ∃ r v, a = ⟨r.offset, 32, some v⟩ ∧ i = .writeReg r v := by
  have hw : a.width = 32 := decodeAccess_width h
  obtain ⟨o, w, d⟩ := a
  subst hw
  unfold decodeAccess at h
  split_ifs at h
  cases hr : regAt o with
  | none => simp [hr] at h
  | some r =>
    obtain rfl := regAt_some o r hr
    cases d with
    | none =>
      simp only [hr] at h
      cases h
      exact .inl ⟨r, rfl, rfl⟩
    | some v =>
      cases r with
      | ctrl => cases h; exact .inr (.inl ⟨v, rfl, rfl⟩)
      | _ => cases h; exact .inr (.inr ⟨_, v, rfl, rfl⟩)

/-- Encoding what a host access decodes to gives the access back whole. -/
theorem encode_of_decodeAccess {a : BusAccess} {i : Instr} (h : decodeAccess a = .ok i) :
    encode i = .access a := by
  obtain ⟨r, rfl, rfl⟩ | ⟨v, rfl, rfl⟩ | ⟨r, v, rfl, rfl⟩ := decodeAccess_cases h
  · rfl
  · exact encode_decodeCtrl v
  · rfl

/-- Encoding the element at a position gives the bytes it used, which are those before the rest. -/
theorem encode_of_decodeElement {p : Position} {bs rest : List Byte} {i : Instr}
    (h : decodeElement p bs = .ok (i, rest)) : ∃ used, encode i = .element p used ∧ bs = used ++ rest := by
  fun_cases decodeElement p bs
  case case1 k _ => cases h; exact ⟨[k], rfl, rfl⟩
  case case2 b _ => cases h; exact ⟨[b], rfl, rfl⟩
  case case3 b0 b1 _ =>
    cases h
    obtain ⟨h0, h1⟩ := bytes_of_match b0 b1
    exact ⟨[b0, b1], by simp only [encode, h0, h1], rfl⟩
  case case4 => simp [decodeElement] at h

/-- Settles O2: an access by its offset and value, an element by its bytes. -/
theorem encodeOfDecodedGivesTheCodeBack : Obligations.EncodeOfDecodedGivesTheCodeBack := by
  intro c i rest h
  cases c with
  | element p bs => exact encode_of_decodeElement h
  | access a =>
    obtain ⟨hd, rfl⟩ := decode_access_eq_ok.1 h
    exact ⟨encode_of_decodeAccess hd, rfl⟩

/-! ## The fields of a CTRL write and of a match token -/

/-- A word with its three low bits named: the fields `ctrlWord` packs (10_state.md R31). -/
theorem eq_ctrlWord {v : Word} {start : Bool} {op : BitVec 2}
    (h : v.toNat % 8 = 2 * op.toNat + start.toNat) :
    v = ctrlWord start op (BitVec.ofNat 29 (v.toNat / 8)) := by
  apply BitVec.eq_of_toNat_eq
  rw [ctrlWord_toNat, BitVec.toNat_ofNat]
  omega

/-- Settles O4: the low bits name the START bit and OP of the word, and the decoder reads them off. -/
theorem ctrlWritesAreSelectedByTheirLowBits : Obligations.CtrlWritesAreSelectedByTheirLowBits := by
  intro v
  have hstart (op : BitVec 2) (h : v.toNat % 8 = 2 * op.toNat + 1) :=
    (congrArg decodeCtrl (eq_ctrlWord (start := true) h)).trans (decodeCtrl_ctrlWord_true op _)
  refine ⟨hstart 1, hstart 2, hstart 0, hstart 3, fun h => ?_⟩
  rw [← decodeCtrl_ctrlWord_false]
  exact congrArg decodeCtrl (eq_ctrlWord (by simp; omega))

theorem lengthField_toNat {len : Nat} (h : len ≤ 66) : (lengthField len).toNat = len - 3 := by
  simp only [lengthField, Config.matchMin, BitVec.toNat_ofNat]
  omega

/-- Settles O5: the two bytes as sums, and the fields read back from them. -/
theorem matchTokenPacksLengthAndOffset : Obligations.MatchTokenPacksLengthAndOffset := by
  intro len off hlo hhi _ hoff
  have hn := lengthField_toNat hhi
  have ho : (BitVec.ofNat 10 off).toNat = off := (BitVec.toNat_ofNat ..).trans (Nat.mod_eq_of_lt (by omega))
  refine ⟨?_, ?_, ?_, ?_⟩
  · have hlow : off >>> 8 < 2 ^ 2 := by rw [Nat.shiftRight_eq_div_pow]; omega
    rw [matchByte0_toNat, hn, ho, ← Nat.shiftLeft_add_eq_or_of_lt hlow, Nat.shiftLeft_eq,
      Nat.shiftRight_eq_div_pow]
    omega
  · rw [matchByte1_toNat, ho]
    exact (Nat.and_two_pow_sub_one_eq_mod off 8).symm
  · rw [matchN_byte0, matchLength, hn, Config.matchMin]
    omega
  · rw [matchOff_bytes, ho]

/-- Settles O3: the decoder run on each of the thirteen words. -/
theorem sampleWordsDecodeAsTheSpecSays : Obligations.SampleWordsDecodeAsTheSpecSays := by
  unfold Obligations.SampleWordsDecodeAsTheSpecSays
  decide

/-! ## POLL -/

/-- A read of a register of an engine without the mark returns its value and does nothing else (40_commands.md
R141). -/
theorem exec_readReg_of_not_faulted {s : State} (hf : s.eng.faulted = false) (r : Reg) :
    exec (.readReg r) s = .next (s.respond (.reg (s.eng.readReg r))) := by
  simp [exec, execReadReg, State.readRegister, hf]

theorem State.sawDone_respond_statusWord (s : State) (e : Engine) :
    (s.respond (.reg e.statusWord)).sawDone = e.regs.done :=
  e.statusWord_done

/-- Settles O47: the read answers STATUS, and its DONE decides whether the POLL comes again. -/
theorem pollRepeatsUntilDone : Obligations.PollRepeatsUntilDone := by
  intro s t addr hfocus hf
  have hread : exec (.readReg .status) t = .next (t.respond (.reg t.eng.statusWord)) :=
    exec_readReg_of_not_faulted hf .status
  simp only [State.pollStep, hfocus, hread, State.sawDone_respond_statusWord]
  cases t.eng.regs.done <;> rfl

end Sys2Proof.Machine

/-! SUPPORT and PROOFS of the statements of 40_commands.md. First what a START answers in each of its cases, and what
the placement checks find; then the other host commands; then how a running operation comes to its end. -/

namespace Sys2Proof.Machine

/-! ## START -/

theorem Engine.busy_of_idle {e : Engine} (h : e.engState = .idle) : e.busy = false := by
  simp [Engine.busy, h]

section
variable {s : State} {op : BitVec 2} (hi : s.eng.engState = .idle)
include hi

/-- On an idle engine a START with a reserved OP completes at once (40_commands.md R134). -/
theorem startCommand_of_reserved (ho : operationOf op = none) :
    s.startCommand op = .next (s.setEng (s.eng.setCtrlOp op).badOpCompletion) := by
  have hb : (s.setEng (s.eng.setCtrlOp op)).eng.busy = false := Engine.busy_of_idle hi
  simp only [State.startCommand, hb, ho]
  rfl

/-- A START of an operation is refused for the reason its placement checks find; they do not look at CTRL.OP. -/
theorem startCommand_of_misplaced {o : Operation} {r : Refusal} (ho : operationOf op = some o)
    (hp : s.placement = some r) :
    s.startCommand op = .next ((s.setEng (s.eng.setCtrlOp op)).refuse r) := by
  have hb : (s.setEng (s.eng.setCtrlOp op)).eng.busy = false := Engine.busy_of_idle hi
  have hp : (s.setEng (s.eng.setCtrlOp op)).placement = some r := hp
  simp only [State.startCommand, hb, ho, hp]
  rfl

/-- A START of an operation is accepted where its buffers are well placed (40_commands.md R133). -/
theorem startCommand_of_placed {o : Operation} (ho : operationOf op = some o) (hp : s.placed) :
    s.startCommand op = .next (s.setEng ((s.eng.setCtrlOp op).accept o)) := by
  have hb : (s.setEng (s.eng.setCtrlOp op)).eng.busy = false := Engine.busy_of_idle hi
  have hp : (s.setEng (s.eng.setCtrlOp op)).placement = none :=
    State.placement_eq_none (State.placed_setCtrlOp op hp)
  simp only [State.startCommand, hb, ho, hp]
  rfl

end

/-- Settles O15: the check for BUSY comes before every other check of a START. -/
theorem startWhileBusyIsRefused : Obligations.StartWhileBusyIsRefused := by
  intro ign s hb
  exact ⟨startCommand_of_busy _ hb, startCommand_of_busy _ hb, startCommand_of_busy _ hb,
    startCommand_of_busy _ hb⟩

/-- BAD_OP leaves an idle engine idle and changes its registers only. -/
theorem Engine.badOpCompletion_of_idle {e : Engine} (hi : e.engState = .idle) :
    e.badOpCompletion = { e with
      regs := { e.regs with done := true, code := 2, result := 0, inConsumed := 0 } } := by
  rw [Engine.badOpCompletion, Engine.endOperation, ← hi]
  rfl

/-- Settles O14: neither reserved OP names an operation, so BAD_OP comes before the placement checks. -/
theorem reservedOpCompletesAsBadOp : Obligations.ReservedOpCompletesAsBadOp := by
  intro ign s hi
  have completes {op : BitVec 2} (ho : operationOf op = none) :
      s.startCommand op = .next (s.setEng { s.eng with regs := { s.eng.regs with
        ctrlOp := op, done := true, code := 2, result := 0, inConsumed := 0 } }) := by
    rw [startCommand_of_reserved hi ho, Engine.badOpCompletion_of_idle (e := s.eng.setCtrlOp op) hi]
    rfl
  exact ⟨completes rfl, completes rfl⟩

/-- Settles O12: what the acceptance of COMPRESS writes, by its definition. -/
theorem startCompressIsAccepted : Obligations.StartCompressIsAccepted :=
  fun _ _ hi hp => ⟨startCommand_of_placed hi (o := .compress) rfl hp, fun _ => rfl⟩

/-- Settles O13: what the acceptance of DECOMPRESS writes, by its definition. -/
theorem startDecompressIsAccepted : Obligations.StartDecompressIsAccepted :=
  fun _ _ hi hp => startCommand_of_placed hi (o := .decompress) rfl hp

/-! ### What the placement checks find -/

theorem Engine.selfOverlaps_iff {e : Engine} : e.selfOverlaps ↔ spansMeet e.regs.srcAddr.toNat
    e.regs.srcLen.toNat e.regs.dstAddr.toNat e.regs.dstSize.toNat = true := by
  simp only [Engine.selfOverlaps, Engine.regSource, Engine.regDest, spansMeet_iff, inSpan_iff]

/-- A running engine clashes with the new operation where one of the three pairs of regions shares a byte. -/
theorem Engine.clashes_iff {e r : Engine} : e.clashes r = true ↔ r.engState = .busy ∧
    ∃ a, (e.regDest a ∧ (r.inSource a = true ∨ r.inDest a = true)) ∨
      (e.regSource a ∧ r.inDest a = true) := by
  simp only [Engine.clashes, Bool.and_eq_true, Bool.or_eq_true, Engine.busy_iff, spansMeet_iff,
    ← exists_or, ← and_or_left]
  simp only [inSpan_iff, Engine.regDest, Engine.regSource, Engine.inSource_iff, Engine.inDest_iff]

theorem State.otherOverlaps_iff {s : State} :
    s.otherOverlaps ↔ s.others.any s.eng.clashes = true := by
  simp only [State.otherOverlaps, List.any_eq_true, Engine.clashes_iff]

theorem Engine.meetsNonMemory_iff {e : Engine} {g : Region} : e.meetsNonMemory g = true ↔
    g.kind ≠ .ordinary ∧ ∃ a, inSpan g.base g.size a = true ∧ (e.regSource a ∨ e.regDest a) := by
  simp only [Engine.meetsNonMemory, Bool.and_eq_true, Bool.or_eq_true, decide_eq_true_eq,
    spansMeet_iff, ← exists_or, ← or_and_right]
  simp only [inSpan_iff, Engine.regDest, Engine.regSource, and_comm]

theorem State.nonMemory_iff {s : State} :
    s.nonMemory ↔ s.platform.map.any s.eng.meetsNonMemory = true := by
  simp only [State.nonMemory, List.any_eq_true, Engine.meetsNonMemory_iff]

theorem State.placement_of_wraps {s : State} (h : s.eng.wraps) : s.placement = some .bufferWrap :=
  if_pos h

theorem State.placement_of_overlaps {s : State} (hw : ¬ s.eng.wraps)
    (h : s.eng.selfOverlaps ∨ s.otherOverlaps) : s.placement = some .bufferOverlap := by
  rw [Engine.selfOverlaps_iff, State.otherOverlaps_iff] at h
  refine (if_neg hw).trans ?_
  by_cases hs : spansMeet s.eng.regs.srcAddr.toNat s.eng.regs.srcLen.toNat s.eng.regs.dstAddr.toNat
      s.eng.regs.dstSize.toNat = true
  · exact if_pos hs
  · exact (if_neg hs).trans (if_pos (h.resolve_left hs))

theorem State.placement_of_nonMemory {s : State} (hw : ¬ s.eng.wraps) (hs : ¬ s.eng.selfOverlaps)
    (ho : ¬ s.otherOverlaps) (h : s.nonMemory) : s.placement = some .nonMemoryBuffer := by
  rw [Engine.selfOverlaps_iff] at hs
  rw [State.otherOverlaps_iff] at ho
  exact (if_neg hw).trans ((if_neg hs).trans ((if_neg ho).trans (if_pos (State.nonMemory_iff.1 h))))

/-- Settles O16: the START is refused for the reason of the first placement check that fails. -/
theorem badPlacementIsRefusedInOrder : Obligations.BadPlacementIsRefusedInOrder := by
  intro ign op i s hi hstart
  have refused {r : Refusal} (hp : s.placement = some r) :
      exec i s = .next ((s.setEng (s.eng.setCtrlOp op)).refuse r) := by
    obtain ⟨rfl, rfl⟩ | ⟨rfl, rfl⟩ := hstart
    · exact startCommand_of_misplaced hi (o := .compress) rfl hp
    · exact startCommand_of_misplaced hi (o := .decompress) rfl hp
  exact ⟨fun hw => refused (State.placement_of_wraps hw),
    fun hw h => refused (State.placement_of_overlaps hw h),
    fun hw hs ho h => refused (State.placement_of_nonMemory hw hs ho h)⟩

/-! ## The other commands of the host -/

/-- Settles O8: SET_OP is the write of that one field. -/
theorem setOpStoresOpAndNothingElse : Obligations.SetOpStoresOpAndNothingElse :=
  fun _ _ _ => rfl

/-- A START stores its OP, whatever its checks find (40_commands.md R132). -/
theorem startCommand_ctrlOp {s t : State} {op : BitVec 2} (h : s.startCommand op = .next t) :
    t.eng.regs.ctrlOp = op := by
  rcases startCommand_cases h with ⟨-, rfl⟩ | ⟨-, ⟨-, rfl⟩ | ⟨o, -, ⟨r, -, rfl⟩ | ⟨-, rfl⟩⟩⟩
  · rfl
  · rfl
  · rfl
  · cases o <;> rfl

theorem exec_writeCtrl_start {v : Word} (h : v.getLsbD 0 = true) (s : State) :
    exec (.writeReg .ctrl v) s = s.startCommand (v.extractLsb' 1 2) := if_pos h

theorem exec_writeCtrl_setOp {v : Word} (h : v.getLsbD 0 = false) (s : State) :
    exec (.writeReg .ctrl v) s = .next (s.setEng (s.eng.setCtrlOp (v.extractLsb' 1 2))) :=
  if_neg (by rw [h]; decide)

/-- The four rows with the START bit are `startCommand` with their OP. -/
theorem exec_decodeCtrl_start {v : Word} (h : v.getLsbD 0 = true) (s : State) :
    exec (decodeCtrl v) s = s.startCommand (v.extractLsb' 1 2) := by
  simp only [decodeCtrl]
  rw [if_pos h]
  generalize v.extractLsb' 1 2 = op
  fin_cases op <;> rfl

/-- A write of CTRL runs the command it decodes to (30_encoding.md R107). -/
theorem exec_writeCtrl (v : Word) (s : State) : exec (.writeReg .ctrl v) s = exec (decodeCtrl v) s := by
  cases hstart : v.getLsbD 0 with
  | true => rw [exec_writeCtrl_start hstart, exec_decodeCtrl_start hstart]
  | false =>
    rw [exec_writeCtrl_setOp hstart, decodeCtrl, if_neg (by rw [hstart]; decide)]
    rfl

/-- A write of CTRL completes with OP stored, whether it is a START or SET_OP. -/
theorem exec_writeCtrl_ctrlOp (v : Word) (s : State) :
    ∃ t, exec (.writeReg .ctrl v) s = .next t ∧ t.eng.regs.ctrlOp = v.extractLsb' 1 2 := by
  cases hstart : v.getLsbD 0 with
  | true =>
    obtain ⟨t, ht⟩ := startCommand_total s (v.extractLsb' 1 2)
    exact ⟨t, (exec_writeCtrl_start hstart s).trans ht, startCommand_ctrlOp ht⟩
  | false => exact ⟨_, exec_writeCtrl_setOp hstart s, rfl⟩

/-- Settles O9: each register by its case, and CTRL by the command the write decodes to. -/
theorem writeRegReachesOnlyItsRegister : Obligations.WriteRegReachesOnlyItsRegister := by
  intro r v s
  refine ⟨fun hr => ?_, exec_writeCtrl v s, ?_⟩
  · cases r with
    | ctrl => exact absurd rfl hr
    | _ => rfl
  · obtain ⟨t, ht, hop⟩ := exec_writeCtrl_ctrlOp v s
    refine ⟨t, ht, hop.trans (BitVec.eq_of_toNat_eq ?_)⟩
    simp [BitVec.extractLsb'_toNat, Nat.shiftRight_eq_div_pow]

theorem Engine.ctrlReadWord_toNat (e : Engine) : e.ctrlReadWord.toNat = e.regs.ctrlOp.toNat * 2 := by
  simp [Engine.ctrlReadWord, ctrlWord_toNat, Nat.mul_comm]

/-- STATUS as a sum of its fields (10_state.md R32). -/
theorem Engine.statusWord_toNat (e : Engine) : e.statusWord.toNat = e.regs.code.toNat * 16 +
    (if e.regs.done then 2 else 0) + (if e.engState = .busy then 1 else 0) := by
  have hcode := e.regs.code.isLt
  have hdone : 2 * e.regs.done.toNat = if e.regs.done then 2 else 0 := by cases e.regs.done <;> rfl
  have hbusy : e.busy.toNat = if e.engState = .busy then 1 else 0 := by
    unfold Engine.busy
    cases e.engState <;> rfl
  rw [Engine.statusWord, BitVec.toNat_ofNat, hdone, hbusy]
  split_ifs <;> omega

/-- A read of a register whose value is defined returns that value and does nothing else (40_commands.md R141). -/
theorem exec_readReg_of_defined {s : State} {r : Reg} (h : s.eng.faulted = true → lostByFault r = false) :
    exec (.readReg r) s = .next (s.respond (.reg (s.eng.readReg r))) := by
  have hd : (s.eng.faulted && lostByFault r) = false := by
    rw [Bool.and_eq_false_imp]
    exact h
  simp [exec, execReadReg, State.readRegister, hd]

/-- Settles O10: CTRL and STATUS by the fields of their words, the other registers as they are stored. -/
theorem readRegReturnsTheRegister : Obligations.ReadRegReturnsTheRegister := by
  intro r s hf
  have hdef : s.eng.faulted = true → lostByFault r = false := by
    intro h
    obtain ⟨h1, h2, h3⟩ := hf h
    cases r <;> trivial
  refine ⟨s.eng.readReg r, exec_readReg_of_defined hdef, ?_⟩
  cases r with
  | ctrl => exact s.eng.ctrlReadWord_toNat
  | status => exact s.eng.statusWord_toNat
  | _ => rfl

/-- Settles O45: the byte is owned by a running operation, which both accesses check first. -/
theorem buffersOfARunningOperationAreItsOwn : Obligations.BuffersOfARunningOperationAreItsOwn := by
  intro s e a v he hb hin
  have howned : s.ownedByOperation a = true := State.ownedByOperation_iff.2 ⟨e, he, hb, hin⟩
  exact ⟨if_pos howned, if_pos howned⟩

/-! ## How a running operation comes to its end

A step of COMPRESS or DECOMPRESS ends the operation, marks its engine, or leaves fewer steps to go. -/

/-- A bound on the steps still to go with `todo` bytes left, where a control byte is a step of its own (log 4): a token
for each byte, a group after each token, and one group more where none is open. -/
def stepsLeft (todo : Nat) (bitn : BitVec 4) : Nat := 2 * todo + if bitn = 8 then 1 else 0

theorem stepsLeft_le (todo : Nat) (bitn : BitVec 4) : stepsLeft todo bitn ≤ 2 * todo + 1 := by
  unfold stepsLeft
  split_ifs <;> omega

/-- Opening a group takes a step off the bound. -/
theorem stepsLeft_open (todo : Nat) : stepsLeft todo 0 < stepsLeft todo 8 := Nat.lt_succ_self _

/-- The bound of a COMPRESS: the bytes still to read are those from POS to src_len. -/
def Engine.compressLeft (e : Engine) : Nat :=
  stepsLeft (e.lat.srcLen.toNat - e.enc.pos.toNat) e.bitn

/-- The bound of a DECOMPRESS: the bytes still to write are those from OP to dst_size. -/
def Engine.decompressLeft (e : Engine) : Nat :=
  stepsLeft (e.lat.dstSize.toNat - e.dec.op.toNat) e.bitn

/-- Before a control byte no bit of one is left. -/
theorem Engine.bitn_of_control {e : Engine} (h : e.position = .control) : e.bitn = 8 := by
  by_contra h8
  rw [Engine.position_token h8] at h
  cases h

/-- An engine's action leaves it stuck or ends in the action's state. -/
theorem State.orStick_stuck_or {s t : State} {o : Option State} (h : s.orStick o = .next t) :
    t.eng.stuck = true ∨ o = some t := by
  rcases State.orStick_eq_next.1 h with h | ⟨-, rfl⟩
  · exact .inr h
  · exact .inl rfl

/-- Advancing a cursor that stays in range takes a step off the bound, even where the token fills its group. -/
theorem stepsLeft_advance {c : Cursor} {lim : Word} {m : Nat} (hm : 1 ≤ m)
    (h : c.toNat + m ≤ lim.toNat) (bitn bitn' : BitVec 4) :
    (c + BitVec.ofNat 33 m).toNat ≤ lim.toNat ∧
      stepsLeft (lim.toNat - (c + BitVec.ofNat 33 m).toNat) bitn' <
        stepsLeft (lim.toNat - c.toNat) bitn := by
  have := lim.isLt
  rw [cursor_add (by omega)]
  have := stepsLeft_le (lim.toNat - (c.toNat + m)) bitn'
  unfold stepsLeft at this ⊢
  omega

/-- Choosing a token changes neither what lets the engine move, nor its operands, nor POS. -/
theorem State.nextToken_keeps {s : State} {i : Instr} {e : Engine} (h : s.nextToken = some (i, e)) :
    e.canMove = s.eng.canMove ∧ e.lat = s.eng.lat ∧ e.enc.pos = s.eng.enc.pos := by
  rw [(State.nextToken_frame h).1]
  exact ⟨rfl, rfl, rfl⟩

/-- A token that covers `m` bytes of the source brings the end of COMPRESS nearer. -/
theorem Engine.compressLeft_token {e f : Engine} {m : Nat} (hm : 1 ≤ m)
    (hp : e.enc.pos.toNat + m ≤ e.lat.srcLen.toNat) (hlat : f.lat = e.lat)
    (hpos : f.enc.pos = e.enc.pos + BitVec.ofNat 33 m) :
    f.enc.pos.toNat ≤ f.lat.srcLen.toNat ∧ f.compressLeft < e.compressLeft := by
  rw [Engine.compressLeft, hlat, hpos]
  exact stepsLeft_advance hm hp e.bitn f.bitn

/-- Everything a step of COMPRESS can do to its end. -/
theorem State.compressStep_progress {s t : State} (hm : s.eng.canMove = true)
    (ho : s.eng.opl = .compress) (ht : s.compressStep = .next t) :
    (t.eng.ended ∧ t.eng.regs.code = 0) ∨ t.eng.stuck = true ∨
      (t.eng.canMove = true ∧ t.eng.enc.pos.toNat ≤ t.eng.lat.srcLen.toNat ∧
        t.eng.compressLeft < s.eng.compressLeft) := by
  rcases State.compressStep_cases hm ho ht with ⟨-, rfl⟩ | ⟨hp, ⟨-, -, rfl⟩ | ⟨h8, -, ht⟩ |
    ⟨-, -, rfl⟩ | ⟨-, b, e, hn, ht⟩ | ⟨-, n, off, e, hn, hlen, ht⟩⟩
  · exact .inl ⟨⟨rfl, rfl⟩, rfl⟩
  · exact .inl ⟨⟨rfl, rfl⟩, rfl⟩
  · refine .inr ((State.orStick_stuck_or ht).imp_right fun h => ?_)
    obtain ⟨-, rfl⟩ := State.groupOpen_eq_some.1 h
    refine ⟨hm, Nat.le_of_lt hp, ?_⟩
    rw [Engine.compressLeft, Engine.compressLeft, h8]
    exact stepsLeft_open _
  · exact .inr (.inl rfl)
  · obtain ⟨hmove, hlat, hpos⟩ := State.nextToken_keeps hn
    refine .inr ((State.orStick_stuck_or ht).imp_right fun h => ?_)
    obtain ⟨-, rfl⟩ := State.emitLiteral_eq_some.1 h
    exact ⟨hmove.trans hm,
      Engine.compressLeft_token (m := 1) (Nat.le_refl 1) hp hlat (congrArg (· + 1) hpos)⟩
  · obtain ⟨hmove, hlat, hpos⟩ := State.nextToken_keeps hn
    refine .inr ((State.orStick_stuck_or ht).imp_right fun h => ?_)
    obtain ⟨-, -, -, rfl⟩ := State.emitMatch_eq_some.1 h
    exact ⟨hmove.trans hm, Engine.compressLeft_token (Nat.le_add_left 1 _) hlen hlat
      (congrArg (· + BitVec.ofNat 33 (matchLength n)) hpos)⟩

/-- A legal match token decoded before dst_size writes at least one byte, within the destination. -/
theorem State.overlapCopy_progress {s u : State} {n : BitVec 6} {off : BitVec 10}
    (hop : s.eng.dec.op.toNat < s.eng.lat.dstSize.toNat)
    (hu : State.overlapCopy (matchLength n) (s.setEng ((s.eng.unpackMatch n off).setCopy off)) = some u) :
    u.eng.canMove = s.eng.canMove ∧ u.eng.lat = s.eng.lat ∧ ∃ m, 1 ≤ m ∧
      s.eng.dec.op.toNat + m ≤ s.eng.lat.dstSize.toNat ∧
      u.eng.dec.op = s.eng.dec.op + BitVec.ofNat 33 m := by
  obtain ⟨m, hmin, he, -⟩ := State.overlapCopy_spec hu (Nat.le_of_lt hop)
  have hlen : 3 ≤ matchLength n := Nat.le_add_left _ _
  have hmin : m = min (matchLength n) (s.eng.lat.dstSize.toNat - s.eng.dec.op.toNat) := hmin
  rw [he]
  exact ⟨rfl, rfl, m, by omega, by omega, rfl⟩

/-- Everything a step of DECOMPRESS can do to its end. -/
theorem State.decompressStep_progress {s t : State} (hm : s.eng.canMove = true)
    (ho : s.eng.opl = .decompress) (ht : s.decompressStep = .next t) :
    (t.eng.ended ∧ (t.eng.regs.code = 0 ∨ t.eng.regs.code = 1)) ∨ t.eng.faulted = true ∨
      t.eng.stuck = true ∨
      (t.eng.canMove = true ∧ t.eng.dec.op.toNat ≤ t.eng.lat.dstSize.toNat ∧
        t.eng.decompressLeft < s.eng.decompressLeft) := by
  rcases State.decompressStep_cases hm ho ht with ⟨-, rfl⟩ | ⟨hop, ⟨-, rfl⟩ | ⟨-, rfl |
    ⟨hctl, k, rfl⟩ | ⟨-, b, ht⟩ | ⟨-, n, off, ht⟩⟩⟩
  · exact .inl ⟨⟨rfl, rfl⟩, .inl rfl⟩
  · exact .inr (.inl rfl)
  · exact .inr (.inr (.inl rfl))
  · refine .inr (.inr (.inr ⟨hm, Nat.le_of_lt hop, ?_⟩))
    rw [Engine.decompressLeft, Engine.decompressLeft, Engine.bitn_of_control hctl]
    exact stepsLeft_open _
  · refine .inr (.inr ((State.orStick_stuck_or ht).imp_right fun h => ?_))
    obtain ⟨-, rfl⟩ := State.decodeLiteral_eq_some.1 h
    exact ⟨hm, stepsLeft_advance (m := 1) (Nat.le_refl 1) hop _ _⟩
  · rcases State.orStick_stuck_or ht with hs | h
    · exact .inr (.inr (.inl hs))
    rcases State.decodeMatch_cases h with ⟨-, rfl⟩ | ⟨-, u, hu, rfl⟩
    · exact .inl ⟨⟨rfl, rfl⟩, .inr rfl⟩
    · obtain ⟨hmove, hlat, m, hm1, hle, hop'⟩ := State.overlapCopy_progress hop hu
      refine .inr (.inr (.inr ⟨hmove.trans hm, ?_⟩))
      simp only [Engine.decompressLeft, State.setEng_eng, Engine.advanceBit_lat, Engine.advanceBit_dec,
        hlat, hop']
      exact stepsLeft_advance hm1 hle _ _

/-! ### Runs of the engine in focus -/

/-- With no input left and no refusal, the engine in focus, with its block at `b`, runs the operation `o`. -/
structure State.Runs (b : Word) (o : Operation) (s : State) : Prop where
  refused : s.refused = none
  inputs : s.inputs = []
  canMove : s.eng.canMove = true
  opl : s.eng.opl = o
  regBase : s.eng.regBase = b

/-- While it can move, the engine in focus goes on. -/
theorem State.Runs.engineStep {b : Word} {o : Operation} {s t : State} (h : s.Runs b o)
    (ht : s.engineStep = .next t) (hm : t.eng.canMove = true) : t.Runs b o := by
  have own := engineStep_ownStep ht
  exact ⟨by rw [own.frame]; exact h.refused, by rw [own.frame]; exact h.inputs, hm,
    own.opl.trans h.opl, own.regBase.trans h.regBase⟩

/-- A run is done within one step more than a bound that every step lowers unless it is the last one. -/
theorem State.Runs.ends {b : Word} {o : Operation} {K Done : State → Prop} {left : State → Nat}
    (hstep : ∀ s t, s.Runs b o → K s → s.engineStep = .next t →
      Done t ∨ (t.eng.canMove = true ∧ K t ∧ left t < left s))
    {s : State} (hs : s.Runs b o) (hk : K s) :
    ∃ n t, n ≤ left s + 1 ∧ core.run n s = .next t ∧ t.eng.regBase = b ∧ Done t := by
  obtain ⟨t, ht⟩ := s.engineStep_total
  have hone : ∀ n, core.run (n + 1) s = core.run n t :=
    run_succ ((step_focused hs.refused hs.inputs hs.canMove).trans ht)
  rcases hstep s t hs hk ht with hd | ⟨hm, hk', hlt⟩
  · exact ⟨1, t, Nat.le_add_left _ _, hone 0, (engineStep_ownStep ht).regBase.trans hs.regBase, hd⟩
  · obtain ⟨n, u, hn, hrun, hu⟩ := State.Runs.ends hstep (hs.engineStep ht hm) hk'
    exact ⟨n + 1, u, by omega, (hone n).trans hrun, hu⟩
termination_by left s

/-- Settles O56: every step of COMPRESS ends it, sticks, or takes a step off the bound. -/
theorem compressEnds : Obligations.CompressEnds := by
  intro s hr hin hm ho hp
  have hstep (u v : State) (hu : u.Runs s.eng.regBase .compress)
      (_ : u.eng.enc.pos.toNat ≤ u.eng.lat.srcLen.toNat) (hv : u.engineStep = .next v) :
      (v.eng.ended ∨ v.eng.stuck = true) ∨ (v.eng.canMove = true ∧
        v.eng.enc.pos.toNat ≤ v.eng.lat.srcLen.toNat ∧ v.eng.compressLeft < u.eng.compressLeft) := by
    rw [State.engineStep_compress hu.canMove hu.opl] at hv
    rw [or_assoc]
    exact (State.compressStep_progress hu.canMove hu.opl hv).imp_left And.left
  obtain ⟨n, t, hn, hrun, hbase, hdone⟩ := State.Runs.ends hstep ⟨hr, hin, hm, ho, rfl⟩ hp
  exact ⟨n, t, hn.trans (Nat.succ_le_succ ((stepsLeft_le _ _).trans (Nat.le_succ _))), hrun, hbase, hdone⟩

/-- Settles O57: every step of DECOMPRESS ends it, faults, sticks, or takes a step off the bound. -/
theorem decompressEnds : Obligations.DecompressEnds := by
  intro s hr hin hm ho hp
  have hstep (u v : State) (hu : u.Runs s.eng.regBase .decompress)
      (_ : u.eng.dec.op.toNat ≤ u.eng.lat.dstSize.toNat) (hv : u.engineStep = .next v) :
      (v.eng.ended ∨ v.eng.faulted = true ∨ v.eng.stuck = true) ∨ (v.eng.canMove = true ∧
        v.eng.dec.op.toNat ≤ v.eng.lat.dstSize.toNat ∧ v.eng.decompressLeft < u.eng.decompressLeft) := by
    rw [State.engineStep_decompress hu.canMove hu.opl] at hv
    rw [or_assoc, or_assoc]
    exact (State.decompressStep_progress hu.canMove hu.opl hv).imp_left And.left
  obtain ⟨n, t, hn, hrun, hbase, hdone⟩ := State.Runs.ends hstep ⟨hr, hin, hm, ho, rfl⟩ hp
  exact ⟨n, t, hn.trans (Nat.succ_le_succ ((stepsLeft_le _ _).trans (Nat.le_succ _))), hrun, hbase, hdone⟩

/-! ### Over backed memory no access is stuck -/

theorem State.backed.source {s : State} (h : s.backed) {i : Nat} (hi : i < s.eng.lat.srcLen.toNat) :
    ∃ b, s.srcByte i = some b :=
  ⟨_, State.memRead_of_ordinary (h _ (.inl (Engine.inSource_iff.2
    ⟨Nat.le_add_right _ _, Nat.add_lt_add_left hi _⟩)))⟩

theorem State.backed.dest {s : State} (h : s.backed) {i : Nat} (hi : i < s.eng.lat.dstSize.toNat) :
    s.platform.ordinary (s.eng.dstAddress i) = true :=
  h _ (.inr (Engine.inDest_iff.2 ⟨Nat.le_add_right _ _, Nat.add_lt_add_left hi _⟩))

/-- The regions stay backed with the operands and the platform. -/
theorem State.backed.of_lat {s t : State} (h : s.backed) (hlat : t.eng.lat = s.eng.lat)
    (hp : t.platform = s.platform) : t.backed := by
  simpa only [State.backed, Engine.inSource, Engine.inDest, hlat, hp] using h

theorem State.backed.engineStep {s t : State} (h : s.backed) (ht : s.engineStep = .next t) :
    t.backed := by
  have own := engineStep_ownStep ht
  exact h.of_lat own.lat (by rw [own.frame])

theorem readBytes_total {rd : Nat → Option Byte} {n i : Nat} (h : ∀ c, c < n → ∃ b, rd (i + c) = some b) :
    ∃ bs, readBytes rd n i = some bs := by
  induction n generalizing i with
  | zero => exact ⟨[], rfl⟩
  | succ n ih =>
    obtain ⟨b, hb⟩ := h 0 (Nat.succ_pos n)
    obtain ⟨bs, hbs⟩ := ih (i := i + 1) fun c hc => by
      rw [Nat.add_assoc, Nat.add_comm 1]
      exact h (c + 1) (Nat.succ_lt_succ hc)
    exact ⟨b :: bs, by simp [readBytes, show rd i = some b from hb, hbs]⟩

section
variable {s t : State} (hm : s.eng.canMove = true) (hb : s.backed)
include hb

/-- A token can be chosen: under the tail guard SRC[POS] is read, before it the attempt reads only the source. -/
theorem State.backed.nextToken (hp : s.eng.enc.pos.toNat < s.eng.lat.srcLen.toNat) :
    s.nextToken ≠ none := by
  unfold State.nextToken
  split_ifs with hg
  · obtain ⟨b, h⟩ := hb.source hp
    simp [h]
  · obtain ⟨i, e, h, -⟩ := attemptReadsOnlyTheSource Config.slotBase s
      (by rw [Engine.tailGuard_iff] at hg; omega) fun i hi => hb.source hi
    simp [h]

/-- A fetch checks its bytes against src_len before it reads them (60_exceptions.md R257). -/
theorem State.backed.fetch : s.fetch ≠ .stuck := by
  unfold State.fetch
  simp only []
  split_ifs with hl
  · nofun
  · obtain ⟨bs, h⟩ := readBytes_total (rd := s.srcByte) (n := s.eng.position.length)
      (i := s.eng.dec.ip.toNat) fun c hc => hb.source (by omega)
    rw [h]
    simp only []
    split <;> nofun

/-- A match token is decoded: a legal offset copies from and to the destination. -/
theorem State.backed.decodeMatch (n : BitVec 6) (off : BitVec 10) : ∃ t, s.decodeMatch n off = some t := by
  unfold State.decodeMatch
  simp only []
  split_ifs with hbad
  · exact ⟨_, rfl⟩
  · have hle : off.toNat ≤ s.eng.dec.op.toNat := by
      rw [Engine.badOffset_iff, Engine.unpackMatch_dec_op] at hbad
      omega
    obtain ⟨u, hu⟩ := State.overlapCopy_total (n := matchLength n)
      (s := s.setEng ((s.eng.unpackMatch n off).setCopy off)) (fun a ha => hb a (.inr ha)) (by
        rw [State.setEng_eng, Engine.setCopy_cpy_toNat (e := s.eng.unpackMatch n off) hle]
        exact Nat.sub_le _ _)
    exact ⟨_, by rw [hu]; rfl⟩

include hm

/-- Under the invariant a step of COMPRESS over backed memory does not leave the engine stuck. -/
theorem State.Inv.compressStep_unstuck (h : s.Inv) (ho : s.eng.opl = .compress)
    (ht : s.compressStep = .next t) : t.eng.stuck = false := by
  have hs := (Engine.canMove_iff.1 hm).2.2
  rcases State.compressStep_cases hm ho ht with ⟨-, rfl⟩ | ⟨hp, ⟨-, -, rfl⟩ | ⟨-, hcap, ht⟩ |
    ⟨-, hn, -⟩ | ⟨h8, b, e, hn, ht⟩ | ⟨h8, n, off, e, hn, -, ht⟩⟩
  · exact hs
  · exact hs
  · rw [(State.groupOpen_eq_some (s := s)).2 ⟨hb.dest (by omega), rfl⟩] at ht
    cases ht
    exact hs
  · exact absurd hn (hb.nextToken hp)
  · obtain ⟨h', hm', ho', hbit, hlat, -⟩ := h.nextToken hm ho hn
    have hb' : (s.setEng e).backed := hb.of_lat hlat rfl
    obtain ⟨hroom, -⟩ := h'.token_room hm' ho' (hbit ▸ h8)
    rw [State.emitLiteral_eq_some.2 ⟨hb'.dest (by omega), rfl⟩] at ht
    cases ht
    exact (Engine.canMove_iff.1 hm').2.2
  · obtain ⟨h', hm', ho', hbit, hlat, -⟩ := h.nextToken hm ho hn
    have hb' : (s.setEng e).backed := hb.of_lat hlat rfl
    obtain ⟨hroom, hcmap⟩ := h'.token_room hm' ho' (hbit ▸ h8)
    rw [State.emitMatch_eq_some.2 ⟨hb'.dest (by omega), hb'.dest (by omega), hb'.dest (by omega), rfl⟩] at ht
    cases ht
    exact (Engine.canMove_iff.1 hm').2.2

/-- A step of DECOMPRESS over backed memory does not leave the engine stuck. -/
theorem State.decompressStep_unstuck (ho : s.eng.opl = .decompress) (ht : s.decompressStep = .next t) :
    t.eng.stuck = false := by
  have hs := (Engine.canMove_iff.1 hm).2.2
  by_cases hop : s.eng.lat.dstSize.toNat ≤ s.eng.dec.op.toNat
  · cases (if_pos hop).symm.trans ht
    exact hs
  replace ht := (if_neg hop).symm.trans ht
  rcases s.fetch_cases with ⟨-, hf⟩ | ⟨-, hf | ⟨-, k, hf⟩ | ⟨-, b, hf⟩ | ⟨-, n, off, hf⟩⟩ <;>
    simp only [hf] at ht
  · cases ht
    exact hs
  · exact absurd hf hb.fetch
  · rw [exec_ctl_decompress k hm ho] at ht
    cases ht
    exact hs
  · rw [exec_lit_decompress b hm ho,
      (State.decodeLiteral_eq_some (s := s)).2 ⟨hb.dest (Nat.lt_of_not_le hop), rfl⟩] at ht
    cases ht
    exact hs
  · obtain ⟨u, hu⟩ := hb.decodeMatch n off
    rw [exec_match_decompress n off hm ho, hu] at ht
    cases ht
    rcases State.decodeMatch_cases hu with ⟨-, rfl⟩ | ⟨-, v, hv, rfl⟩
    · exact hs
    · rw [State.overlapCopy_frame hv]
      exact hs

theorem State.Inv.engineStep_unstuck (h : s.Inv) (ht : s.engineStep = .next t) : t.eng.stuck = false := by
  cases ho : s.eng.opl with
  | compress => exact h.compressStep_unstuck hm hb ho (State.engineStep_compress hm ho ▸ ht)
  | decompress => exact State.decompressStep_unstuck hm hb ho (State.engineStep_decompress hm ho ▸ ht)

end

/-- Over backed memory a run is done where every step that does not stick is the last one or lowers a bound. -/
theorem State.Runs.ends_of_backed {b : Word} {o : Operation} {Done : State → Prop} {left : State → Nat}
    (hstep : ∀ u v, u.Runs b o → u.engineStep = .next v →
      v.eng.stuck = true ∨ Done v ∨ (v.eng.canMove = true ∧ left v < left u))
    {s : State} (hs : s.Runs b o) (h : s.Inv) (hb : s.backed) :
    ∃ n t, core.run n s = .next t ∧ t.eng.regBase = b ∧ t.eng.stuck = false ∧ Done t := by
  have hgo (u v : State) (hu : u.Runs b o) (hk : u.Inv ∧ u.backed) (hv : u.engineStep = .next v) :
      (v.eng.stuck = false ∧ Done v) ∨
        (v.eng.canMove = true ∧ (v.Inv ∧ v.backed) ∧ left v < left u) := by
    have hns := hk.1.engineStep_unstuck hu.canMove hk.2 hv
    rcases hstep u v hu hv with hst | hd | ⟨hm, hlt⟩
    · exact absurd (hns.symm.trans hst) (by decide)
    · exact .inl ⟨hns, hd⟩
    · exact .inr ⟨hm, ⟨hk.1.engineStep hv, hk.2.engineStep hv⟩, hlt⟩
  obtain ⟨n, t, -, hrun⟩ := State.Runs.ends hgo hs ⟨h, hb⟩
  exact ⟨n, t, hrun⟩

/-- Settles O58: no step is stuck, so each step ends the operation, faults, or takes a step off the bound. -/
theorem backedOperationsAreNeverStuck : Obligations.BackedOperationsAreNeverStuck := by
  intro s h hr hin hm hb
  refine ⟨fun t ht => ⟨h.engineStep_unstuck hm hb ht, hb.engineStep ht⟩, fun ho => ?_, fun ho => ?_⟩
  · have hstep (u v : State) (hu : u.Runs s.eng.regBase .compress) (hv : u.engineStep = .next v) :
        v.eng.stuck = true ∨ (v.eng.ended ∧ v.eng.regs.code = 0) ∨
          (v.eng.canMove = true ∧ v.eng.compressLeft < u.eng.compressLeft) := by
      rw [State.engineStep_compress hu.canMove hu.opl] at hv
      rcases State.compressStep_progress hu.canMove hu.opl hv with hend | hst | ⟨hm, -, hlt⟩
      · exact .inr (.inl hend)
      · exact .inl hst
      · exact .inr (.inr ⟨hm, hlt⟩)
    obtain ⟨n, t, hrun, hbase, -, hend⟩ := State.Runs.ends_of_backed hstep ⟨hr, hin, hm, ho, rfl⟩ h hb
    exact ⟨n, t, hrun, hbase, hend⟩
  · have hstep (u v : State) (hu : u.Runs s.eng.regBase .decompress) (hv : u.engineStep = .next v) :
        v.eng.stuck = true ∨ (v.eng.ended ∧ (v.eng.regs.code = 0 ∨ v.eng.regs.code = 1) ∨
          v.eng.faulted = true) ∨ (v.eng.canMove = true ∧ v.eng.decompressLeft < u.eng.decompressLeft) := by
      rw [State.engineStep_decompress hu.canMove hu.opl] at hv
      rcases State.decompressStep_progress hu.canMove hu.opl hv with hend | hf | hst | ⟨hm, -, hlt⟩
      · exact .inr (.inl (.inl hend))
      · exact .inr (.inl (.inr hf))
      · exact .inl hst
      · exact .inr (.inr ⟨hm, hlt⟩)
    exact State.Runs.ends_of_backed hstep ⟨hr, hin, hm, ho, rfl⟩ h hb

end Sys2Proof.Machine

/-! SUPPORT and PROOFS of the statements of 41_match_search.md. First the hash as arithmetic; then the working registers
and the slot after an attempt; then what an accepted and a rejected candidate say of the source. -/

namespace Sys2Proof.Machine

/-! ## The hash -/

theorem hashMix_eq (h0 : Nat) : hashMix h0 = h0 + h0 / 512 + (h0 + h0 / 512) / 32 := by
  simp [hashMix, Config.hashShift1, Config.hashShift2, Nat.shiftRight_eq_div_pow]

theorem hashIndex_toNat (b0 b1 b2 : Byte) :
    (hashIndex b0 b1 b2).toNat = hashMix (b0.toNat * 65536 + b1.toNat * 256 + b2.toNat) % 1024 := by
  rw [hashIndex, BitVec.toNat_ofNat, hashWord_eq]

/-- The two additive mixing steps over a number of 24 bits (41_match_search.md R150). -/
theorem hashMix_steps_le {h0 : Nat} (h : h0 ≤ 0xFFFFFF) :
    h0 + h0 / 512 ≤ 0x1007FFE ∧ h0 + h0 / 512 + (h0 + h0 / 512) / 32 ≤ 0x10883FD := by
  omega

/-- Settles O19: the index is h2[9:0], and three bytes make a number of 24 bits. -/
theorem hashIsTheMixedBigEndianPrefix : Obligations.HashIsTheMixedBigEndianPrefix := by
  intro b0 b1 b2
  refine ⟨?_, hashMix_steps_le ?_⟩
  · rw [hashIndex_toNat, hashMix_eq]
  · have := b0.isLt
    have := b1.isLt
    have := b2.isLt
    omega

/-! ## The engine after an attempt -/

/-- The tag of a position at any SLOT_BASE, as a natural number (41_match_search.md R152). -/
theorem slotTag_toNat (base pos : Nat) : (slotTag base pos).toNat = (base + pos) % 65536 :=
  BitVec.toNat_ofNat ..

/-- OFF of any tag, as a natural number (41_match_search.md R152). -/
theorem candidateOffset_toNat_of_tag (tag old : Slot) :
    (candidateOffset tag old).toNat = (tag.toNat + 65536 - old.toNat) % 1024 := by
  have := old.isLt
  simp only [candidateOffset, BitVec.toNat_setWidth, BitVec.toNat_sub]
  omega

theorem Engine.setMlen_mlen (e : Engine) : e.setMlen e.enc.mlen.toNat = e := by
  rw [Engine.setMlen, BitVec.ofNat_toNat, BitVec.setWidth_eq]

/-- An accepted attempt goes beyond OFFSET AND UPDATE in MLEN alone, and a rejected one leaves MLEN as it was. -/
theorem matchAttempt_engine {base : Nat} {s : State} {i : Instr} {e : Engine}
    (h : s.matchAttempt base = some (i, e)) :
    ∃ b0 b1 b2 : Byte, s.srcByte s.eng.enc.pos.toNat = some b0 ∧
      s.srcByte (s.eng.enc.pos.toNat + 1) = some b1 ∧ s.srcByte (s.eng.enc.pos.toNat + 2) = some b2 ∧
      ∃ len, e = (s.eng.afterUpdate base (hashIndex b0 b1 b2)).setMlen len := by
  obtain ⟨b0, b1, b2, h0, h1, h2, e', rfl, ⟨-, -, rfl⟩ | ⟨-, len, -, -, rfl⟩⟩ := matchAttempt_cases h
  · exact ⟨b0, b1, b2, h0, h1, h2, _, (Engine.setMlen_mlen _).symm⟩
  · exact ⟨b0, b1, b2, h0, h1, h2, len, rfl⟩

/-- Settles O20: OFFSET AND UPDATE reads the slot, then overwrites it, and MLEN is in no other clause. -/
theorem attemptOverwritesExactlyOneSlot : Obligations.AttemptOverwritesExactlyOneSlot := by
  intro base s i e h
  obtain ⟨b0, b1, b2, h0, h1, h2, len, rfl⟩ := matchAttempt_engine h
  refine ⟨b0, b1, b2, h0, h1, h2, rfl, ?_, fun j hj => ?_, ?_, rfl, rfl⟩
  · simp [slotTag_toNat]
  · exact Dict.read_write_ne _ _ hj
  · simp [candidateOffset_toNat_of_tag, slotTag_toNat]

/-! ## Accepted and rejected candidates -/

/-- An accepted candidate lies OFF before the position, inside the source (41_match_search.md R153, R158). -/
theorem candidatePos_of_accepted {rd : Nat → Option Byte} {pos : Nat} {off : BitVec 10}
    (h : candidateCheck rd pos off (candidatePos pos off) = some true) :
    1 ≤ off.toNat ∧ off.toNat ≤ pos ∧ (candidatePos pos off).toNat = pos - off.toNat := by
  obtain ⟨hcand, hoff, -⟩ := candidateCheck_true h
  have hne : off.toNat ≠ 0 := fun h0 => hoff (BitVec.eq_of_toNat_eq h0)
  unfold candidatePos at hcand ⊢
  omega

/-- The run an accepted candidate is measured to: of 3 to 66 equal bytes, the first three from the check and the others
from the extension, and not to be prolonged below 66 (41_match_search.md R153, R154). -/
theorem matchedLength_of_accepted {rd : Nat → Option Byte} {pos len : Nat} {off : BitVec 10} {cand : Int}
    (hacc : candidateCheck rd pos off cand = some true) (hlen : matchedLength rd pos cand.toNat = some len) :
    3 ≤ len ∧ len ≤ 66 ∧ (∀ k, k < len → rd (pos + k) = rd (cand.toNat + k)) ∧
      (len < 66 → rd (pos + len) ≠ rd (cand.toNat + len)) := by
  obtain ⟨-, -, hfirst⟩ := candidateCheck_true hacc
  obtain ⟨hlo, hhi, hrest, hstop⟩ := matchExtension_spec hlen
  refine ⟨hlo, hhi, fun k hk => ?_, hstop⟩
  by_cases h3 : k < 3
  · exact (sameBytes_true hfirst k h3).symm
  · exact hrest k (Nat.le_of_not_lt h3) hk

theorem matchLength_lengthField {len : Nat} (hlo : 3 ≤ len) (hhi : len ≤ 66) :
    matchLength (lengthField len) = len := by
  rw [matchLength, lengthField_toNat hhi, Config.matchMin]
  omega

/-- Settles O21: the token names OFF and the length of the run the accepted candidate was measured to. -/
theorem emittedMatchNamesTheLongestEqualRun : Obligations.EmittedMatchNamesTheLongestEqualRun := by
  intro base s n off e h
  obtain ⟨b0, b1, b2, -, -, -, e', rfl, ⟨-, hi, -⟩ | ⟨hacc, len, hlen, hi, rfl⟩⟩ := matchAttempt_cases h
  · exact nomatch hi
  · cases hi
    obtain ⟨hpos, hle, hcand⟩ := candidatePos_of_accepted hacc
    obtain ⟨hlo, hhi, hrun, hstop⟩ := matchedLength_of_accepted hacc hlen
    rw [Engine.afterUpdate_enc_cand, ← Engine.afterUpdate_off, hcand] at hrun hstop
    rw [matchLength_lengthField hlo hhi]
    refine ⟨rfl, ?_, hlo, hhi, hpos, hle, hrun, hstop⟩
    rw [Engine.setMlen_enc_mlen, BitVec.toNat_ofNat]
    omega

/-- What a rejected candidate satisfies: one of the conditions of the check fails (41_match_search.md R153). -/
theorem candidateCheck_false {rd : Nat → Option Byte} {pos : Nat} {off : BitVec 10} {cand : Int}
    (h : candidateCheck rd pos off cand = some false) :
    cand < 0 ∨ off = 0 ∨ ∃ k, k < 3 ∧ rd (cand.toNat + k) ≠ rd (pos + k) := by
  by_cases hcand : cand < 0
  · exact .inl hcand
  · by_cases hoff : off = 0
    · exact .inr (.inl hoff)
    · rw [candidateCheck_eq_sameBytes (Int.not_lt.1 hcand) hoff] at h
      exact .inr (.inr (sameBytes_false h))

/-- Settles O22: the literal is the first byte the hash read, given only where the candidate check says no. -/
theorem rejectedCandidateGivesTheLiteral : Obligations.RejectedCandidateGivesTheLiteral := by
  intro base s b e h
  obtain ⟨b0, b1, b2, h0, -, -, e', rfl, ⟨hrej, hi, rfl⟩ | ⟨-, len, -, hi, -⟩⟩ := matchAttempt_cases h
  · cases hi
    exact ⟨h0, candidateCheck_false hrej⟩
  · exact nomatch hi

end Sys2Proof.Machine

/-! SUPPORT and PROOFS of the statements of 42_encoder.md. First the step of COMPRESS by the condition it stands under,
and what each element emits; then that a step depends only on the source; then the round trip. -/

namespace Sys2Proof.Machine

/-! ## The step of COMPRESS -/

section
variable {s : State} (hm : s.eng.canMove = true) (ho : s.eng.opl = .compress)
include hm ho

theorem State.engineStep_of_consumed (hp : s.eng.lat.srcLen.toNat ≤ s.eng.enc.pos.toNat) :
    s.engineStep = .next (s.setEng s.eng.completeCompress) :=
  (State.engineStep_compress hm ho).trans (if_pos hp)

variable (hp : s.eng.enc.pos.toNat < s.eng.lat.srcLen.toNat)
include hp

/-- At a group boundary the capacity check decides (42_encoder.md R181, R183). -/
theorem State.engineStep_of_groupFull (h8 : s.eng.bitn = 8) :
    s.engineStep = if s.eng.lat.dstSize.toNat ≤ s.eng.enc.opos.toNat + 17
      then .next (s.setEng s.eng.sentinelAbort) else exec (.ctl 0x00) s := by
  rw [State.engineStep_compress hm ho]
  unfold State.compressStep
  rw [if_neg (by omega), if_pos (Engine.groupFull_iff.2 h8)]
  simp [Engine.capacityExceeded, Config.capMargin]

/-- With a group open the step runs the token chosen, at the engine the choice leaves. -/
theorem State.engineStep_of_nextToken (h8 : s.eng.bitn ≠ 8) {i : Instr} {e : Engine}
    (hn : s.nextToken = some (i, e)) : s.engineStep = exec i (s.setEng e) := by
  rw [State.engineStep_compress hm ho]
  unfold State.compressStep
  rw [if_neg (by omega), if_neg (by rwa [Engine.groupFull_iff]), hn]

end

/-- Settles O27: the capacity check fails. -/
theorem sentinelAbortReturnsTheSourceLength : Obligations.SentinelAbortReturnsTheSourceLength := by
  intro s hm ho hp h8 hcap
  rw [State.engineStep_of_groupFull hm ho hp h8, if_pos hcap]
  rfl

/-- Under the invariant OPOS is 0 or below dst_size (42_encoder.md R190). -/
theorem State.Inv.opos_range {s : State} (h : s.Inv) (hm : s.eng.canMove = true)
    (ho : s.eng.opl = .compress) :
    s.eng.enc.opos.toNat = 0 ∨ s.eng.enc.opos.toNat < s.eng.lat.dstSize.toNat := by
  rcases h.eng_legal.group_room (Engine.canMove_iff.1 hm).1 ho with ⟨-, h0⟩ | ⟨hroom, -⟩
  · exact .inl (by rw [h0]; rfl)
  · exact .inr (by omega)

/-- Under the invariant RESULT of a completion is OPOS, as a natural number. -/
theorem State.Inv.opos_word {s : State} (h : s.Inv) (hm : s.eng.canMove = true)
    (ho : s.eng.opl = .compress) : (s.eng.enc.opos.setWidth 32).toNat = s.eng.enc.opos.toNat := by
  have := h.opos_range hm ho
  have := s.eng.lat.dstSize.isLt
  exact cursor_word (by omega)

/-- POS is src_len once it has reached it. -/
theorem State.Inv.pos_of_consumed {s : State} (h : s.Inv) (hm : s.eng.canMove = true)
    (ho : s.eng.opl = .compress) (hp : s.eng.lat.srcLen.toNat ≤ s.eng.enc.pos.toNat) :
    s.eng.enc.pos.toNat = s.eng.lat.srcLen.toNat :=
  Nat.le_antisymm (h.eng_legal.pos_range (Engine.canMove_iff.1 hm).1 ho) hp

/-- Settles O28: POS is src_len, and OPOS is in the range the invariant gives. -/
theorem compressCompletesWithTheStreamLength : Obligations.CompressCompletesWithTheStreamLength := by
  intro s h hm ho hp
  have hpos : s.eng.enc.pos.setWidth 32 = s.eng.lat.srcLen := BitVec.eq_of_toNat_eq (by
    rw [cursor_word (by rw [h.pos_of_consumed hm ho hp]; exact s.eng.lat.srcLen.isLt),
      h.pos_of_consumed hm ho hp])
  refine ⟨_, State.engineStep_of_consumed hm ho hp, rfl, ?_, h.opos_word hm ho, ?_⟩
  · rw [← hpos]
    rfl
  · refine (h.opos_range hm ho).imp (fun h0 => ?_) fun hlt => (h.opos_word hm ho).trans_lt hlt
    exact BitVec.eq_of_toNat_eq ((h.opos_word hm ho).trans h0)

/-- Under the tail guard the token is the literal SRC[POS], and its choice changes nothing. -/
theorem State.nextToken_of_tail_some {s : State} {b : Byte}
    (hg : s.eng.lat.srcLen.toNat < s.eng.enc.pos.toNat + 66)
    (h : s.srcByte s.eng.enc.pos.toNat = some b) : s.nextToken = some (.lit b, s.eng) := by
  unfold State.nextToken
  rw [if_pos (Engine.tailGuard_iff.2 hg), h]
  rfl

/-- Settles O29: the literal is chosen without an attempt, and emitting it touches neither the dictionary nor HIDX. -/
theorem tailGuardEmitsTheLiteral : Obligations.TailGuardEmitsTheLiteral := by
  intro s b hm ho hp h8 hg hb
  have hstep : s.engineStep = exec (.lit b) s :=
    State.engineStep_of_nextToken hm ho hp h8 (State.nextToken_of_tail_some hg hb)
  refine ⟨hstep, fun t ht => ?_⟩
  rw [hstep, exec_lit_compress b hm ho] at ht
  rcases State.orStick_eq_next.1 ht with ht | ⟨-, rfl⟩
  · obtain ⟨-, rfl⟩ := State.emitLiteral_eq_some.1 ht
    exact ⟨rfl, rfl⟩
  · exact ⟨rfl, rfl⟩

/-- Settles O30: the capacity check passes, or the token is that of the attempt. -/
theorem compressStepRunsTheElementItEmits : Obligations.CompressStepRunsTheElementItEmits := by
  intro s hm ho hp
  refine ⟨fun h8 hcap => ?_, fun h8 hg i e hn => ?_⟩
  · rw [State.engineStep_of_groupFull hm ho hp h8, if_neg (by omega)]
  · exact State.engineStep_of_nextToken hm ho hp h8 ((State.nextToken_of_attempt hg).trans hn)

/-! ## What an element emits -/

/-- Settles O24: GROUP OPEN stores one byte. -/
theorem controlByteOpensAGroup : Obligations.ControlByteOpensAGroup := by
  intro k s hm ho hord
  rw [exec_ctl_compress k hm ho, (State.groupOpen_eq_some (s := s)).2 ⟨hord, rfl⟩]
  exact ⟨_, rfl, fun a => Memory.read_write _ _ _ _, rfl⟩

/-- Settles O25: EMIT LITERAL stores one byte. -/
theorem literalIsEmittedVerbatim : Obligations.LiteralIsEmittedVerbatim := by
  intro b s hm ho hord
  rw [exec_lit_compress b hm ho, (State.emitLiteral_eq_some (s := s)).2 ⟨hord, rfl⟩]
  exact ⟨_, rfl, fun a => Memory.read_write _ _ _ _, rfl⟩

theorem matchByte0_eq (n : BitVec 6) (off : BitVec 10) :
    matchByte0 n off = BitVec.ofNat 8 (n.toNat * 4 + off.toNat / 256) := by
  have := n.isLt
  have := off.isLt
  apply BitVec.eq_of_toNat_eq
  rw [matchByte0_toNat, BitVec.toNat_ofNat]
  omega

theorem matchByte1_eq (off : BitVec 10) : matchByte1 off = BitVec.ofNat 8 (off.toNat % 256) := by
  apply BitVec.eq_of_toNat_eq
  rw [matchByte1_toNat, BitVec.toNat_ofNat]
  omega

/-- Settles O26: three stores one over the other, and the control byte with one bit more. -/
theorem matchIsEmittedUnderItsControlBit : Obligations.MatchIsEmittedUnderItsControlBit := by
  intro n off s hm ho hcmap hopos hnext
  rw [exec_match_compress n off hm ho,
    (State.emitMatch_eq_some (s := s)).2 ⟨hcmap, hopos, hnext, rfl⟩]
  refine ⟨_, rfl, fun a => ?_, fun j hj => setControlBit_getLsbD _ _ hj, rfl⟩
  rw [← matchByte0_eq, ← matchByte1_eq]
  simp only [Memory.read_write]
  rfl

/-! ## The bytes of the two regions -/

/-- DST[i] of the running operation, backed or not (00_scope.md R12). -/
def State.dstByte (s : State) (i : Nat) : Byte := Memory.read s.mem (s.eng.dstAddress i)

theorem State.setEng_dstByte {s : State} {e : Engine} (h : e.lat = s.eng.lat) (i : Nat) :
    (s.setEng e).dstByte i = s.dstByte i := by
  simp only [State.dstByte, Engine.dstAddress, State.setEng_eng, State.setEng_mem, h]

theorem Memory.read_write_dst (m : Memory) (e : Engine) (i j : Nat) (b : Byte) :
    Memory.read (Memory.write m (e.dstAddress i) b) (e.dstAddress j) =
      if j = i then b else Memory.read m (e.dstAddress j) := by
  rw [Memory.read_write]
  simp only [Engine.dstAddress, Nat.add_right_inj]

theorem State.groupOpen_dstByte {s t : State} {k : Byte} (h : s.groupOpen k = some t) (j : Nat) :
    t.dstByte j = if j = s.eng.enc.opos.toNat then k else s.dstByte j := by
  obtain ⟨-, rfl⟩ := State.groupOpen_eq_some.1 h
  exact Memory.read_write_dst s.mem s.eng _ j k

theorem State.emitLiteral_dstByte {s t : State} {b : Byte} (h : s.emitLiteral b = some t) (j : Nat) :
    t.dstByte j = if j = s.eng.enc.opos.toNat then b else s.dstByte j := by
  obtain ⟨-, rfl⟩ := State.emitLiteral_eq_some.1 h
  exact Memory.read_write_dst s.mem s.eng _ j b

theorem State.emitMatch_dstByte {s t : State} {n : BitVec 6} {off : BitVec 10}
    (h : s.emitMatch n off = some t) (j : Nat) :
    t.dstByte j = if j = s.eng.enc.opos.toNat + 1 then matchByte1 off
      else if j = s.eng.enc.opos.toNat then matchByte0 n off
      else if j = s.eng.enc.cmap.toNat then setControlBit s.eng.enc.cbyte s.eng.bitn
      else s.dstByte j := by
  obtain ⟨-, -, -, rfl⟩ := State.emitMatch_eq_some.1 h
  exact (Memory.read_write_dst _ s.eng _ j _).trans (by simp only [Memory.read_write_dst]; rfl)

/-- A step of an engine keeps its source (20_memory.md R69). -/
theorem State.Inv.engineStep_srcByte {s t : State} (h : s.Inv) (hm : s.eng.canMove = true)
    (ht : s.engineStep = .next t) {i : Nat} (hi : i < s.eng.lat.srcLen.toNat) :
    t.srcByte i = s.srcByte i := by
  have own := engineStep_ownStep ht
  have hin : s.eng.inSource (s.eng.lat.srcBase.toNat + i) = true :=
    Engine.inSource_iff.2 ⟨Nat.le_add_right _ _, Nat.add_lt_add_left hi _⟩
  have hout : s.eng.inDest (s.eng.lat.srcBase.toNat + i) = false :=
    spansMeet_false (h.eng_legal.disjoint (Engine.canMove_iff.1 hm).1) hin
  have hp : t.platform = s.platform := by rw [own.frame]
  simp only [State.srcByte, State.memRead, own.lat, hp, h.engineStep_read hm ht hout]

/-! ## A step of COMPRESS depends only on the source -/

/-- Two engines in the same working state: they differ in REG_BASE, registers, operands and DECOMPRESS's registers. -/
structure Engine.SameWork (e f : Engine) : Prop where
  engState : f.engState = e.engState
  opl : f.opl = e.opl
  bitn : f.bitn = e.bitn
  off : f.off = e.off
  enc : f.enc = e.enc
  dict : f.dict = e.dict
  faulted : f.faulted = e.faulted
  stuck : f.stuck = e.stuck

theorem Engine.SameWork.eq_update {e f : Engine} (h : e.SameWork f) :
    f = { e with regBase := f.regBase, regs := f.regs, dec := f.dec, lat := f.lat } := by
  obtain ⟨h1, h2, h3, h4, h5, h6, h7, h8⟩ := h
  cases e
  cases f
  simp_all

theorem Engine.SameWork.canMove {e f : Engine} (h : e.SameWork f) : f.canMove = e.canMove := by
  simp only [Engine.canMove, Engine.busy, h.engState, h.faulted, h.stuck]

/-- The second step follows the first: it leaves the same working state, the same results at an end, and the bytes the
first has changed in its destination. -/
structure State.Follows (s₁ t₁ t₂ : State) : Prop where
  work : t₁.eng.SameWork t₂.eng
  results : t₁.eng.engState = .idle →
    t₂.eng.regs.result = t₁.eng.regs.result ∧ t₂.eng.regs.inConsumed = t₁.eng.regs.inConsumed ∧
      t₂.eng.regs.code = t₁.eng.regs.code ∧ t₂.eng.regs.done = t₁.eng.regs.done
  written : ∀ j, t₁.dstByte j = s₁.dstByte j ∨ t₂.dstByte j = t₁.dstByte j

namespace State.Follows

section
variable {s₁ s₂ t₁ t₂ : State} (h : s₁.eng.SameWork s₂.eng)
include h

/-- The same end of two operations. -/
theorem endOperation {c : BitVec 4} {r₁ r₂ n₁ n₂ : Word} (hr : r₂ = r₁) (hn : n₂ = n₁) :
    Follows s₁ (s₁.setEng (s₁.eng.endOperation c r₁ n₁)) (s₂.setEng (s₂.eng.endOperation c r₂ n₂)) where
  work := { h with engState := rfl }
  results := fun _ => ⟨hr, hn, rfl, rfl⟩
  written := fun _ => .inl rfl

variable (hb : s₁.eng.engState = .busy)
include hb

theorem groupOpen {k : Byte} (h₁ : s₁.groupOpen k = some t₁) (h₂ : s₂.groupOpen k = some t₂) :
    Follows s₁ t₁ t₂ where
  work := by
    obtain ⟨-, rfl⟩ := State.groupOpen_eq_some.1 h₁
    obtain ⟨-, rfl⟩ := State.groupOpen_eq_some.1 h₂
    exact { h with bitn := rfl, enc := by simp only [h.enc] }
  results := by
    obtain ⟨-, rfl⟩ := State.groupOpen_eq_some.1 h₁
    exact fun hi => nomatch hb.symm.trans hi
  written := fun j => by
    rw [State.groupOpen_dstByte h₁, State.groupOpen_dstByte h₂, h.enc]
    split_ifs
    · exact .inr rfl
    · exact .inl rfl

theorem emitLiteral {b : Byte} (h₁ : s₁.emitLiteral b = some t₁) (h₂ : s₂.emitLiteral b = some t₂) :
    Follows s₁ t₁ t₂ where
  work := by
    obtain ⟨-, rfl⟩ := State.emitLiteral_eq_some.1 h₁
    obtain ⟨-, rfl⟩ := State.emitLiteral_eq_some.1 h₂
    exact { h with bitn := by simp only [h.bitn], enc := by simp only [h.enc] }
  results := by
    obtain ⟨-, rfl⟩ := State.emitLiteral_eq_some.1 h₁
    exact fun hi => nomatch hb.symm.trans hi
  written := fun j => by
    rw [State.emitLiteral_dstByte h₁, State.emitLiteral_dstByte h₂, h.enc]
    split_ifs
    · exact .inr rfl
    · exact .inl rfl

theorem emitMatch {n : BitVec 6} {off : BitVec 10} (h₁ : s₁.emitMatch n off = some t₁)
    (h₂ : s₂.emitMatch n off = some t₂) : Follows s₁ t₁ t₂ where
  work := by
    obtain ⟨-, -, -, rfl⟩ := State.emitMatch_eq_some.1 h₁
    obtain ⟨-, -, -, rfl⟩ := State.emitMatch_eq_some.1 h₂
    exact { h with bitn := by simp only [h.bitn], enc := by simp only [h.enc, h.bitn] }
  results := by
    obtain ⟨-, -, -, rfl⟩ := State.emitMatch_eq_some.1 h₁
    exact fun hi => nomatch hb.symm.trans hi
  written := fun j => by
    rw [State.emitMatch_dstByte h₁, State.emitMatch_dstByte h₂, h.enc, h.bitn]
    split_ifs
    · exact .inr rfl
    · exact .inr rfl
    · exact .inr rfl
    · exact .inl rfl

end

/-- A token's emission follows from the engine before the token's choice. -/
theorem of_setEng {s t₁ t₂ : State} {e : Engine} (hlat : e.lat = s.eng.lat)
    (h : Follows (s.setEng e) t₁ t₂) : Follows s t₁ t₂ where
  work := h.work
  results := h.results
  written := by simpa only [State.setEng_dstByte hlat] using h.written

end State.Follows

/-- An action that does not leave the engine stuck has completed. -/
theorem State.orStick_completed {s t : State} {o : Option State} (h : s.orStick o = .next t)
    (hs : t.eng.stuck = false) : o = some t :=
  (State.orStick_stuck_or h).resolve_left (by simp [hs])

/-- Two states that COMPRESS alike: their engines are in the same working state, over sources with equal bytes and
regions of the same lengths. -/
structure State.Alike (s₁ s₂ : State) : Prop where
  work : s₁.eng.SameWork s₂.eng
  srcLen : s₂.eng.lat.srcLen = s₁.eng.lat.srcLen
  dstSize : s₂.eng.lat.dstSize = s₁.eng.lat.dstSize
  source : ∀ i, i < s₁.eng.lat.srcLen.toNat → s₁.srcByte i = s₂.srcByte i

section
variable {s₁ s₂ t₁ t₂ : State} (h : s₁.Alike s₂)
include h

/-- With a group open the step of the other runs the same token, in the same working state. -/
theorem State.Alike.engineStep_token {i : Instr} {e : Engine} (hm : s₂.eng.canMove = true)
    (ho : s₂.eng.opl = .compress) (hp : s₁.eng.enc.pos.toNat < s₁.eng.lat.srcLen.toNat)
    (h8 : s₁.eng.bitn ≠ 8) (hn : s₁.nextToken = some (i, e)) :
    ∃ f, e.SameWork f ∧ s₂.engineStep = exec i (s₂.setEng f) := by
  refine ⟨_, ?_, State.engineStep_of_nextToken hm ho (by rwa [h.work.enc, h.srcLen])
    (h.work.bitn.trans_ne h8) (by
      rw [State.nextToken_congr h.work.enc h.work.dict h.srcLen h.work.off hp h.source, hn]
      rfl)⟩
  rw [(State.nextToken_frame hn).1]
  exact { h.work with off := rfl, dict := rfl, enc := rfl }

/-- Under the invariant and over backed memory, the step of the one is followed by the step of the other. -/
theorem State.Alike.engineStep (h₁ : s₁.Inv) (h₂ : s₂.Inv) (hb₁ : s₁.backed) (hb₂ : s₂.backed)
    (hm₁ : s₁.eng.canMove = true) (ho₁ : s₁.eng.opl = .compress) (ht₁ : s₁.engineStep = .next t₁)
    (ht₂ : s₂.engineStep = .next t₂) : s₁.Follows t₁ t₂ := by
  have hbusy := (Engine.canMove_iff.1 hm₁).1
  have hm₂ : s₂.eng.canMove = true := h.work.canMove.trans hm₁
  have ho₂ : s₂.eng.opl = .compress := h.work.opl.trans ho₁
  have hu₁ : t₁.eng.stuck = false := h₁.engineStep_unstuck hm₁ hb₁ ht₁
  have hu₂ : t₂.eng.stuck = false := h₂.engineStep_unstuck hm₂ hb₂ ht₂
  rw [State.engineStep_compress hm₁ ho₁] at ht₁
  rcases State.compressStep_cases hm₁ ho₁ ht₁ with ⟨hp, rfl⟩ | ⟨hp, ⟨h8, hcap, rfl⟩ |
    ⟨h8, hcap, ht₁⟩ | ⟨-, hn, -⟩ | ⟨h8, b, e, hn, ht₁⟩ | ⟨h8, n, off, e, hn, -, ht₁⟩⟩
  · rw [State.engineStep_of_consumed hm₂ ho₂ (by rwa [h.work.enc, h.srcLen])] at ht₂
    cases ht₂
    exact .endOperation h.work (by rw [h.work.enc]) (by rw [h.work.enc])
  · rw [State.engineStep_of_groupFull hm₂ ho₂ (by rwa [h.work.enc, h.srcLen])
      (h.work.bitn.trans h8), if_pos (by rwa [h.work.enc, h.dstSize])] at ht₂
    cases ht₂
    exact .endOperation h.work h.srcLen (by rw [h.work.enc])
  · rw [State.engineStep_of_groupFull hm₂ ho₂ (by rwa [h.work.enc, h.srcLen])
      (h.work.bitn.trans h8), if_neg (by rw [h.work.enc, h.dstSize]; omega),
      exec_ctl_compress _ hm₂ ho₂] at ht₂
    exact .groupOpen h.work hbusy (State.orStick_completed ht₁ hu₁) (State.orStick_completed ht₂ hu₂)
  · exact absurd hn (hb₁.nextToken hp)
  · obtain ⟨-, hm, ho, -, hlat, -⟩ := h₁.nextToken hm₁ ho₁ hn
    obtain ⟨f, hf, hstep⟩ := h.engineStep_token hm₂ ho₂ hp h8 hn
    rw [hstep, exec_lit_compress _ (hf.canMove.trans hm) (hf.opl.trans ho)] at ht₂
    exact .of_setEng hlat (.emitLiteral (s₂ := s₂.setEng f) hf (Engine.canMove_iff.1 hm).1
      (State.orStick_completed ht₁ hu₁) (State.orStick_completed ht₂ hu₂))
  · obtain ⟨-, hm, ho, -, hlat, -⟩ := h₁.nextToken hm₁ ho₁ hn
    obtain ⟨f, hf, hstep⟩ := h.engineStep_token hm₂ ho₂ hp h8 hn
    rw [hstep, exec_match_compress _ _ (hf.canMove.trans hm) (hf.opl.trans ho)] at ht₂
    exact .of_setEng hlat (.emitMatch (s₂ := s₂.setEng f) hf (Engine.canMove_iff.1 hm).1
      (State.orStick_completed ht₁ hu₁) (State.orStick_completed ht₂ hu₂))

end

/-- Settles O59: the other engine's step follows, and both keep their operands and their sources. -/
theorem compressStepDependsOnlyOnTheSourceBytes :
    Obligations.CompressStepDependsOnlyOnTheSourceBytes := by
  intro s₁ s₂ t₁ h₁ h₂ hb₁ hb₂ hm₁ ho₁ he hsrc ht₁
  have h : s₁.Alike s₂ := by
    refine ⟨?_, by rw [he], by rw [he], hsrc⟩
    rw [he]
    exact ⟨rfl, rfl, rfl, rfl, rfl, rfl, rfl, rfl⟩
  have hm₂ : s₂.eng.canMove = true := h.work.canMove.trans hm₁
  obtain ⟨t₂, ht₂⟩ := s₂.engineStep_total
  have hstep := h.engineStep h₁ h₂ hb₁ hb₂ hm₁ ho₁ ht₁ ht₂
  refine ⟨t₂, ht₂, hstep.work.eq_update, hstep.results, fun i hi => ?_, fun j hne => ?_⟩
  · rw [h₁.engineStep_srcByte hm₁ ht₁ hi, hsrc i hi,
      h₂.engineStep_srcByte hm₂ ht₂ (by rwa [h.srcLen])]
  · have hw := (hstep.written j).resolve_left (by
      simpa only [State.dstByte, Engine.dstAddress, (engineStep_ownStep ht₁).lat] using hne)
    simpa only [State.dstByte, Engine.dstAddress, (engineStep_ownStep ht₁).lat,
      (engineStep_ownStep ht₂).lat] using hw

/-! ## The round trip

A completed COMPRESS leaves a stream that spells its source, and a DECOMPRESS of a stream that spells some bytes writes
those bytes. -/

/-- `m` bytes of a stream spell `n` source bytes: read from index `ip` on, with control byte `ctl` from control bit `bit`
on, its elements give the source bytes from `op` on, where a match names an equal run that starts before `op`
(30_encoding.md R92 to R97). -/
inductive Spells (src : Nat → Option Byte) (str : Nat → Byte) (n m : Nat) :
    Nat → Nat → Byte → BitVec 4 → Prop
  | done {ctl : Byte} {bit : BitVec 4} : Spells src str n m m n ctl bit
  | group {ip op : Nat} {ctl : Byte} (hop : op < n) (rest : Spells src str n m (ip + 1) op (str ip) 0) :
      Spells src str n m ip op ctl 8
  | literal {ip op : Nat} {ctl : Byte} {bit : BitVec 4} (hop : op < n) (h8 : bit ≠ 8)
      (hctl : ctl.getLsbD bit.toNat = false) (hsrc : src op = some (str ip))
      (rest : Spells src str n m (ip + 1) (op + 1) ctl (bit + 1)) : Spells src str n m ip op ctl bit
  | matched {ip op : Nat} {ctl : Byte} {bit : BitVec 4} {len : BitVec 6} {off : BitVec 10}
      (hop : op + matchLength len ≤ n) (h8 : bit ≠ 8) (hctl : ctl.getLsbD bit.toNat = true)
      (h0 : str ip = matchByte0 len off) (h1 : str (ip + 1) = matchByte1 off)
      (hpos : 1 ≤ off.toNat) (hle : off.toNat ≤ op)
      (hrun : ∀ k, k < matchLength len → src (op + k) = src (op - off.toNat + k))
      (rest : Spells src str n m (ip + 2) (op + matchLength len) ctl (bit + 1)) :
      Spells src str n m ip op ctl bit

theorem Spells.ip_le {src : Nat → Option Byte} {str : Nat → Byte} {n m ip op : Nat} {ctl : Byte}
    {bit : BitVec 4} (h : Spells src str n m ip op ctl bit) : ip ≤ m := by
  induction h with
  | done => exact Nat.le_refl m
  | group _ _ ih => omega
  | literal _ _ _ _ _ ih => omega
  | matched _ _ _ _ _ _ _ _ _ ih => omega

/-! ### What DECOMPRESS makes of a stream -/

/-- A DECOMPRESS with operands `ops`, of the block at `b`, over the stream `str`. -/
structure State.Decodes (str : Nat → Byte) (ops : Operands) (b : Word) (u : State) : Prop where
  runs : u.Runs b .decompress
  inv : u.Inv
  backed : u.backed
  lat : u.eng.lat = ops
  stream : ∀ j, j < ops.srcLen.toNat → u.srcByte j = some (str j)

/-- The DECOMPRESS has ended with CODE = OK at the ends of both regions, and its destination holds `src`. -/
structure State.Decoded (src : Nat → Option Byte) (ops : Operands) (b : Word) (v : State) : Prop where
  regBase : v.eng.regBase = b
  ended : v.eng.ended
  code : v.eng.regs.code = 0
  result : v.eng.regs.result = ops.dstSize
  inConsumed : v.eng.regs.inConsumed = ops.srcLen
  output : ∀ i, i < ops.dstSize.toNat → src i = some (Memory.read v.mem (ops.dstBase.toNat + i))

/-- The next step of a run, where the engine in focus takes it. -/
theorem State.Runs.run_succ {b : Word} {o : Operation} {s t : State} (h : s.Runs b o)
    (ht : s.engineStep = .next t) (k : Nat) : core.run (k + 1) s = core.run k t :=
  Machine.run_succ ((step_focused h.refused h.inputs h.canMove).trans ht) k

/-- What a run comes to after a step, it comes to with the step. -/
theorem State.Runs.of_step {b : Word} {o : Operation} {s t : State} {P : State → Prop} (h : s.Runs b o)
    (ht : s.engineStep = .next t) (hrun : ∃ k v, core.run k t = .next v ∧ P v) :
    ∃ k v, core.run k s = .next v ∧ P v := by
  obtain ⟨k, v, hv, hp⟩ := hrun
  exact ⟨k + 1, v, (h.run_succ ht k).trans hv, hp⟩

theorem State.decodeLiteral_dstByte {s t : State} {b : Byte} (h : s.decodeLiteral b = some t) (j : Nat) :
    t.dstByte j = if j = s.eng.dec.op.toNat then b else s.dstByte j := by
  obtain ⟨-, rfl⟩ := State.decodeLiteral_eq_some.1 h
  exact Memory.read_write_dst s.mem s.eng _ j b

/-- A match token with a legal offset that ends within the destination is decoded whole: OP passes its length, the bytes
before OP stay, and each byte written equals the one OFF before it (43_decoder.md R219). -/
theorem State.backed.decodeMatch_of_legal {s : State} (hb : s.backed) {n : BitVec 6} {off : BitVec 10}
    (hpos : 1 ≤ off.toNat) (hle : off.toNat ≤ s.eng.dec.op.toNat)
    (hend : s.eng.dec.op.toNat + matchLength n ≤ s.eng.lat.dstSize.toNat) :
    ∃ t, s.decodeMatch n off = some t ∧
      t.eng = { s.eng with
        bitn := s.eng.bitn + 1
        off := off
        dec := { s.eng.dec with
          ip := s.eng.dec.ip + 2, op := s.eng.dec.op + BitVec.ofNat 33 (matchLength n)
          len := t.eng.dec.len, cpy := t.eng.dec.cpy } } ∧
      (∀ i, i < s.eng.dec.op.toNat → t.dstByte i = s.dstByte i) ∧
      ∀ k, k < matchLength n →
        t.dstByte (s.eng.dec.op.toNat + k) = t.dstByte (s.eng.dec.op.toNat + k - off.toNat) := by
  obtain ⟨t, ht⟩ := hb.decodeMatch n off
  refine ⟨t, ht, ?_⟩
  rcases State.decodeMatch_cases ht with ⟨hbad, -⟩ | ⟨-, u, hu, rfl⟩
  · rcases (Engine.badOffset_iff _ _).1 hbad with hbad | rfl
    · exact absurd hle (Nat.not_le.2 hbad)
    · exact absurd hpos (by decide)
  have hcpy := Engine.setCopy_cpy_toNat (e := s.eng.unpackMatch n off) hle
  have hop : s.eng.dec.op.toNat ≤ s.eng.lat.dstSize.toNat := by omega
  obtain ⟨m, hm, he, -, -, hfr⟩ := State.overlapCopy_spec hu hop
  have hrep := State.overlapCopy_repeats hu off.toNat hop hpos (by
    rw [State.setEng_eng, hcpy]
    exact Nat.sub_add_cancel hle)
  have hmin : min (matchLength n) (s.eng.lat.dstSize.toNat - s.eng.dec.op.toNat) = matchLength n :=
    Nat.min_eq_left (by omega)
  have hm : m = matchLength n := hm.trans hmin
  have hdst (i : Nat) : (u.setEng u.eng.advanceBit).dstByte i = Memory.read u.mem (s.eng.dstAddress i) := by
    simp only [State.dstByte, State.setEng_eng, State.setEng_mem, Engine.dstAddress,
      Engine.advanceBit_lat, he]
    rfl
  refine ⟨?_, fun i hi => ?_, fun k hk => ?_⟩
  · simp only [State.setEng_eng, Engine.advanceBit, he, hm]
    rfl
  · rw [hdst]
    exact hfr _ fun hin => Nat.not_le.2 (Nat.add_lt_add_left hi _) hin.1
  · have := hrep k (by rw [State.setEng_eng]; exact hk.trans_eq hmin.symm)
    simp only [State.setEng_eng, Engine.setCopy_lat, Engine.unpackMatch_lat, Engine.setCopy_dec_op,
      Engine.unpackMatch_dec_op] at this
    rw [hdst, hdst, Engine.dstAddress, Engine.dstAddress, ← Nat.add_assoc, this]
    congr 1
    omega

/-- With the bytes before OP written, a decoded match leaves those of the run its token names (43_decoder.md R219). -/
theorem matched_output {src : Nat → Option Byte} {s t : State} {off op len : Nat} (hpos : 1 ≤ off)
    (hle : off ≤ op) (hrun : ∀ k, k < len → src (op + k) = src (op - off + k))
    (hkeep : ∀ i, i < op → t.dstByte i = s.dstByte i)
    (hrep : ∀ k, k < len → t.dstByte (op + k) = t.dstByte (op + k - off))
    (hout : ∀ i, i < op → src i = some (s.dstByte i)) :
    ∀ i, i < op + len → src i = some (t.dstByte i) := by
  intro i hi
  induction i using Nat.strongRecOn with
  | ind i ih =>
    by_cases hlt : i < op
    · rw [hkeep i hlt, hout i hlt]
    · obtain ⟨k, rfl⟩ := Nat.exists_eq_add_of_le (Nat.le_of_not_lt hlt)
      have hk : op - off + k = op + k - off := by omega
      rw [hrun k (by omega), hrep k (by omega), hk]
      exact ih _ (by omega) (by omega)

/-- A DECOMPRESS that stands at `ip` in the stream, at control bit `bit` of `ctl`, with `op` bytes of `src` written. -/
structure State.DecodesAt (src : Nat → Option Byte) (str : Nat → Byte) (ops : Operands) (b : Word)
    (ip op : Nat) (ctl : Byte) (bit : BitVec 4) (u : State) : Prop extends State.Decodes str ops b u where
  atIp : u.eng.dec.ip.toNat = ip
  atOp : u.eng.dec.op.toNat = op
  atBit : u.eng.bitn = bit
  atCtl : bit ≠ 8 → u.eng.dec.ctl = ctl
  output : ∀ i, i < op → src i = some (u.dstByte i)

section
variable {src : Nat → Option Byte} {str : Nat → Byte} {ops : Operands} {b : Word} {u t : State}

/-- While it can move, a DECOMPRESS goes on with the same operands and the same stream. -/
theorem State.Decodes.engineStep (hu : u.Decodes str ops b) (ht : u.engineStep = .next t)
    (hm : t.eng.canMove = true) : t.Decodes str ops b where
  runs := hu.runs.engineStep ht hm
  inv := hu.inv.engineStep ht
  backed := hu.backed.engineStep ht
  lat := (engineStep_ownStep ht).lat.trans hu.lat
  stream := fun j hj => by
    rw [hu.inv.engineStep_srcByte hu.runs.canMove ht (by rwa [hu.lat]), hu.stream j hj]

section
variable {ip op : Nat} {ctl : Byte}

/-- At a group boundary the next step fetches the control byte. -/
theorem State.DecodesAt.group (hu : u.DecodesAt src str ops b ip op ctl 8) (hop : op < ops.dstSize.toNat)
    (hip : ip + 1 ≤ ops.srcLen.toNat) :
    ∃ t, u.engineStep = .next t ∧ t.DecodesAt src str ops b (ip + 1) op (str ip) 0 := by
  have hf : u.fetch = .element (.ctl (str ip)) := State.fetch_ctl (Engine.position_control hu.atBit)
    (by rwa [hu.atIp, hu.lat]) (by rw [hu.atIp]; exact hu.stream ip hip)
  have ht := State.engineStep_of_fetch hu.runs.canMove hu.runs.opl (by rwa [hu.atOp, hu.lat]) hf
  rw [exec_ctl_decompress _ hu.runs.canMove hu.runs.opl] at ht
  refine ⟨_, ht, hu.engineStep ht hu.runs.canMove, ?_, hu.atOp, rfl, fun _ => rfl, hu.output⟩
  exact (cursor_add_one (by have := hu.atIp; omega)).trans (by rw [hu.atIp])

variable {bit : BitVec 4} (hu : u.DecodesAt src str ops b ip op ctl bit) (h8 : bit ≠ 8)
include hu h8

/-- A control bit that is clear gives the next byte of the stream. -/
theorem State.DecodesAt.literal (hctl : ctl.getLsbD bit.toNat = false) (hop : op < ops.dstSize.toNat)
    (hip : ip + 1 ≤ ops.srcLen.toNat) (hsrc : src op = some (str ip)) :
    ∃ t, u.engineStep = .next t ∧ t.DecodesAt src str ops b (ip + 1) (op + 1) ctl (bit + 1) := by
  have hpos : u.eng.position = .token false := by
    rw [Engine.position_token (hu.atBit.trans_ne h8), hu.atCtl h8, hu.atBit, hctl]
  have hf : u.fetch = .element (.lit (str ip)) := State.fetch_lit hpos
    (by rwa [hu.atIp, hu.lat]) (by rw [hu.atIp]; exact hu.stream ip hip)
  obtain ⟨t, htl⟩ : ∃ t, u.decodeLiteral (str ip) = some t :=
    ⟨_, (State.decodeLiteral_eq_some (s := u)).2 ⟨hu.backed.dest (by rwa [hu.atOp, hu.lat]), rfl⟩⟩
  have ht : u.engineStep = .next t := by
    rw [State.engineStep_of_fetch hu.runs.canMove hu.runs.opl (by rwa [hu.atOp, hu.lat]) hf,
      exec_lit_decompress _ hu.runs.canMove hu.runs.opl, htl]
    rfl
  have hdst := State.decodeLiteral_dstByte htl
  obtain ⟨-, rfl⟩ := State.decodeLiteral_eq_some.1 htl
  have hip0 := hu.atIp
  have hop0 := hu.atOp
  refine ⟨_, ht, hu.engineStep ht hu.runs.canMove, ?_, ?_, congrArg (· + 1) hu.atBit, fun _ => hu.atCtl h8,
    fun i hi => ?_⟩
  · exact (cursor_add_one (by omega)).trans (congrArg (· + 1) hip0)
  · exact (cursor_add_one (by omega)).trans (congrArg (· + 1) hop0)
  · rw [hdst, hop0]
    split_ifs with hi'
    · rw [hi', hsrc]
    · exact hu.output i (by omega)

/-- A control bit that is set gives the run its token names. -/
theorem State.DecodesAt.matched {n : BitVec 6} {off : BitVec 10} (hctl : ctl.getLsbD bit.toNat = true)
    (hop : op + matchLength n ≤ ops.dstSize.toNat) (hip : ip + 2 ≤ ops.srcLen.toNat)
    (h0 : str ip = matchByte0 n off) (h1 : str (ip + 1) = matchByte1 off)
    (hpos : 1 ≤ off.toNat) (hle : off.toNat ≤ op)
    (hrun : ∀ k, k < matchLength n → src (op + k) = src (op - off.toNat + k)) :
    ∃ t, u.engineStep = .next t ∧
      t.DecodesAt src str ops b (ip + 2) (op + matchLength n) ctl (bit + 1) := by
  have htok : u.eng.position = .token true := by
    rw [Engine.position_token (hu.atBit.trans_ne h8), hu.atCtl h8, hu.atBit, hctl]
  have hf : u.fetch = .element (.matchTok n off) := by
    rw [State.fetch_match htok (by rwa [hu.atIp, hu.lat]) (by rw [hu.atIp]; exact hu.stream ip (by omega))
      (by rw [hu.atIp]; exact hu.stream (ip + 1) hip), h0, h1, matchN_byte0, matchOff_bytes]
  have hip0 := hu.atIp
  have hop0 := hu.atOp
  have hlen : 3 ≤ matchLength n := Nat.le_add_left _ _
  obtain ⟨t, htm, he, hkeep, hrep⟩ :=
    hu.backed.decodeMatch_of_legal hpos (hop0 ▸ hle) (by rwa [hop0, hu.lat])
  have ht : u.engineStep = .next t := by
    rw [State.engineStep_of_fetch hu.runs.canMove hu.runs.opl (by rw [hop0, hu.lat]; omega) hf,
      exec_match_decompress _ _ hu.runs.canMove hu.runs.opl, htm]
    rfl
  rw [hop0] at hkeep hrep
  refine ⟨t, ht, hu.engineStep ht ?_, ?_, ?_, ?_, fun _ => ?_,
    matched_output hpos hle hrun hkeep hrep hu.output⟩ <;> rw [he]
  · exact hu.runs.canMove
  · exact (cursor_add_two (by omega)).trans (congrArg (· + 2) hip0)
  · exact (cursor_add (by omega)).trans (congrArg (· + matchLength n) hop0)
  · exact congrArg (· + 1) hu.atBit
  · exact hu.atCtl h8

end

/-- At the ends of both regions a DECOMPRESS is done, with the whole of `src` written. -/
theorem State.DecodesAt.done {ctl : Byte} {bit : BitVec 4}
    (hu : u.DecodesAt src str ops b ops.srcLen.toNat ops.dstSize.toNat ctl bit) :
    ∃ t, u.engineStep = .next t ∧ t.Decoded src ops b := by
  have ht : u.engineStep = .next (u.setEng u.eng.completeDecompress) := by
    rw [State.engineStep_decompress hu.runs.canMove hu.runs.opl]
    exact if_pos (by rw [hu.atOp, hu.lat])
  refine ⟨_, ht, hu.runs.regBase, ⟨rfl, rfl⟩, rfl, BitVec.eq_of_toNat_eq ?_, BitVec.eq_of_toNat_eq ?_, ?_⟩
  · exact (cursor_word (by rw [hu.atOp]; exact ops.dstSize.isLt)).trans hu.atOp
  · exact (cursor_word (by rw [hu.atIp]; exact ops.srcLen.isLt)).trans hu.atIp
  · have := hu.output
    rwa [← hu.lat] at this ⊢

/-- A DECOMPRESS of a stream that spells `src` from where it stands ends with the whole of `src` written. -/
theorem Spells.decoded {ip op : Nat} {ctl : Byte} {bit : BitVec 4}
    (h : Spells src str ops.dstSize.toNat ops.srcLen.toNat ip op ctl bit)
    (hu : u.DecodesAt src str ops b ip op ctl bit) :
    ∃ k v, core.run k u = .next v ∧ v.Decoded src ops b := by
  induction h generalizing u with
  | done =>
    obtain ⟨t, ht, hd⟩ := hu.done
    exact hu.runs.of_step ht ⟨0, t, rfl, hd⟩
  | group hop rest ih =>
    obtain ⟨t, ht, hd⟩ := hu.group hop rest.ip_le
    exact hu.runs.of_step ht (ih hd)
  | literal hop h8 hctl hsrc rest ih =>
    obtain ⟨t, ht, hd⟩ := hu.literal h8 hctl hop rest.ip_le hsrc
    exact hu.runs.of_step ht (ih hd)
  | matched hop h8 hctl h0 h1 hpos hle hrun rest ih =>
    obtain ⟨t, ht, hd⟩ := hu.matched h8 hctl hop rest.ip_le h0 h1 hpos hle hrun
    exact hu.runs.of_step ht (ih hd)

end

/-! ### What COMPRESS makes of its source -/

/-- The control byte of the open group stands in memory as CBYTE, with no bit set for a token still to come
(42_encoder.md R182, R187). -/
structure State.GroupBytes (s : State) : Prop where
  stored : 0 < s.eng.enc.opos.toNat → s.dstByte s.eng.enc.cmap.toNat = s.eng.enc.cbyte
  unset : ∀ i, s.eng.bitn.toNat ≤ i → s.eng.enc.cbyte.getLsbD i = false

/-- COMPRESS, going on from `s`, has completed in `t`: the bytes emitted before `s` stand, but for the bits of the open
group's control byte that were still to come, and the bytes after them spell the rest of the source. -/
structure State.CompressedTo (s t : State) : Prop where
  lat : t.eng.lat = s.eng.lat
  source : ∀ i, i < s.eng.lat.srcLen.toNat → t.srcByte i = s.srcByte i
  kept : ∀ j, j < s.eng.enc.opos.toNat → j ≠ s.eng.enc.cmap.toNat → t.dstByte j = s.dstByte j
  control : 0 < s.eng.enc.opos.toNat → ∀ i, i < s.eng.bitn.toNat →
    (t.dstByte s.eng.enc.cmap.toNat).getLsbD i = s.eng.enc.cbyte.getLsbD i
  spells : Spells t.srcByte t.dstByte s.eng.lat.srcLen.toNat t.eng.regs.result.toNat
    s.eng.enc.opos.toNat s.eng.enc.pos.toNat (t.dstByte s.eng.enc.cmap.toNat) s.eng.bitn

theorem setControlBit_getLsbD_ne {k : Byte} {b : BitVec 4} {i : Nat} (h : i ≠ b.toNat) :
    (setControlBit k b).getLsbD i = k.getLsbD i := by
  by_cases hi : i < 8
  · rw [setControlBit_getLsbD k b hi, decide_eq_false h, Bool.or_false]
  · rw [BitVec.getLsbD_of_ge _ _ (Nat.le_of_not_lt hi), BitVec.getLsbD_of_ge _ _ (Nat.le_of_not_lt hi)]

theorem setControlBit_getLsbD_self {k : Byte} {b : BitVec 4} (h : b.toNat < 8) :
    (setControlBit k b).getLsbD b.toNat = true := by
  rw [setControlBit_getLsbD k b h, decide_eq_true rfl, Bool.or_true]

/-- A match token chosen names an equal run that starts before POS (41_match_search.md R158). -/
theorem State.nextToken_run {s : State} {n : BitVec 6} {off : BitVec 10} {e : Engine}
    (h : s.nextToken = some (.matchTok n off, e)) :
    1 ≤ off.toNat ∧ off.toNat ≤ s.eng.enc.pos.toNat ∧ ∀ k, k < matchLength n →
      s.srcByte (s.eng.enc.pos.toNat + k) = s.srcByte (s.eng.enc.pos.toNat - off.toNat + k) := by
  unfold State.nextToken at h
  split_ifs at h with hg
  · simp at h
  · obtain ⟨-, -, -, -, hpos, hle, hrun, -⟩ := emittedMatchNamesTheLongestEqualRun _ s n off e h
    exact ⟨hpos, hle, hrun⟩

theorem State.nextToken_literal {s : State} {b : Byte} {e : Engine} (h : s.nextToken = some (.lit b, e)) :
    s.srcByte s.eng.enc.pos.toNat = some b := by
  rcases State.nextToken_instr h with ⟨_, hb, hsrc⟩ | ⟨_, _, hb, -⟩
  · cases hb
    exact hsrc
  · exact nomatch hb

theorem State.groupOpen_canMove {s u : State} {k : Byte} (hu : s.groupOpen k = some u) :
    u.eng.canMove = s.eng.canMove := by
  obtain ⟨-, rfl⟩ := State.groupOpen_eq_some.1 hu
  rfl

theorem State.emitLiteral_canMove {s u : State} {b : Byte} (hu : s.emitLiteral b = some u) :
    u.eng.canMove = s.eng.canMove := by
  obtain ⟨-, rfl⟩ := State.emitLiteral_eq_some.1 hu
  rfl

theorem State.emitMatch_canMove {s u : State} {n : BitVec 6} {off : BitVec 10}
    (hu : s.emitMatch n off = some u) : u.eng.canMove = s.eng.canMove := by
  obtain ⟨-, -, -, rfl⟩ := State.emitMatch_eq_some.1 hu
  rfl

section
variable {s u t : State} (h : s.Inv) (hm : s.eng.canMove = true) (ho : s.eng.opl = .compress)
include h hm ho

theorem State.Inv.groupBytes_groupOpen (hu : s.groupOpen 0x00 = some u) : u.GroupBytes := by
  have hdst := State.groupOpen_dstByte hu
  obtain ⟨-, rfl⟩ := State.groupOpen_eq_some.1 hu
  exact ⟨fun _ => (hdst _).trans (if_pos (h.opos_word hm ho)), fun i _ => BitVec.getLsbD_zero⟩

theorem State.Inv.groupBytes_emitLiteral {b : Byte} (h8 : s.eng.bitn ≠ 8) (hg : s.GroupBytes)
    (hu : s.emitLiteral b = some u) : u.GroupBytes := by
  obtain ⟨-, hcmap⟩ := h.token_room hm ho h8
  obtain ⟨hbit, -⟩ := bit_succ (h.eng_legal.bitn_range (Engine.canMove_iff.1 hm).1) h8
  have hdst := State.emitLiteral_dstByte hu s.eng.enc.cmap.toNat
  rw [if_neg (by omega), hg.stored (by omega)] at hdst
  obtain ⟨-, rfl⟩ := State.emitLiteral_eq_some.1 hu
  exact ⟨fun _ => hdst, fun i hi => hg.unset i (by rw [hbit] at hi; omega)⟩

theorem State.Inv.groupBytes_emitMatch {n : BitVec 6} {off : BitVec 10} (h8 : s.eng.bitn ≠ 8)
    (hg : s.GroupBytes) (hu : s.emitMatch n off = some u) : u.GroupBytes := by
  obtain ⟨-, hcmap⟩ := h.token_room hm ho h8
  obtain ⟨hbit, -⟩ := bit_succ (h.eng_legal.bitn_range (Engine.canMove_iff.1 hm).1) h8
  have hdst := State.emitMatch_dstByte hu s.eng.enc.cmap.toNat
  rw [if_neg (by omega), if_neg (by omega), if_pos rfl] at hdst
  obtain ⟨-, -, -, rfl⟩ := State.emitMatch_eq_some.1 hu
  refine ⟨fun _ => hdst, fun i hi => ?_⟩
  rw [hbit] at hi
  exact (setControlBit_getLsbD_ne (by omega)).trans (hg.unset i (by omega))

/-- A completion emits nothing more. -/
theorem State.Inv.compressedTo_complete (hg : s.GroupBytes)
    (hp : s.eng.lat.srcLen.toNat ≤ s.eng.enc.pos.toNat) :
    s.CompressedTo (s.setEng s.eng.completeCompress) where
  lat := rfl
  source := fun _ _ => rfl
  kept := fun _ _ _ => rfl
  control := fun h0 i _ => congrArg (·.getLsbD i) (hg.stored h0)
  spells := by
    rw [h.pos_of_consumed hm ho hp, ← h.opos_word hm ho]
    exact .done

variable (hsrc : ∀ i, i < s.eng.lat.srcLen.toNat → u.srcByte i = s.srcByte i)
  (ht : u.CompressedTo t)
include hsrc ht

/-- GROUP OPEN emits the control byte of the group whose tokens follow. -/
theorem State.Inv.compressedTo_groupOpen (hg : s.GroupBytes) (h8 : s.eng.bitn = 8)
    (hp : s.eng.enc.pos.toNat < s.eng.lat.srcLen.toNat) (hu : s.groupOpen 0x00 = some u) :
    s.CompressedTo t := by
  have hword := h.opos_word hm ho
  have hcmap := h.eng_legal.group_room (Engine.canMove_iff.1 hm).1 ho
  have hdst := State.groupOpen_dstByte hu
  obtain ⟨-, rfl⟩ := State.groupOpen_eq_some.1 hu
  have hopos : (s.eng.enc.opos + 1).toNat = s.eng.enc.opos.toNat + 1 := cursor_add_one (by omega)
  obtain ⟨hlat, hsrc', hkept, -, hspells⟩ := ht
  simp only [hopos, hword, hdst] at hkept hspells
  have hkept (j : Nat) (hj : j < s.eng.enc.opos.toNat) : t.dstByte j = s.dstByte j :=
    (hkept j (by omega) (by omega)).trans (if_neg (by omega))
  refine ⟨hlat, fun i hi => (hsrc' i hi).trans (hsrc i hi), fun j hj _ => hkept j hj, fun h0 i _ => ?_, ?_⟩
  · rcases hcmap with ⟨-, hz⟩ | ⟨-, hlt⟩
    · rw [hz] at h0
      exact absurd h0 (by decide)
    · rw [hkept _ hlt, hg.stored h0]
  · rw [h8]
    exact .group hp hspells

variable (h8 : s.eng.bitn ≠ 8)
include h8

/-- EMIT LITERAL emits the byte at POS, under a control bit that stays clear. -/
theorem State.Inv.compressedTo_emitLiteral {b : Byte} (hg : s.GroupBytes)
    (hp : s.eng.enc.pos.toNat < s.eng.lat.srcLen.toNat)
    (hb : s.srcByte s.eng.enc.pos.toNat = some b) (hu : s.emitLiteral b = some u) : s.CompressedTo t := by
  obtain ⟨hroom, hcmap⟩ := h.token_room hm ho h8
  obtain ⟨hbit, -⟩ := bit_succ (h.eng_legal.bitn_range (Engine.canMove_iff.1 hm).1) h8
  have hdst := State.emitLiteral_dstByte hu
  obtain ⟨-, rfl⟩ := State.emitLiteral_eq_some.1 hu
  have hopos : (s.eng.enc.opos + 1).toNat = s.eng.enc.opos.toNat + 1 := cursor_add_one (by omega)
  have hpos : (s.eng.enc.pos + 1).toNat = s.eng.enc.pos.toNat + 1 := cursor_add_one (by omega)
  obtain ⟨hlat, hsrc', hkept, hcontrol, hspells⟩ := ht
  have hsrc (i : Nat) (hi : i < s.eng.lat.srcLen.toNat) := (hsrc' i hi).trans (hsrc i hi)
  simp only [hopos, hpos, hbit, hdst] at hkept hcontrol hspells
  refine ⟨hlat, hsrc, fun j hj hne => ?_, fun _ i hi => hcontrol (by omega) i (by omega),
    .literal hp h8 ?_ ?_ hspells⟩
  · rw [hkept j (by omega) hne, if_neg (by omega)]
  · rw [hcontrol (by omega) _ (by omega), hg.unset _ le_rfl]
  · rw [hsrc _ hp, hb, hkept _ (by omega) (by omega), if_pos rfl]

/-- EMIT MATCH emits the two bytes of the token, under a control bit it sets. -/
theorem State.Inv.compressedTo_emitMatch {n : BitVec 6} {off : BitVec 10}
    (hp : s.eng.enc.pos.toNat + matchLength n ≤ s.eng.lat.srcLen.toNat) (hoff : 1 ≤ off.toNat)
    (hle : off.toNat ≤ s.eng.enc.pos.toNat)
    (hrun : ∀ k, k < matchLength n →
      s.srcByte (s.eng.enc.pos.toNat + k) = s.srcByte (s.eng.enc.pos.toNat - off.toNat + k))
    (hu : s.emitMatch n off = some u) : s.CompressedTo t := by
  obtain ⟨hroom, hcmap⟩ := h.token_room hm ho h8
  obtain ⟨hbit, hlt⟩ := bit_succ (h.eng_legal.bitn_range (Engine.canMove_iff.1 hm).1) h8
  have hdst := State.emitMatch_dstByte hu
  obtain ⟨-, -, -, rfl⟩ := State.emitMatch_eq_some.1 hu
  have hopos : (s.eng.enc.opos + 2).toNat = s.eng.enc.opos.toNat + 2 := cursor_add_two (by omega)
  have hpos : (s.eng.enc.pos + BitVec.ofNat 33 (matchLength n)).toNat =
      s.eng.enc.pos.toNat + matchLength n := cursor_add (by omega)
  obtain ⟨hlat, hsrc', hkept, hcontrol, hspells⟩ := ht
  have hsrc (i : Nat) (hi : i < s.eng.lat.srcLen.toNat) := (hsrc' i hi).trans (hsrc i hi)
  simp only [hopos, hpos, hbit, hdst] at hkept hcontrol hspells
  refine ⟨hlat, hsrc, fun j hj hne => ?_, fun _ i hi => ?_,
    .matched hp h8 ?_ ?_ ?_ hoff hle (fun k hk => ?_) hspells⟩
  · rw [hkept j (by omega) hne, if_neg (by omega), if_neg (by omega), if_neg hne]
  · rw [hcontrol (by omega) i (by omega), setControlBit_getLsbD_ne (by omega)]
  · rw [hcontrol (by omega) _ (by omega), setControlBit_getLsbD_self hlt]
  · rw [hkept _ (by omega) (by omega), if_neg (by omega), if_pos rfl]
  · rw [hkept _ (by omega) (by omega), if_pos rfl]
  · rw [hsrc _ (by omega), hsrc _ (by omega), hrun k hk]

end

/-- The engine that emits a token differs from the one before its choice in the working registers of the attempt and in
the dictionary. -/
theorem State.nextToken_engine {s : State} {i : Instr} {e : Engine} (h : s.nextToken = some (i, e)) :
    ∃ off dict hidx cand mlen, e = { s.eng with
      off := off, dict := dict, enc := { s.eng.enc with hidx := hidx, cand := cand, mlen := mlen } } :=
  ⟨_, _, _, _, _, (State.nextToken_frame h).1⟩

/-- A step of COMPRESS that is not stuck leads to a completion where what follows it does. -/
theorem State.Inv.compressedTo_of_step {s u t : State} (h : s.Inv) (hm : s.eng.canMove = true)
    (ho : s.eng.opl = .compress) (hg : s.GroupBytes) (hu : s.engineStep = .next u)
    (hstuck : u.eng.stuck = false) (hic : t.eng.regs.inConsumed = s.eng.lat.srcLen)
    (hends : u.eng.canMove = false → t = u)
    (hgoes : u.eng.canMove = true → u.GroupBytes → u.CompressedTo t) : s.CompressedTo t := by
  have hsrc : ∀ i, i < s.eng.lat.srcLen.toNat → u.srcByte i = s.srcByte i :=
    fun i hi => h.engineStep_srcByte hm hu hi
  rw [State.engineStep_compress hm ho] at hu
  rcases State.compressStep_cases hm ho hu with ⟨hp, rfl⟩ | ⟨hp, ⟨-, -, rfl⟩ | ⟨h8, -, hu⟩ |
    ⟨-, -, rfl⟩ | ⟨h8, b, e, hn, hu⟩ | ⟨h8, n, off, e, hn, hlen, hu⟩⟩
  · rw [hends rfl]
    exact h.compressedTo_complete hm ho hg hp
  · rw [hends rfl] at hic
    have hic : s.eng.enc.pos.setWidth 32 = s.eng.lat.srcLen := hic
    rw [← hic, cursor_word (by omega)] at hp
    exact absurd hp (Nat.lt_irrefl _)
  · have hu := State.orStick_completed hu hstuck
    exact h.compressedTo_groupOpen hm ho hsrc
      (hgoes ((State.groupOpen_canMove hu).trans hm) (h.groupBytes_groupOpen hm ho hu)) hg h8 hp hu
  · exact nomatch hstuck
  · have hu := State.orStick_completed hu hstuck
    obtain ⟨h', -⟩ := h.nextToken hm ho hn
    have hb := State.nextToken_literal hn
    obtain ⟨_, _, _, _, _, rfl⟩ := State.nextToken_engine hn
    have hrest := hgoes ((State.emitLiteral_canMove hu).trans hm)
      (h'.groupBytes_emitLiteral hm ho h8 ⟨hg.stored, hg.unset⟩ hu)
    obtain ⟨hlat, hsource, hkept, hcontrol, hspells⟩ :=
      h'.compressedTo_emitLiteral hm ho hsrc hrest h8 ⟨hg.stored, hg.unset⟩ hp hb hu
    exact ⟨hlat, hsource, hkept, hcontrol, hspells⟩
  · have hu := State.orStick_completed hu hstuck
    obtain ⟨h', -⟩ := h.nextToken hm ho hn
    obtain ⟨hoff, hle, hrun⟩ := State.nextToken_run hn
    obtain ⟨_, _, _, _, _, rfl⟩ := State.nextToken_engine hn
    have hrest := hgoes ((State.emitMatch_canMove hu).trans hm)
      (h'.groupBytes_emitMatch hm ho h8 ⟨hg.stored, hg.unset⟩ hu)
    obtain ⟨hlat, hsource, hkept, hcontrol, hspells⟩ :=
      h'.compressedTo_emitMatch hm ho hsrc hrest h8 hlen hoff hle hrun hu
    exact ⟨hlat, hsource, hkept, hcontrol, hspells⟩

/-- A COMPRESS left alone that comes to an end which is no sentinel has completed. -/
theorem State.Runs.compressedTo {b : Word} {n : Nat} {s t : State} (hs : s.Runs b .compress)
    (hothers : ∀ e ∈ s.others, e.canMove = false) (h : s.Inv) (hg : s.GroupBytes)
    (hrun : core.run n s = .next t) (hend : t.eng.ended)
    (hic : t.eng.regs.inConsumed = s.eng.lat.srcLen) : s.CompressedTo t := by
  induction n generalizing s with
  | zero =>
    rw [run_zero hrun] at hend
    exact nomatch hend.1.symm.trans (Engine.canMove_iff.1 hs.canMove).1
  | succ n ih =>
    obtain ⟨u, hu, hrun⟩ := run_succ_inv hrun
    rw [step_focused hs.refused hs.inputs hs.canMove] at hu
    have own := engineStep_ownStep hu
    have hothers' : ∀ e ∈ u.others, e.canMove = false := by
      rw [own.frame]
      exact hothers
    have hends (hm : u.eng.canMove = false) : t = u :=
      run_of_rest (by rw [own.frame]; exact hs.refused) (by rw [own.frame]; exact hs.inputs)
        (List.forall_mem_cons.2 ⟨hm, hothers'⟩) hrun
    have hstuck : u.eng.stuck = false := by
      rw [← Bool.not_eq_true]
      intro hst
      obtain rfl := hends (by simp [Engine.canMove, hst])
      exact nomatch hend.1.symm.trans ((h.engineStep hu).eng_legal.marks_busy (.inr hst))
    exact h.compressedTo_of_step hs.canMove hs.opl hg hu hstuck hic hends fun hm hg =>
      ih (hs.engineStep hu hm) hothers' (h.engineStep hu) hg hrun (by rw [own.lat, hic])

/-- Settles O60: the stream of the completed COMPRESS spells the source, so the DECOMPRESS writes the source. -/
theorem decompressUndoesCompress : Obligations.DecompressUndoesCompress := by
  intro s t u n h hr hin hothers hm ho hbit hpos hopos hrun hend hic hui hub hur huin hum huo hubit huip huop
    hulen husize hstream
  have hg : s.GroupBytes := by
    refine ⟨fun h0 => ?_, fun i hi => BitVec.getLsbD_of_ge _ _ ?_⟩
    · rw [hopos] at h0
      exact absurd h0 (by decide)
    · rwa [hbit] at hi
  obtain ⟨hlat, hsrc, -, -, hspells⟩ :=
    State.Runs.compressedTo ⟨hr, hin, hm, ho, rfl⟩ hothers h hg hrun hend hic
  rw [hopos, hpos, hbit, ← hulen, ← husize] at hspells
  have hu : u.DecodesAt t.srcByte t.dstByte u.eng.lat u.eng.regBase 0 0
      (t.dstByte s.eng.enc.cmap.toNat) 8 := by
    refine ⟨⟨⟨hur, huin, hum, huo, rfl⟩, hui, hub, rfl, fun j hj => ?_⟩, by rw [huip]; rfl,
      by rw [huop]; rfl, hubit, fun h8 => absurd rfl h8, fun i hi => absurd hi (Nat.not_lt_zero i)⟩
    rw [hstream j (by rwa [← hulen]), State.dstByte, Engine.dstAddress, hlat]
  obtain ⟨k, v, hv, hd⟩ := hspells.decoded hu
  refine ⟨k, v, hv, hd.regBase, hd.ended, hd.code, hd.result.trans husize, hd.inConsumed.trans hulen,
    fun i hi => ?_⟩
  rw [← hsrc i hi]
  exact hd.output i (by rwa [husize])

end Sys2Proof.Machine

/-! SUPPORT and PROOFS of the statements of 43_decoder.md. First the two bytes of a match token as numbers; then what an
element does in DECOMPRESS; then the step of DECOMPRESS by the condition it stands under. -/

namespace Sys2Proof.Machine

/-! ## The fields of a match token -/

/-- Settles O6: LEN and OFF as sums of the two bytes' parts, with shifts and masks as divisions and remainders. -/
theorem matchBytesUnpackToLengthAndOffset : Obligations.MatchBytesUnpackToLengthAndOffset := by
  intro b0 b1
  have hlen : matchLength (matchN b0) = (b0.toNat >>> 2) + 3 := by
    rw [matchLength, matchN_toNat, Nat.shiftRight_eq_div_pow]
    rfl
  have hoff : (matchOff b0 b1).toNat = ((b0.toNat &&& 3) <<< 8) ||| b1.toNat := by
    have hmask : b0.toNat &&& 3 = b0.toNat % 4 := Nat.and_two_pow_sub_one_eq_mod b0.toNat 2
    rw [matchOff_toNat, hmask, ← Nat.shiftLeft_add_eq_or_of_lt b1.isLt, Nat.shiftLeft_eq, Nat.mul_comm]
  have hn := (matchN b0).isLt
  refine ⟨hlen, hoff, Nat.le_add_left _ _, ?_⟩
  rw [matchLength, Config.matchMin]
  omega

/-! ## What an element does in DECOMPRESS -/

/-- Settles O31: CONTROL FETCH makes no access of its own. -/
theorem controlByteIsFetched : Obligations.ControlByteIsFetched :=
  fun k _ hm ho => exec_ctl_decompress k hm ho

/-- Settles O32: DECODE LITERAL stores one byte. -/
theorem literalIsDecodedVerbatim : Obligations.LiteralIsDecodedVerbatim := by
  intro b s hm ho hord
  rw [exec_lit_decompress b hm ho, (State.decodeLiteral_eq_some (s := s)).2 ⟨hord, rfl⟩]
  exact ⟨_, rfl, fun a => Memory.read_write _ _ _ _, rfl⟩

/-- A token the bounds check rejects ends the operation before any byte is copied (43_decoder.md R217, R218). -/
theorem State.decodeMatch_of_badOffset {s : State} {n : BitVec 6} {off : BitVec 10}
    (h : off = 0 ∨ s.eng.dec.op.toNat < off.toNat) :
    s.decodeMatch n off = some (s.setEng (s.eng.unpackMatch n off).corruptStream) :=
  if_pos ((Engine.badOffset_iff _ _).2 h.symm)

/-- Settles O33: the bounds check rejects the token. -/
theorem badOffsetIsCorruptStream : Obligations.BadOffsetIsCorruptStream := by
  intro n off s hm ho hbad
  rw [exec_match_decompress n off hm ho, State.decodeMatch_of_badOffset hbad]
  rfl

/-- A token with a legal offset is decoded by the copy, which completes where the destination is backed
(43_decoder.md R219). -/
theorem State.decodeMatch_of_legal_offset {s : State} (n : BitVec 6) {off : BitVec 10} (hpos : 1 ≤ off.toNat)
    (hle : off.toNat ≤ s.eng.dec.op.toNat) (hord : ∀ a, s.eng.inDest a = true → s.platform.ordinary a = true) :
    ∃ u, State.overlapCopy (matchLength n) (s.setEng ((s.eng.unpackMatch n off).setCopy off)) = some u ∧
      s.decodeMatch n off = some (u.setEng u.eng.advanceBit) := by
  have hcpy := Engine.setCopy_cpy_toNat (e := s.eng.unpackMatch n off) hle
  obtain ⟨u, hu⟩ := State.overlapCopy_total (n := matchLength n)
    (s := s.setEng ((s.eng.unpackMatch n off).setCopy off)) hord (by
      rw [State.setEng_eng, hcpy]
      exact Nat.sub_le _ _)
  have hgood : ¬ (s.eng.unpackMatch n off).badOffset off = true := by
    rw [Engine.badOffset_iff, Engine.unpackMatch_dec_op]
    rintro (hlt | rfl)
    · exact absurd hle (Nat.not_le.2 hlt)
    · exact absurd hpos (by decide)
  refine ⟨u, hu, (if_neg hgood).trans ?_⟩
  rw [hu]
  rfl

/-- Settles O34: the copy is cut off at dst_size, and each byte it writes equals the one OFF before it. -/
theorem overlapCopyRepeatsTheOutput : Obligations.OverlapCopyRepeatsTheOutput := by
  intro n off s hm ho hpos hle hop hord m first
  obtain ⟨u, hu, hdec⟩ := State.decodeMatch_of_legal_offset n hpos hle hord
  obtain ⟨_, rfl, he, hst, -, hframe⟩ := State.overlapCopy_spec hu hop
  have hrep := State.overlapCopy_repeats hu off.toNat hop hpos (by
    rw [State.setEng_eng, Engine.setCopy_cpy_toNat (e := s.eng.unpackMatch n off) hle]
    exact Nat.sub_add_cancel hle)
  rw [exec_match_decompress n off hm ho, hdec]
  refine ⟨_, rfl, hrep, hframe, ?_⟩
  rw [he, hst]
  rfl

/-! ## The step of DECOMPRESS -/

theorem Engine.position_eq (e : Engine) :
    e.position = if e.bitn = 8 then .control else .token (e.dec.ctl.getLsbD e.bitn.toNat) := by
  split_ifs with h8
  · exact Engine.position_control h8
  · exact Engine.position_token h8

theorem readBytes_eq_some {rd : Nat → Option Byte} {bs : List Byte} {i : Nat}
    (h : ∀ k (hk : k < bs.length), rd (i + k) = some bs[k]) : readBytes rd bs.length i = some bs := by
  induction bs generalizing i with
  | nil => rfl
  | cons b bs ih =>
    have hhead : rd i = some b := h 0 (Nat.succ_pos _)
    have htail : readBytes rd bs.length (i + 1) = some bs := ih fun k hk => by
      rw [Nat.add_assoc, Nat.add_comm 1]
      exact h (k + 1) (Nat.succ_lt_succ hk)
    simp [readBytes, hhead, htail]

/-- The bytes at IP are fetched as the element they decode to at the engine's position. -/
theorem State.fetch_of_decode {s : State} {bs rest : List Byte} {i : Instr}
    (hlen : bs.length = s.eng.position.length)
    (hl : s.eng.dec.ip.toNat + bs.length ≤ s.eng.lat.srcLen.toNat)
    (hbs : ∀ k (hk : k < bs.length), s.srcByte (s.eng.dec.ip.toNat + k) = some bs[k])
    (hd : decodeElement s.eng.position bs = .ok (i, rest)) : s.fetch = .element i := by
  unfold State.fetch
  simp only [← hlen, readBytes_eq_some hbs, hd]
  exact if_neg (Nat.not_lt.2 hl)

/-- Settles O38: the turn focuses the engine at its address, which fetches the element and runs it. -/
theorem stepRunsTheFetchedElement : Obligations.StepRunsTheFetchedElement := by
  intro s t addr rest p bs i hr hin hf hm ho hlt hp hlen hl hbs hd
  obtain rfl : p = t.eng.position := hp.trans t.eng.position_eq.symm
  rw [step_turn hr hin, State.turnStep, hf]
  exact State.engineStep_of_fetch hm ho hlt (State.fetch_of_decode hlen hl hbs hd)

section
variable {s : State} (hm : s.eng.canMove = true) (ho : s.eng.opl = .decompress)
include hm ho

theorem State.engineStep_of_filled (hop : s.eng.lat.dstSize.toNat ≤ s.eng.dec.op.toNat) :
    s.engineStep = .next (s.setEng s.eng.completeDecompress) :=
  (State.engineStep_decompress hm ho).trans (if_pos hop)

/-- The length of the stream is checked before a byte of the element is read (60_exceptions.md R257). -/
theorem State.engineStep_of_short_stream (hlt : s.eng.dec.op.toNat < s.eng.lat.dstSize.toNat)
    (hshort : s.eng.lat.srcLen.toNat < s.eng.dec.ip.toNat + s.eng.position.length) :
    s.engineStep = .next s.overrun := by
  have hf : s.fetch = .overrun := if_pos hshort
  rw [State.engineStep_decompress hm ho]
  unfold State.decompressStep
  rw [if_neg (Nat.not_le.2 hlt), hf]

end

/-- Settles O35: OP is dst_size, and IP is in the range the invariant gives. -/
theorem decompressCompletesAtDstSize : Obligations.DecompressCompletesAtDstSize := by
  intro s h hm ho hop
  have hb := (Engine.canMove_iff.1 hm).1
  have hip := h.eng_legal.ip_range hb ho
  have hfull : s.eng.dec.op.toNat = s.eng.lat.dstSize.toNat :=
    Nat.le_antisymm (h.eng_legal.op_range hb ho) hop
  have hresult : s.eng.dec.op.setWidth 32 = s.eng.lat.dstSize := BitVec.eq_of_toNat_eq (by
    rw [cursor_word (by rw [hfull]; exact s.eng.lat.dstSize.isLt), hfull])
  refine ⟨_, State.engineStep_of_filled hm ho hop, rfl, ?_,
    cursor_word (hip.trans_lt s.eng.lat.srcLen.isLt)⟩
  rw [← hresult]
  rfl

/-- A faulted engine takes no step. -/
theorem State.engineStep_overrun (s : State) : s.overrun.engineStep = .next s.overrun :=
  State.engineStep_rest (by simp [State.overrun, Engine.canMove])

/-- Settles O36: the step is the overrun, whose draw reaches the destination only. -/
theorem shortStreamSetsTheFaultedMark : Obligations.ShortStreamSetsTheFaultedMark := by
  intro s hm ho hlt hshort
  rw [← s.eng.position_length] at hshort
  exact ⟨_, State.engineStep_of_short_stream hm ho hlt hshort, rfl,
    fun _ ha => s.drawDest_read_ne s.eng ha, fun _ hj hord => s.drawDest_read s.eng hj hord,
    s.engineStep_overrun⟩

end Sys2Proof.Machine

/-! SUPPORT and PROOFS of the statements of 60_exceptions.md. First what wakes an idle engine, instruction by
instruction and then by what acts in a step; then the mark `refused`; then the mark `faulted` and the machine at rest. -/

namespace Sys2Proof.Machine

/-! ## What wakes an idle engine -/

/-- The two values of OP that name an operation (10_state.md R31). -/
theorem legal_of_operationOf {op : BitVec 2} {o : Operation} (h : operationOf op = some o) :
    op = 0b01#2 ∨ op = 0b10#2 := by
  unfold operationOf at h
  split_ifs at h with h1 h2
  · exact .inl h1
  · exact .inr h2

/-- The low bits of a word with START and a legal OP (10_state.md R31). -/
theorem low_bits_of_start {v : Word} (hs : v.getLsbD 0 = true)
    (hop : v.extractLsb' 1 2 = 0b01#2 ∨ v.extractLsb' 1 2 = 0b10#2) :
    v.toNat % 8 = 3 ∨ v.toNat % 8 = 5 := by
  have hbit : v.toNat % 2 = 1 := by simpa [BitVec.getLsbD, Nat.testBit_zero] using hs
  have hfield : v.toNat / 2 % 4 = 1 ∨ v.toNat / 2 % 4 = 2 :=
    hop.imp (fun h => (extract_toNat v 1 2).symm.trans (congrArg BitVec.toNat h))
      (fun h => (extract_toNat v 1 2).symm.trans (congrArg BitVec.toNat h))
  omega

section
variable {s t : State} (hi : s.eng.engState = .idle) (hb : t.eng.engState = .busy)
include hi hb

/-- An engine that was IDLE and is BUSY is not as it was. -/
theorem State.eng_ne_of_woken : t.eng ≠ s.eng := fun h => by
  rw [h, hi] at hb
  cases hb

/-- A START wakes an engine only with a legal OP: BAD_OP leaves it idle (40_commands.md R133, R134). -/
theorem startCommand_wakes {op : BitVec 2} (h : s.startCommand op = .next t) :
    op = 0b01#2 ∨ op = 0b10#2 := by
  rcases startCommand_cases h with ⟨-, rfl⟩ | ⟨-, ⟨-, rfl⟩ | ⟨o, ho, -⟩⟩
  · exact nomatch hi.symm.trans hb
  · exact nomatch hb
  · exact legal_of_operationOf ho

/-- The one register whose write wakes an engine is CTRL. -/
theorem exec_writeReg_wakes {r : Reg} {v : Word} (h : exec (.writeReg r v) s = .next t) :
    r = .ctrl ∧ (v.toNat % 8 = 3 ∨ v.toNat % 8 = 5) := by
  cases r with
  | ctrl =>
    refine ⟨rfl, ?_⟩
    cases hs : v.getLsbD 0 with
    | true => exact low_bits_of_start hs (startCommand_wakes hi hb (exec_writeCtrl_start hs s ▸ h))
    | false =>
      rw [exec_writeCtrl_setOp hs] at h
      cases h
      exact nomatch hi.symm.trans hb
  | _ => cases h; exact nomatch hi.symm.trans hb

/-- An element of the stream wakes no engine (log 12). -/
theorem exec_element_never_wakes {i : Instr}
    (h : (∃ k, i = .ctl k) ∨ (∃ b, i = .lit b) ∨ ∃ n off, i = .matchTok n off) : exec i s ≠ .next t := by
  rw [exec_element_of_rest h (Engine.canMove_of_idle hi)]
  intro hst
  cases hst
  exact nomatch hi.symm.trans hb

/-- The instructions that wake an engine (60_exceptions.md R267). -/
theorem exec_wakes {i : Instr} (h : exec i s = .next t) :
    (∃ ign, i = .startCompress ign) ∨ (∃ ign, i = .startDecompress ign) ∨
      ∃ v : Word, i = .writeReg .ctrl v ∧ (v.toNat % 8 = 3 ∨ v.toNat % 8 = 5) := by
  cases i with
  | startCompress ign => exact .inl ⟨ign, rfl⟩
  | startDecompress ign => exact .inr (.inl ⟨ign, rfl⟩)
  | startBadop00 | startBadop11 => exact absurd (startCommand_wakes hi hb h) (by decide)
  | setOp => cases h; exact nomatch hi.symm.trans hb
  | writeReg r v =>
    obtain ⟨rfl, hv⟩ := exec_writeReg_wakes hi hb h
    exact .inr (.inr ⟨v, rfl, hv⟩)
  | readReg r => exact absurd (congrArg State.eng (readReg_frame h)) (State.eng_ne_of_woken hi hb)
  | ctl k => exact absurd h (exec_element_never_wakes hi hb (.inl ⟨k, rfl⟩))
  | lit b => exact absurd h (exec_element_never_wakes hi hb (.inr (.inl ⟨b, rfl⟩)))
  | matchTok n off => exact absurd h (exec_element_never_wakes hi hb (.inr (.inr ⟨n, off, rfl⟩)))

/-- The host accesses that wake an engine are writes of CTRL (30_encoding.md R107). -/
theorem exec_access_wakes {a : BusAccess} {i : Instr} (hd : decodeAccess a = .ok i)
    (h : exec i s = .next t) :
    ∃ v : Word, a = ⟨Reg.ctrl.offset, 32, some v⟩ ∧ (v.toNat % 8 = 3 ∨ v.toNat % 8 = 5) := by
  obtain ⟨r, -, rfl⟩ | ⟨v, rfl, rfl⟩ | ⟨r, v, rfl, rfl⟩ := decodeAccess_cases hd
  · exact absurd (congrArg State.eng (readReg_frame h)) (State.eng_ne_of_woken hi hb)
  · exact ⟨v, rfl, (exec_writeReg_wakes hi hb (exec_writeCtrl v s ▸ h)).2⟩
  · obtain ⟨rfl, hv⟩ := exec_writeReg_wakes hi hb h
    exact ⟨v, rfl, hv⟩

end

/-- An engine's own step leaves it idle where it was. -/
theorem engineStep_keeps_idle {s t : State} (h : s.engineStep = .next t) (hi : s.eng.engState = .idle) :
    t.eng.engState = .idle := by
  rw [State.engineStep_rest (Engine.canMove_of_idle hi)] at h
  cases h
  exact hi

/-- An address names a block at or below it. -/
theorem State.focusAt_regBase_le {s t : State} {addr : Nat} (h : s.focusAt addr = some t) :
    t.eng.regBase.toNat ≤ addr :=
  (inSpan_iff.1 (State.focusBy_spec h).2.1).1

/-- Settles O17: of each instruction by its cases, of each step by what acts in it; only a decoded access can wake the
engine in focus, and its offset 0 makes the address that engine's REG_BASE. -/
theorem onlyAStartLeavesIdle : Obligations.OnlyAStartLeavesIdle := by
  refine ⟨fun i s t h hi hb => exec_wakes hi hb h, fun s t h => ?_⟩
  have asleep : ∀ {e f : Engine}, (e.engState = .idle → f.engState = .idle) →
      e.engState = .idle → f.engState = .busy →
        ∃ (v : Word) (rest : List Input), s.inputs = .access e.regBase.toNat 32 (some v) :: rest ∧
          (v.toNat % 8 = 3 ∨ v.toNat % 8 = 5) :=
    fun hef hi hb => nomatch (hef hi).symm.trans hb
  rcases step_cases h with ⟨rest, -, rfl⟩ | ⟨u, hp, -, h⟩ | ⟨u, j, addr, d, rest, hin, hf, hd, h⟩ | q
  · refine ⟨s.engines, .refl _, ?_⟩
    rw [State.platformReset_engines]
    exact List.forall₂_map_right_iff.2 (List.forall₂_same.2 fun e _ => ⟨rfl, asleep fun _ => rfl⟩)
  · have o := engineStep_ownStep h
    exact ⟨u.engines, hp, State.engines_forall₂ (fun e => ⟨rfl, asleep id⟩)
      ⟨o.regBase, asleep (engineStep_keeps_idle h)⟩ (by rw [o.frame])⟩
  · obtain ⟨hbase, hfr⟩ := exec_frame h
    refine ⟨u.engines, (State.focusBy_spec hf).1, State.engines_forall₂ (fun e => ⟨rfl, asleep id⟩)
      ⟨hbase, fun hi hb => ?_⟩ (by rw [hfr])⟩
    obtain ⟨v, ha, hv⟩ := exec_access_wakes hi hb hd h
    obtain ⟨hoff, -, rfl⟩ := BusAccess.mk.inj ha
    have haddr : addr = u.eng.regBase.toNat :=
      Nat.le_antisymm (Nat.sub_eq_zero_iff_le.1 hoff) (State.focusAt_regBase_le hf)
    exact ⟨v, rest, haddr ▸ hin, hv⟩
  · exact ⟨t.engines, q.perm, List.forall₂_same.2 fun e _ => ⟨rfl, asleep id⟩⟩

/-! ## The mark `refused` -/

/-- A state with the mark refuses the step. -/
theorem State.unlessRefused_of_some {s : State} {r : Refusal} (o : Outcome) (h : s.refused = some r) :
    s.unlessRefused o = .refused r := by
  simp [State.unlessRefused, h]

/-- A state with the mark refuses every input but the reset. -/
theorem State.inputStep_of_refused {s : State} {r : Refusal} (h : s.refused = some r) {i : Input}
    (hi : i ≠ .reset) : s.inputStep i = .refused r := by
  cases i with
  | reset => exact absurd rfl hi
  | _ => exact State.unlessRefused_of_some _ h

/-- Reset keeps the inputs (log 20). -/
theorem State.platformReset_inputs (s : State) : s.platformReset.inputs = s.inputs := by
  show (s.engines.foldl State.abandon s).inputs = s.inputs
  rw [State.abandon_all_frame]

/-- Settles O39: by the next input; the reset alone does not look at the mark. -/
theorem refusedStateOnlyResets : Obligations.RefusedStateOnlyResets := by
  intro s r hr
  refine ⟨fun rest hin => ⟨_, step_reset hin, rfl, State.platformReset_inputs _⟩, fun hne => ?_⟩
  unfold step
  cases hin : s.inputs with
  | nil => exact State.unlessRefused_of_some _ hr
  | cons i rest =>
    exact State.inputStep_of_refused (s := { s with inputs := rest }) hr fun hi => hne rest (hi ▸ hin)

/-! ## The mark `faulted`, and the machine at rest -/

theorem lostByFault_iff {r : Reg} :
    lostByFault r = true ↔ r = .status ∨ r = .result ∨ r = .inConsumed := by
  cases r <;> simp [lostByFault]

/-- Settles O11: the read of a register the fault leaves without a value is the next draw. -/
theorem readOfAFaultedInstanceDrawsAFreeValue : Obligations.ReadOfAFaultedInstanceDrawsAFreeValue := by
  intro r s hf hr
  have hread : s.readRegister r = (Config.freeWord s.draws, { s with draws := s.draws + 1 }) :=
    if_pos (Bool.and_eq_true_iff.2 ⟨hf, lostByFault_iff.2 hr⟩)
  simp only [exec, execReadReg, hread]
  rfl

section
variable {s : State} (hm : ∀ e ∈ s.engines, e.canMove = false)
include hm

/-- Where no engine can move, a faulted one stops the machine (log 1). -/
theorem State.enginesStep_of_faulted {t : State} (hf : s.focusBy Engine.faulted = some t) :
    s.enginesStep = .fault (.inputOverrun t.eng.dec.ip.toNat t.eng.dec.op.toNat) := by
  simp only [State.enginesStep, State.focusBy_none.2 hm, hf]

/-- Where no engine can move and none has faulted, everything rests (60_exceptions.md R267). -/
theorem State.enginesStep_of_unmarked (hf : ∀ e ∈ s.engines, e.faulted = false) :
    s.enginesStep = .next s := by
  simp only [State.enginesStep, State.focusBy_none.2 hm, State.focusBy_none.2 hf]

end

/-- Settles O40: the fault names the first faulted instance, which is the one in focus if that has faulted. -/
theorem faultedInstanceStopsTheMachine : Obligations.FaultedInstanceStopsTheMachine := by
  rintro s hin hr hm ⟨e, he, hef⟩
  rw [step_engines hr hin]
  cases hf : s.focusBy Engine.faulted with
  | none => exact nomatch (State.focusBy_none.1 hf e he).symm.trans hef
  | some t =>
    obtain ⟨hp, htf, -⟩ := State.focusBy_spec hf
    have hmem : t.eng ∈ s.engines := hp.mem_iff.1 (List.mem_cons_self ..)
    refine ⟨t.eng, hmem, htf, fun hs => ?_, State.enginesStep_of_faulted hm hf⟩
    rw [State.focusBy_of_holds hs] at hf
    cases hf
    rfl

/-- Settles O41: idle engines cannot move, and none has faulted. -/
theorem finalStateRests : Obligations.FinalStateRests := by
  rintro s ⟨he, hin, hr⟩
  rw [step_engines hr hin]
  exact State.enginesStep_of_unmarked (fun e h => Engine.canMove_of_idle (he e h).1) fun e h => (he e h).2

/-- When an engine takes no step. -/
theorem Engine.canMove_eq_false {e : Engine} :
    e.canMove = false ↔ e.engState = .idle ∨ e.faulted = true ∨ e.stuck = true := by
  rw [← Bool.not_eq_true, Engine.canMove_iff]
  cases e.engState <;> simp [imp_iff_not_or]

/-- Settles O44: the engine cannot move, which each element and the engine's own step ask first. -/
theorem restingEngineIgnoresElements : Obligations.RestingEngineIgnoresElements := by
  intro k b n off s h
  have hm : s.eng.canMove = false := Engine.canMove_eq_false.2 h
  exact ⟨exec_element_of_rest (.inl ⟨k, rfl⟩) hm, exec_element_of_rest (.inr (.inl ⟨b, rfl⟩)) hm,
    exec_element_of_rest (.inr (.inr ⟨n, off, rfl⟩)) hm, State.engineStep_rest hm⟩

end Sys2Proof.Machine

/-! SUPPORT and PROOFS of the statements of 70_reset_and_hazards.md: what reset leaves unchanged, then which draw each
byte of an abandoned destination is. -/

namespace Sys2Proof.Machine

/-! ## What reset clears and keeps -/

/-- Settles O54: every engine is fresh from reset at its own REG_BASE, and only the abandoned operations change memory. -/
theorem platformResetClearsEverything : Obligations.PlatformResetClearsEverything := by
  intro s
  refine ⟨rfl, s.platformReset_inputs, ?_, ?_, fun a ha => State.abandon_all_read _ _ _ ha⟩
  · rw [State.platformReset_engines, List.map_map]
    rfl
  · rw [State.platformReset_engines]
    exact List.forall_mem_map.2 fun e _ => ⟨rfl, rfl, rfl, Engine.reset_readReg e.regBase⟩

/-! ## The draws of the abandoned operations -/

/-- The number of bytes that abandoning an instance's operation draws (log 9). -/
def Engine.abandonedBytes (e : Engine) : Nat :=
  if e.engState = .busy ∧ e.faulted = false then e.lat.dstSize.toNat else 0

/-- The operation of an unmarked BUSY instance is abandoned: its destination is drawn. -/
theorem State.abandon_of_running (s : State) {e : Engine} (h : e.engState = .busy ∧ e.faulted = false) :
    s.abandon e = s.drawDest e :=
  if_pos (by simpa [Engine.busy_iff] using h)

/-- Any other instance leaves nothing to abandon. -/
theorem State.abandon_of_not_running (s : State) {e : Engine}
    (h : ¬ (e.engState = .busy ∧ e.faulted = false)) : s.abandon e = s :=
  if_neg (by simpa [Engine.busy_iff] using h)

theorem State.abandon_draws (s : State) (e : Engine) :
    (s.abandon e).draws = s.draws + e.abandonedBytes := by
  unfold Engine.abandonedBytes
  split
  case isTrue h => rw [s.abandon_of_running h, State.drawDest_frame]
  case isFalse h => rw [s.abandon_of_not_running h, Nat.add_zero]

theorem State.abandon_all_draws (l : List Engine) (s : State) :
    (l.foldl State.abandon s).draws = s.draws + (l.map Engine.abandonedBytes).sum := by
  induction l generalizing s with
  | nil => rfl
  | cons e l ih => rw [List.foldl_cons, ih, State.abandon_draws, List.map_cons, List.sum_cons, Nat.add_assoc]

/-- Abandoning operations keeps the platform. -/
theorem State.abandon_all_platform (l : List Engine) (s : State) :
    (l.foldl State.abandon s).platform = s.platform := by
  rw [State.abandon_all_frame]

/-- Settles O55: the operations abandoned before it advance the draw counter, its own draw gives the byte its value, and
those after it keep the byte. -/
theorem abandonedDestinationIsFreelyDrawn : Obligations.AbandonedDestinationIsFreelyDrawn := by
  intro s l₁ l₂ e j hs hb hf hafter hj hord
  have hplat := State.abandon_all_platform l₁ s
  rw [State.platformReset_mem, hs, List.foldl_append, List.foldl_cons,
    State.abandon_all_read _ _ _ fun f hfm hfb _ => hafter f hfm hfb, State.abandon_of_running _ ⟨hb, hf⟩,
    State.drawDest_read _ _ hj (hplat ▸ hord), State.abandon_all_draws]
  rfl

end Sys2Proof.Machine
